-- ==== Sys2Proof/Word.lean ====
section
/-!
DEFINITION. The word types of the block (00_scope.md R7, R9), each as wide as the rules of 30_encoding.md and
41_bit_engine.md write it. The parameters of R7 that a build can vary are in `Config`; what is `PORT_W` bits wide (line
masks, selects, sampled levels, `OTHER_BITS`) is a natural number there, since its width is no constant (log entry 3).
-/

namespace Sys2Proof

/-- A command word, a data beat or a response word: `CMD_W` = `RSP_W` = 32 bits (00_scope.md R7). -/
abbrev Word := BitVec 32

/-- A transferred byte, 8 bits (41_bit_engine.md R187), or the `dev` operand, 8 bits (30_encoding.md R101). -/
abbrev Byte := BitVec 8

/-- A pin operand, 0..7: 3 bits, so that no other pin can be spelled (30_encoding.md R101, R106). -/
abbrev Pin := BitVec 3

/-- A slave address, 0x00..0x7F: exactly 7 bits (30_encoding.md R105, 20_memory.md R74). -/
abbrev SlaveAddr := BitVec 7

/-- The payload field of a response word: 24 bits (30_encoding.md R113). -/
abbrev Payload := BitVec 24

end Sys2Proof
end

