-- ==== Sys2Proof/Syntax.lean ====
section
/-!
DEFINITION. The command set (30_encoding.md R102) and the assembler's source lines (R120, R121).
Every operand of a command has exactly the width of its field (R101, R104), so every term of `Instr` is a command the
encoding can spell.
-/

namespace Sys2Proof

/-- The ten commands, one constructor per row of spec/opcode_table.json (30_encoding.md R102). -/
inductive Instr where
  /-- `BEGIN dev, sda, scl` (40_session_line_driver.md R150). -/
  | beginSession (dev : Byte) (sda scl : Pin)
  /-- `BEGIN_TX addr, dir`: direction 0 write, 1 read (42_frame_layer.md R220). -/
  | beginTx (addr : SlaveAddr) (dir : Bool)
  /-- `END_TX` (R222). -/
  | endTx
  /-- `WRITE imm8` (R224). -/
  | write (v : Byte)
  /-- `WRITE_BYTES n`, followed by n data beats (R226). -/
  | writeBytes (n : Byte)
  /-- `WRITE_STR`, followed by data beats up to and including a 0x00 beat (R228). -/
  | writeStr
  /-- `REQUEST_FROM addr, qty` (R232). -/
  | requestFrom (addr : SlaveAddr) (qty : Byte)
  /-- `AVAILABLE` (43_receive_buffer.md R272). -/
  | available
  /-- `READ` (R274). -/
  | read
  /-- `STATUS` (44_control.md R290). -/
  | status
  deriving DecidableEq, Repr

/-- One line of assembly source (30_encoding.md R120) or pseudo-instruction (R121), with its operands as the
numbers the source spells. -/
inductive AsmLine where
  | beginSession (dev sda scl : Nat)
  /-- the direction is `none` where the source leaves it out (R120: default write) -/
  | beginTx (addr : Nat) (dir : Option Bool)
  | endTx
  | write (b : Nat)
  | writeBytes (n : Nat)
  | writeStr
  | requestFrom (addr qty : Nat)
  | available
  | read
  | status
  /-- `.beat b`: one data beat -/
  | beat (b : Nat)
  /-- `WRITE_BUF b0, ..., b(n-1)` -/
  | writeBuf (bytes : List Nat)
  /-- `WRITE_TEXT "s"`, the text as its bytes -/
  | writeText (bytes : List Nat)
  /-- `TX addr, b0, ..., b(n-1)` -/
  | tx (addr : Nat) (bytes : List Nat)
  /-- `RX addr, qty` -/
  | rx (addr qty : Nat)
  deriving DecidableEq, Repr

end Sys2Proof
end

