-- ==== Sys2Proof/WellFormed.lean ====
section
/-!
DEFINITION. What the assembler accepts (30_encoding.md R120) and how it expands the pseudo-instructions (R121).
A command itself needs no check: its operands have the widths of their fields by their types, every pin is in 0..7
(R106), and `sda = scl` is refused at execution, not at decode (R106, R151).
-/

namespace Sys2Proof

/-- `WRITE_BUF b0, ..., b(n-1)` (30_encoding.md R121). -/
def AsmLine.expandBuf (bytes : List Nat) : List AsmLine :=
  .writeBytes bytes.length :: bytes.map .beat

/-- The expansion of the pseudo-instructions; every other line stands for itself (30_encoding.md R121). -/
def AsmLine.expand : AsmLine → List AsmLine
  | .writeBuf bytes => AsmLine.expandBuf bytes
  | .writeText bytes => .writeStr :: (bytes.map .beat ++ [.beat 0])
  | .tx addr bytes => .beginTx addr (some false) :: (AsmLine.expandBuf bytes ++ [.endTx])
  | .rx addr qty => [.requestFrom addr qty, .endTx]
  | l => [l]

/-- The operand checks of one line: each operand within its field's width, `BEGIN` with two different pins, and no
NUL byte in a text (30_encoding.md R120, R121). -/
def AsmLine.wellFormed : AsmLine → Bool
  | .beginSession dev sda scl => decide (dev < 256) && decide (sda < 8) && decide (scl < 8) && decide (sda ≠ scl)
  | .beginTx addr _ => decide (addr < 128)
  | .write b => decide (b < 256)
  | .writeBytes n => decide (n < 256)
  | .requestFrom addr qty => decide (addr < 128) && decide (qty < 256)
  | .beat b => decide (b < 256)
  | .writeBuf bytes => decide (bytes.length < 256) && bytes.all (fun b => decide (b < 256))
  | .writeText bytes => bytes.all (fun b => decide (b < 256) && decide (b ≠ 0))
  | .tx addr bytes => decide (addr < 128) && decide (bytes.length < 256) && bytes.all (fun b => decide (b < 256))
  | .rx addr qty => decide (addr < 128) && decide (qty < 256)
  | .endTx | .writeStr | .available | .read | .status => true

/-- Which data beats the lines so far still ask for (30_encoding.md R109). -/
inductive Expecting where
  | command
  | beats (n : Nat)
  | text
  deriving DecidableEq, Repr

/-- The beats that follow the line `l` when the lines before it ask for `x`; `none` where the assembler refuses:
`WRITE_BYTES n` is followed by exactly n beats, `WRITE_STR` by beats that end with the first 0 (30_encoding.md R120).
A beat that no burst asks for is refused too (log entry 23). -/
def Expecting.next : Expecting → AsmLine → Option Expecting
  | .beats (n + 1), .beat _ => some (if n = 0 then .command else .beats n)
  | .text, .beat b => some (if b = 0 then .command else .text)
  | .beats 0, _ | .beats (_ + 1), _ | .text, _ => none
  | .command, .beat _ => none
  | .command, .writeBytes n => some (if n = 0 then .command else .beats n)
  | .command, .writeStr => some .text
  | .command, _ => some .command

/-- No burst of the (expanded) lines is left with beats missing or over. -/
def beatsComplete (x : Expecting) : List AsmLine → Bool
  | [] => decide (x = .command)
  | l :: ls =>
    match x.next l with
    | some y => beatsComplete y ls
    | none => false

/-- The program the assembler accepts: every line passes its operand checks, and the beats of the expansion are the
beats its bursts ask for (30_encoding.md R120). -/
def wellFormedProgram (p : List AsmLine) : Bool :=
  p.all AsmLine.wellFormed && beatsComplete .command (p.flatMap AsmLine.expand)

end Sys2Proof
end

