-- ==== Sys2Proof/Decode.lean ====
section
/-!
DEFINITION. Decoding a command word (30_encoding.md R100 to R111, R117), the encoder written from the same formats
(R101, R103), and the assembler's words (R120).
-/

namespace Sys2Proof

/-- Why a word is illegal (30_encoding.md R117). Both give the same response; the names are the model's. -/
inductive DecodeError where
  /-- `OP` is 0x0 or 0xB..0xF -/
  | reservedOpcode
  /-- a reserved bit of the format is set (R111) -/
  | reservedBits
  deriving DecidableEq, Repr

/-- `w[31:28]`, the opcode field (30_encoding.md R100). -/
def opField (w : Word) : BitVec 4 := w.extractLsb' 28 4

/-- `w & mask == match` of a row of the opcode table, or a reserved bit is set (30_encoding.md R108, R111). -/
def checkRow (w mask bits : Word) (i : Instr) : Except DecodeError Instr :=
  if w &&& mask = bits then .ok i else .error .reservedBits

/-- The decoder, total on every word: exactly one command or illegal (30_encoding.md R102, R104, R108). The masks and
matches are those of spec/opcode_table.json. -/
def decode (w : Word) : Except DecodeError Instr :=
  match (opField w).toNat with
  | 0x1 => checkRow w 0xFF00FFC0#32 0x10000000#32
      (.beginSession (w.extractLsb' 16 8) (w.extractLsb' 0 3) (w.extractLsb' 3 3))
  | 0x2 => checkRow w 0xFFFFFE80#32 0x20000000#32 (.beginTx (w.extractLsb' 0 7) (w.getLsbD 8))
  | 0x3 => checkRow w 0xFFFFFFFF#32 0x30000000#32 .endTx
  | 0x4 => checkRow w 0xFFFFFF00#32 0x40000000#32 (.write (w.extractLsb' 0 8))
  | 0x5 => checkRow w 0xFFFFFF00#32 0x50000000#32 (.writeBytes (w.extractLsb' 0 8))
  | 0x6 => checkRow w 0xFFFFFFFF#32 0x60000000#32 .writeStr
  | 0x7 => checkRow w 0xFFFF0080#32 0x70000000#32 (.requestFrom (w.extractLsb' 0 7) (w.extractLsb' 8 8))
  | 0x8 => checkRow w 0xFFFFFFFF#32 0x80000000#32 .available
  | 0x9 => checkRow w 0xFFFFFFFF#32 0x90000000#32 .read
  | 0xA => checkRow w 0xFFFFFFFF#32 0xA0000000#32 .status
  | _ => .error .reservedOpcode

/-- `OP` of a command (30_encoding.md R102). -/
def Instr.opcode : Instr → BitVec 4
  | .beginSession _ _ _ => 0x1#4
  | .beginTx _ _ => 0x2#4
  | .endTx => 0x3#4
  | .write _ => 0x4#4
  | .writeBytes _ => 0x5#4
  | .writeStr => 0x6#4
  | .requestFrom _ _ => 0x7#4
  | .available => 0x8#4
  | .read => 0x9#4
  | .status => 0xA#4

/-- The operand fields of a command, bits [27:0], reserved bits 0 (30_encoding.md R101, R103). -/
def Instr.operandBits : Instr → BitVec 28
  | .beginSession dev sda scl => 0#4 ++ dev ++ 0#10 ++ scl ++ sda
  | .beginTx addr dir => 0#19 ++ BitVec.ofBool dir ++ 0#1 ++ addr
  | .write v => 0#20 ++ v
  | .writeBytes n => 0#20 ++ n
  | .requestFrom addr qty => 0#12 ++ qty ++ 0#1 ++ addr
  | .endTx | .writeStr | .available | .read | .status => 0#28

/-- The command word (30_encoding.md R100, R103). -/
def encode (i : Instr) : Word := i.opcode ++ i.operandBits

/-- The data beat of an assembler line: bits [31:8] = 0 (30_encoding.md R120). -/
def encodeBeat (b : Byte) : Word := b.zeroExtend 32

/-- `data = w[7:0]` of a data beat; bits [31:8] are ignored (30_encoding.md R104, R112). -/
def beatData (w : Word) : Byte := w.extractLsb' 0 8

/-- The word of one core line of assembly (30_encoding.md R120); pseudo-instructions have none of their own. -/
def AsmLine.word : AsmLine → Option Word
  | .beginSession dev sda scl =>
      some (encode (.beginSession (BitVec.ofNat 8 dev) (BitVec.ofNat 3 sda) (BitVec.ofNat 3 scl)))
  | .beginTx addr dir => some (encode (.beginTx (BitVec.ofNat 7 addr) (dir.getD false)))
  | .endTx => some (encode .endTx)
  | .write b => some (encode (.write (BitVec.ofNat 8 b)))
  | .writeBytes n => some (encode (.writeBytes (BitVec.ofNat 8 n)))
  | .writeStr => some (encode .writeStr)
  | .requestFrom addr qty => some (encode (.requestFrom (BitVec.ofNat 7 addr) (BitVec.ofNat 8 qty)))
  | .available => some (encode .available)
  | .read => some (encode .read)
  | .status => some (encode .status)
  | .beat b => some (encodeBeat (BitVec.ofNat 8 b))
  | .writeBuf _ | .writeText _ | .tx _ _ | .rx _ _ => none

/-- The words of an assembly program, or nothing where the assembler refuses it (30_encoding.md R120, R121). -/
def assemble (p : List AsmLine) : Option (List Word) :=
  if wellFormedProgram p then some ((p.flatMap AsmLine.expand).filterMap AsmLine.word) else none

/-- What `decode` reads from an instruction of the opcode table: its low `nbits` bits are those of `w`, every bit
above is 0, and the whole is one 32-bit word (30_encoding.md R100: "There is one instruction length, 32 bits"). -/
def decodeTableWord (nbits w : Nat) : Option Instr :=
  (decode (BitVec.ofNat 32 (w % 2 ^ nbits))).toOption

end Sys2Proof
end

