-- ==== Sys2Proof/Config.lean ====
section
/-!
DEFINITION. The build parameters of the block (00_scope.md R7, R8). A model takes each one as an argument: here they
are the fields of a structure that State carries and no step changes.
-/

namespace Sys2Proof

/-- The parameters of 00_scope.md R7. `T_GAP` is OPEN in the spec (92_eei_decisions.md D39). The widths of ports, pins,
addresses, bytes, device handles and words are parameters too; `Config.encodable` says which values the rules leave them
(log entry 3). -/
structure Config where
  /-- `RXCAP`: receive-buffer capacity in bytes. -/
  rxcap : Nat
  /-- `T_STRETCH`: clock-stretch deadline per bit-read, in ms. -/
  tStretch : Nat
  /-- `T_SETTLE`: settle delay between SCL read high and the SDA sample, in ms. -/
  tSettle : Nat
  /-- `TIME_W`: width of the millisecond clock input. -/
  timeW : Nat
  /-- `OTHER_BITS`: what every write puts on the port pins that are neither SDA nor SCL, `PORT_W` bits. -/
  otherBits : Nat
  /-- `NACK_LAST`: the master sends NACK after the last byte of a multi-byte read. -/
  nackLast : Bool
  /-- `T_GAP`: minimum number of `clk` cycles between two I/O primitives (OPEN; log entry 2). -/
  tGap : Nat
  /-- `PORT_W`: width of the I/O port mask. -/
  portW : Nat
  /-- `PIN_W`: width of a pin index. -/
  pinW : Nat
  /-- `ADDR_W`: slave address width. -/
  addrW : Nat
  /-- `BYTE_W`: bits per transferred byte. -/
  byteW : Nat
  /-- `DEV_W`: width of the device handle. -/
  devW : Nat
  /-- `CMD_W`: command word width. -/
  cmdW : Nat
  /-- `RSP_W`: response word width. -/
  rspW : Nat
  deriving DecidableEq, Repr

/-- The reference values of 00_scope.md R7. `tGap` has none there: 0 is a DESIGN CHOICE (log entry 2). -/
def Config.reference : Config :=
  { rxcap := 32, tStretch := 1000, tSettle := 2, timeW := 32, otherBits := 0x00, nackLast := false, tGap := 0,
    portW := 8, pinW := 3, addrW := 7, byteW := 8, devW := 8, cmdW := 32, rspW := 32 }

end Sys2Proof
end

