-- ==== Sys2Proof/Machine/State.lean ====
section
/-!
DEFINITION. The state of the block (10_state.md), the outside world's inputs and observations it is run against, the
reasons a step can stop, and the state right after reset (70_reset_and_hazards.md R340). Plain data throughout.
-/

namespace Sys2Proof.Machine

/-- The two lines (00_scope.md R13). A drive bit or a level is a `Bool`: `true` is 1, high. -/
inductive Line where
  | sda
  | scl
  deriving DecidableEq, Repr

/-- The status codes (60_exceptions.md R300). Codes 8..15 are never produced: no constructor stands for them. -/
inductive Status where
  | ok
  | timeout
  | ioerr
  | empty
  | overflow
  | unbound
  | badcfg
  | illegal
  deriving DecidableEq, Repr

/-- The sequencer phase `seq` (10_state.md R40). -/
inductive Seq where
  | ready
  | busy
  | beatWait
  | resp
  deriving DecidableEq, Repr

/-- One request on the I/O port: `io_req_write`, `io_req_dev`, and `io_req_mask` of `PORT_W` bits (20_memory.md R70). -/
structure IoReq where
  write : Bool
  dev : Byte
  mask : Nat
  deriving DecidableEq, Repr

/-- The I/O port's protocol state (20_memory.md R72). -/
inductive IoPort where
  /-- no primitive -/
  | idle
  /-- `n` more `clk` cycles of `T_GAP` before the request is raised (R360; log entry 2) -/
  | gap (n : Nat) (req : IoReq)
  /-- `io_req_valid` = 1, held until `io_req_ready` -/
  | request (req : IoReq)
  /-- transferred, not completed -/
  | outstanding (req : IoReq)
  deriving DecidableEq, Repr

/-- The payload a command that ends with `OK` responds with (30_encoding.md R114). -/
inductive PayloadKind where
  /-- 0: `BEGIN`, `END_TX` -/
  | zero
  /-- [0] the ack: `BEGIN_TX`, `WRITE` -/
  | ack
  /-- [7:0] count, [8] `addr_ack`: `REQUEST_FROM` -/
  | count
  deriving DecidableEq, Repr

/-- One line of a command's pseudocode: what the sequencer still has to do is a list of these (log entry 10). -/
inductive Micro where
  /-- `IoWrite(LineMask(S))` (40_session_line_driver.md R150) -/
  | writeLines
  /-- `SetLine(l, v)` (R146) -/
  | setLine (l : Line) (v : Bool)
  /-- `SetLine(SDA, shreg[7 - bitcnt])`: the first write of `BitWrite` in a `ByteWrite` (41_bit_engine.md R183, R187) -/
  | driveBit
  /-- `t0 <- Now()` (R184) -/
  | markStretch
  /-- the stretch wait: `ReadLine(SCL)` until it is 1 or the deadline has passed (R184) -/
  | pollScl
  /-- `WaitMs(T_SETTLE)` (R149, R184) -/
  | settle
  /-- `b <- ReadLine(SDA)` of `BitRead` (R184) -/
  | sampleBit
  /-- `lvl <- ReadLine(SDA)` of `AckSample`, which returns `NOT lvl` (R185) -/
  | sampleAck
  /-- `shreg <- v`, before the first of eight bits (R187, R188) -/
  | loadByte (v : Byte)
  /-- on to the next of the eight bits written (R187) -/
  | nextBit
  /-- `shreg[7 - bitcnt] <- r`, and on to the next of the eight bits read (R188) -/
  | storeBit
  /-- `S.bus_active <- 1`, `S.last_dir <- dir` (42_frame_layer.md R220, R232) -/
  | started (dir : Bool)
  /-- `S.bus_active <- 0` (R222) -/
  | stopped
  /-- `addr_ack <- ` the ack just returned (R232) -/
  | keepAddrAck
  /-- `FifoPush(r)`, `bytecnt <- bytecnt + 1` (R232, 43_receive_buffer.md R270) -/
  | pushByte
  /-- `ackcnt <- (ackcnt + a) mod 2^16` (R226) -/
  | countAck
  /-- the loop head of `WRITE_BYTES`: `while remaining > 0` then `NextBeat()`, else the response (R226) -/
  | countedBeat
  /-- the loop head of `WRITE_STR`: `NextBeat()` (R228) -/
  | textBeat
  /-- `respond(OK, ...)` (30_encoding.md R115) -/
  | respond (p : PayloadKind)
  deriving DecidableEq, Repr

/-- The block's input signals as sampled at one rising edge of `clk` (20_memory.md R70). -/
structure Edge where
  rst : Bool
  cmdValid : Bool
  cmdData : Word
  rspReady : Bool
  ioReqReady : Bool
  ioRspValid : Bool
  /-- the sampled port levels: bit `p` is pin `p`, and a read uses one of them (20_memory.md R78; log entry 28) -/
  ioRspRaw : Nat
  ioRspErr : Bool
  /-- `now_ms`, read modulo 2^`TIME_W` -/
  nowMs : Nat
  deriving DecidableEq, Repr

/-- One event of the line trace (00_scope.md R14), with the device handle and the select that went with it on the
I/O port (log entry 19). -/
inductive Event where
  /-- `W mask`, or `W mask!` where `err` -/
  | wrote (dev : Byte) (mask : Nat) (err : Bool)
  /-- `R l->level`, or `R l->err` where there is no level -/
  | sampled (dev : Byte) (sel : Nat) (l : Line) (level : Option Bool)
  deriving DecidableEq, Repr

/-- The whole state. `cfg` is fixed at build time; `inputs`, `trace` and `responses` are the outside world's. -/
structure State where
  /-- build parameters (00_scope.md R7); no step changes them -/
  cfg : Config
  /-- 1 once a valid `BEGIN` has been executed (10_state.md R32, R33) -/
  bound : Bool
  /-- device handle passed on every I/O primitive (R32) -/
  dev : Byte
  /-- port bit bound to SDA (R32) -/
  sdaPin : Pin
  /-- port bit bound to SCL (R32) -/
  sclPin : Pin
  /-- stored drive bit of SDA (R32, R35) -/
  sdaDrv : Bool
  /-- stored drive bit of SCL (R32, R35) -/
  sclDrv : Bool
  /-- 1 between a start condition and the next stop condition (R32, R36) -/
  busActive : Bool
  /-- direction bit of the last address byte sent (R32, R36) -/
  lastDir : Bool
  /-- the contents of the receive buffer, oldest first; `rxcount` is its length (R32, R34; log entry 7) -/
  rxbuf : List Byte
  /-- sequencer phase (R40) -/
  seq : Seq
  /-- `rsp_data` (20_memory.md R70, R71) -/
  rspData : Word
  /-- the I/O request port and the outstanding primitive (R72) -/
  io : IoPort
  /-- the byte being shifted out or in (R41) -/
  shreg : Byte
  /-- bits done in the current byte, 0..8 (R41) -/
  bitcnt : BitVec 4
  /-- bytes done in the current multi-byte command, 0..255 (R41) -/
  bytecnt : BitVec 8
  /-- ACKs counted so far by `WRITE_BYTES` or `WRITE_STR` (R41) -/
  ackcnt : BitVec 16
  /-- data beats still expected by `WRITE_BYTES` (R41) -/
  remaining : BitVec 8
  /-- the `Now()` value that starts the stretch deadline (R41), below 2^`TIME_W` -/
  t0 : Nat
  /-- the `Now()` value when a `WaitMs` began (R41), below 2^`TIME_W` -/
  t1 : Nat
  /-- a burst has failed and its remaining beats are being discarded (R41) -/
  draining : Bool
  /-- the status recorded for a failed burst (R41) -/
  err : Status
  /-- the address-byte ACK kept for the response (R41) -/
  addrAck : Bool
  /-- the command in progress (R113, R300; log entry 10) -/
  cmd : Option Instr
  /-- what the sequencer still has to do in the command in progress (R82(b); log entry 10) -/
  todo : List Micro
  /-- the value a line sequence is about to return: `lvl`, `b`, `a` of R184, R185, R187; false outside `BUSY`, since
  the block keeps no copy of a sampled level (R42; log entry 10) -/
  retval : Bool
  /-- the input signals at the coming rising edges, oldest first (R15; log entry 5) -/
  inputs : List Edge
  /-- the line trace so far, oldest first (R14; log entry 6) -/
  trace : List Event
  /-- the responses the caller has taken, oldest first (R362; log entry 6) -/
  responses : List Word
  deriving DecidableEq, Repr

/-- The reasons the machine stops with a fault. -/
inductive Fault where
  /-- `FifoPush` with `rxcount` = `RXCAP` (43_receive_buffer.md R270, 93_implementation_defined.md U3). Raised by the
  `pushByte` line of `REQUEST_FROM`, in states no run reaches. SAFE: the model stops where the spec says a model should. -/
  | fifoOverflow
  deriving DecidableEq, Repr

/-- The reasons the machine refuses. -/
inductive Refusal where
  /-- an instruction whose meaning is not written. Raised by no arm of `exec` in this model. SAFE. -/
  | notModelled (mnemonic : String)
  /-- the parameters are outside the ranges of 00_scope.md R8: "not a configuration of this block. A model refuses
  it.", or a width is one the encoding cannot serve (log entry 3). Raised by `step`. SAFE. -/
  | illegalConfig
  deriving DecidableEq, Repr

/-- The block right after reset (70_reset_and_hazards.md R340, 10_state.md R32), in the reference configuration
(00_scope.md R7), with no input yet and nothing observed. The hidden fields and `rsp_data`, which the spec leaves
unspecified, are a DESIGN CHOICE (log entries 8, 9). -/
def State.reset : State where
  cfg := Config.reference
  bound := false
  dev := 0x00#8
  sdaPin := 0#3
  sclPin := 0#3
  sdaDrv := true
  sclDrv := true
  busActive := false
  lastDir := false
  rxbuf := []
  seq := .ready
  rspData := 0#32
  io := .idle
  shreg := 0#8
  bitcnt := 0#4
  bytecnt := 0#8
  ackcnt := 0#16
  remaining := 0#8
  t0 := 0
  t1 := 0
  draining := false
  err := .ok
  addrAck := false
  cmd := none
  todo := []
  retval := false
  inputs := []
  trace := []
  responses := []

end Sys2Proof.Machine
end

