-- ==== Sys2Proof/Machine/Operands.lean ====
section
/-!
DEFINITION. The operand forms: the address byte, pins as port bits, the line mask, and the millisecond arithmetic
(30_encoding.md R104, R105; 40_session_line_driver.md R140, R143, R147, R148; 00_scope.md R8).
-/

namespace Sys2Proof

/-- The parameter constraints of 00_scope.md R8; the lower bounds of the times hold by type. -/
def Config.inRange (c : Config) : Bool :=
  decide (1 ≤ c.rxcap) && decide (c.rxcap ≤ 255) && decide (c.tStretch < 2 ^ c.timeW - 1) &&
    decide (c.tSettle < 2 ^ c.timeW) && decide (c.otherBits < 2 ^ c.portW)

/-- The widths that the rules serve (log entry 3). Words are of 32 bits (30_encoding.md R100, R113), the address "is exactly
7 bits" (R105), and a byte is eight bits (41_bit_engine.md R187, R188). A `dev` or pin operand is zero-extended into its
field (30_encoding.md R104), which is as wide as the operand or wider. `PORT_W` and `TIME_W` are free. -/
def Config.encodable (c : Config) : Bool :=
  decide (3 ≤ c.pinW ∧ 8 ≤ c.devW ∧ c.addrW = 7 ∧ c.byteW = 8 ∧ c.cmdW = 32 ∧ c.rspW = 32)

/-- A configuration of this block (00_scope.md R7, R8). -/
def Config.legal (c : Config) : Bool := c.inRange && c.encodable

namespace Machine

/-- The address byte `{addr[6:0], dir}` (30_encoding.md R105). -/
def addressByte (addr : SlaveAddr) (dir : Bool) : Byte := addr ++ BitVec.ofBool dir

/-- `zext_8(b)` of a single bit (00_scope.md R9). -/
def bitByte (b : Bool) : Byte := (BitVec.ofBool b).zeroExtend 8

/-- `b << pin` on a port of `w` bits (00_scope.md R10). -/
def portBit (w : Nat) (p : Pin) (b : Bool) : BitVec w := (BitVec.ofBool b).zeroExtend w <<< p.toNat

/-- `1 << pin`: the one-hot select of a port bit, `w` = `PORT_W` bits (40_session_line_driver.md R147). -/
def pinSelect (w : Nat) (p : Pin) : Nat := (portBit w p true).toNat

/-- The line mask of two drive bits on two pins, `w` = `PORT_W` bits (40_session_line_driver.md R143). -/
def maskOf (w other : Nat) (sdaPin sclPin : Pin) (sda scl : Bool) : Nat :=
  ((BitVec.ofNat w other &&& ~~~(portBit w sdaPin true ||| portBit w sclPin true)) ||| portBit w sdaPin sda |||
    portBit w sclPin scl).toNat

/-- `pin(l)` (R140). -/
def State.pin (s : State) : Line → Pin
  | .sda => s.sdaPin
  | .scl => s.sclPin

/-- `drv(l)` (R140). -/
def State.drv (s : State) : Line → Bool
  | .sda => s.sdaDrv
  | .scl => s.sclDrv

/-- `LineMask(S)` (R143). -/
def lineMask (s : State) : Nat := maskOf s.cfg.portW s.cfg.otherBits s.sdaPin s.sclPin s.sdaDrv s.sclDrv

/-- `rxcount`: the number of bytes in the receive buffer (10_state.md R32, R34). -/
def State.rxcount (s : State) : BitVec 8 := BitVec.ofNat 8 s.rxbuf.length

/-- `shreg[7 - bitcnt]`: most significant bit first (41_bit_engine.md R187, 20_memory.md R76). -/
def currentBit (s : State) : Bool := s.shreg.getLsbD (7 - s.bitcnt.toNat)

/-- `v[i] <- b`. -/
def setBit (v : Byte) (i : Nat) (b : Bool) : Byte := (v &&& ~~~(1#8 <<< i)) ||| (bitByte b <<< i)

/-- The value of the `TIME_W`-bit input `now_ms` (R148). -/
def nowOf (c : Config) (nowMs : Nat) : Nat := nowMs % 2 ^ c.timeW

/-- `(later - earlier) mod 2^TIME_W` (R148). -/
def elapsed (c : Config) (later earlier : Nat) : Nat :=
  (later % 2 ^ c.timeW + (2 ^ c.timeW - earlier % 2 ^ c.timeW)) % 2 ^ c.timeW

end Machine

end Sys2Proof
end

