-- ==== Sys2Proof/Machine/Flags.lean ====
section
/-!
DEFINITION. The results that act as flags: status codes, the response word and its payloads, the status view
(10_state.md R37, R38; 30_encoding.md R113, R114; 60_exceptions.md R300; 44_control.md R290).
-/

namespace Sys2Proof.Machine

/-- The 4-bit status codes (60_exceptions.md R300). -/
def Status.code : Status → BitVec 4
  | .ok => 0#4
  | .timeout => 1#4
  | .ioerr => 2#4
  | .empty => 3#4
  | .overflow => 4#4
  | .unbound => 5#4
  | .badcfg => 6#4
  | .illegal => 7#4

/-- The response word `{OP, status[3:0], payload[23:0]}` (30_encoding.md R113, R115). -/
def responseWord (op : BitVec 4) (st : Status) (p : Payload) : Word := op ++ st.code ++ p

/-- Payload [0] = ack (R114: `BEGIN_TX`, `WRITE`). -/
def ackPayload (a : Bool) : Payload := (BitVec.ofBool a).zeroExtend 24

/-- Payload [7:0] = a byte or a count (R114: `AVAILABLE`, `READ`). -/
def bytePayload (b : Byte) : Payload := b.zeroExtend 24

/-- Payload [15:0] = `ackCount` (R114: `WRITE_BYTES`, `WRITE_STR`). -/
def ackCountPayload (n : BitVec 16) : Payload := n.zeroExtend 24

/-- Payload [7:0] = count, [8] = `addr_ack` (R114: `REQUEST_FROM`). -/
def countPayload (addrAck : Bool) (n : BitVec 8) : Payload := 0#15 ++ BitVec.ofBool addrAck ++ n

/-- The status view (10_state.md R38, 44_control.md R290), from bit 23 down to bit 0. -/
def statusPayload (s : State) : Payload :=
  0#5 ++ BitVec.ofBool s.lastDir ++ BitVec.ofBool s.sclDrv ++ BitVec.ofBool s.sdaDrv ++ BitVec.ofBool s.busActive ++
    BitVec.ofBool s.bound ++ s.sclPin ++ s.sdaPin ++ s.rxcount

/-- The payload of a command that ends with `OK` (30_encoding.md R114). -/
def okPayload (s : State) : PayloadKind → Payload
  | .zero => 0#24
  | .ack => ackPayload s.retval
  | .count => countPayload s.addrAck s.bytecnt

/-- The payload recorded by `IOERR` (60_exceptions.md R300): the count and `addr_ack` for `REQUEST_FROM`, `ackCount`
for bursts, 0 otherwise. -/
def ioerrPayload (s : State) : Instr → Payload
  | .requestFrom _ _ => countPayload s.addrAck s.bytecnt
  | .writeBytes _ | .writeStr => ackCountPayload s.ackcnt
  | .beginSession _ _ _ | .beginTx _ _ | .endTx | .write _ | .available | .read | .status => 0#24

/-- `OP` of the command in progress, echoed by its response (30_encoding.md R113). -/
def cmdOp (s : State) : BitVec 4 :=
  match s.cmd with
  | some i => i.opcode
  | none => 0#4

end Sys2Proof.Machine
end

