-- ==== Sys2Proof/Machine/Ops.lean ====
section
/-!
DEFINITION. The named operations over the state: ending a command (`respond`, `fail`, the taking of a response),
reset, the receive FIFO, and issuing I/O primitives.
-/

namespace Sys2Proof.Machine

/-- The outcome type of this machine's operations. -/
abbrev Result := Host.Outcome State Fault Refusal

/-- Go on with `k` after a next state. -/
def Result.andThen (r : Result) (k : State → Result) : Result :=
  match r with
  | .next s => k s
  | .fault f => .fault f
  | .refused f => .refused f

/-! ### One field or one register pair at a time -/

/-- The sequencer's place in the program. -/
def setTodo (ops : List Micro) (s : State) : State := { s with todo := ops }

/-- The I/O port. -/
def setIo (io : IoPort) (s : State) : State := { s with io := io }

/-- The phase (10_state.md R40). -/
def setSeq (q : Seq) (s : State) : State := { s with seq := q }

/-- The edges still to come. -/
def setInputs (es : List Edge) (s : State) : State := { s with inputs := es }

/-- `t0 <- Now()` (41_bit_engine.md R184). -/
def markT0 (now : Nat) (s : State) : State := { s with t0 := nowOf s.cfg now }

/-- `t1 <- Now()` (40_session_line_driver.md R149). -/
def markT1 (now : Nat) (s : State) : State := { s with t1 := nowOf s.cfg now }

/-- `shreg <- v`, no bit done (41_bit_engine.md R187, R188). -/
def loadShift (v : Byte) (s : State) : State := { s with shreg := v, bitcnt := 0#4 }

/-- One bit written (R187). -/
def countBit (s : State) : State := { s with bitcnt := s.bitcnt + 1#4 }

/-- `shreg[7 - bitcnt] <- r`, one bit read (R188). -/
def shiftIn (s : State) : State :=
  { s with shreg := setBit s.shreg (7 - s.bitcnt.toNat) s.retval, bitcnt := s.bitcnt + 1#4 }

/-- What a line sequence is about to return. -/
def setRetval (b : Bool) (s : State) : State := { s with retval := b }

/-- `S.bus_active <- 1`, `S.last_dir <- dir` (42_frame_layer.md R220, R232). -/
def markStarted (dir : Bool) (s : State) : State := { s with busActive := true, lastDir := dir }

/-- `S.bus_active <- 0` (R222). -/
def markStopped (s : State) : State := { s with busActive := false }

/-- `addr_ack <- ` the ack just returned (R232). -/
def latchAddrAck (s : State) : State := { s with addrAck := s.retval }

/-- `ackcnt <- (ackcnt + a) mod 2^16` (R226). -/
def addAck (s : State) : State := { s with ackcnt := s.ackcnt + (BitVec.ofBool s.retval).zeroExtend 16 }

/-- `bytecnt <- bytecnt + 1` (R232). -/
def countByte (s : State) : State := { s with bytecnt := s.bytecnt + 1#8 }

/-- `remaining <- remaining - 1` (R226). -/
def countBeat (s : State) : State := { s with remaining := s.remaining - 1#8 }

/-- Wait for the next data beat: `S.seq` = `BEAT_WAIT` (30_encoding.md R112). No local value outlives the byte before
(10_state.md R42). -/
def awaitNextBeat (ops : List Micro) (s : State) : State := { s with seq := .beatWait, todo := ops, retval := false }

/-- A burst has failed: `err <- IOERR`, and its beats are drained (30_encoding.md R112, 42_frame_layer.md R226). -/
def markDraining (s : State) : State := { s with err := .ioerr, draining := true }

/-! ### Ending a command, reset, accepting a word -/

/-- End the command whose `OP` is `op` with a response: `rsp_data <- {OP, status, payload}`, `S.seq <- RESP`
(30_encoding.md R115, 20_memory.md R82(d)). The command, its place and its local value end with it (10_state.md R42). -/
def respondAs (op : BitVec 4) (st : Status) (p : Payload) (s : State) : State :=
  { s with rspData := responseWord op st p, seq := .resp, io := .idle, cmd := none, todo := [], retval := false }

/-- `respond(status, payload)` of the command in progress (R115). -/
def respond (st : Status) (p : Payload) (s : State) : State := respondAs (cmdOp s) st p s

/-- `fail <Status>(payload)`: the block's exception entry. It ends the command where it stands and rolls nothing back
(60_exceptions.md R303, R304). Inside a burst that still expects beats, `failIo` drains them first. -/
def fail (st : Status) (p : Payload) (s : State) : State := respond st p s

/-- The return from a command, failed or not: the response moves to the caller and the block is `READY`
(20_memory.md R71, 60_exceptions.md R303). -/
def takeResponse (s : State) : State := { s with seq := .ready, responses := s.responses ++ [s.rspData] }

/-- Reset at a rising edge with `rst` = 1 (70_reset_and_hazards.md R340): every field at its reset value; no primitive
is emitted (R341). The parameters are the build's, and the inputs and observations are the outside world's. -/
def applyReset (s : State) : State :=
  { State.reset with cfg := s.cfg, inputs := s.inputs, trace := s.trace, responses := s.responses }

/-- A word has been accepted as the command `i` in phase `READY` (30_encoding.md R108). -/
def accept (i : Instr) (s : State) : State := { s with cmd := some i, todo := [], io := .idle }

/-! ### The receive buffer -/

/-- The contents of the receive buffer (10_state.md R34). -/
def setRxbuf (bs : List Byte) (s : State) : State := { s with rxbuf := bs }

/-- `FifoPush(b)`: append at the tail; a full buffer is a fault (43_receive_buffer.md R270). -/
def fifoPush (b : Byte) (s : State) : Result :=
  if s.rxbuf.length < s.cfg.rxcap then .next (setRxbuf (s.rxbuf ++ [b]) s) else .fault .fifoOverflow

/-- `FifoPop() -> b`: remove the oldest byte, if there is one (43_receive_buffer.md R271). -/
def fifoPop (s : State) : Option (Byte × State) :=
  match s.rxbuf with
  | [] => none
  | b :: rest => some (b, setRxbuf rest s)

/-- The free space `RXCAP - S.rxcount`, a natural number (42_frame_layer.md R236, 00_scope.md R10). -/
def freeSpace (s : State) : Nat := s.cfg.rxcap - s.rxbuf.length

/-! ### I/O primitives -/

/-- Issue one primitive: the request is raised, after the `T_GAP` cycles of the configuration
(20_memory.md R72, 70_reset_and_hazards.md R360). -/
def issue (write : Bool) (mask : Nat) (s : State) : State :=
  setIo (if s.cfg.tGap = 0 then .request ⟨write, s.dev, mask⟩ else .gap s.cfg.tGap ⟨write, s.dev, mask⟩) s

/-- `IoWrite(LineMask(S))`, up to the request (40_session_line_driver.md R143, R144). -/
def issueLines (s : State) : State := issue true (lineMask s) s

/-- Store a drive bit (R146). -/
def storeDrv (l : Line) (v : Bool) (s : State) : State :=
  match l with
  | .sda => { s with sdaDrv := v }
  | .scl => { s with sclDrv := v }

/-- `SetLine(l, v)`, up to the request: the stored bit is updated before the write (40_session_line_driver.md R146). -/
def setLine (l : Line) (v : Bool) (s : State) : State := issueLines (storeDrv l v s)

/-- `ReadLine(l)`, up to the request: the one-hot select of the line's port bit (40_session_line_driver.md R147). -/
def issueRead (l : Line) (s : State) : State := issue false (pinSelect s.cfg.portW (s.pin l)) s

/-- One event more in the line trace (00_scope.md R14). -/
def emit (ev : Event) (s : State) : State := { s with trace := s.trace ++ [ev] }

end Sys2Proof.Machine
end

