-- ==== Sys2Proof/Machine/Control.lean ====
section
/-!
DEFINITION. The status command `STATUS` (44_control.md R290).
-/

namespace Sys2Proof.Machine

/-- `STATUS()` (R290). -/
def execStatus (s : State) : Result := .next (respond .ok (statusPayload s) (accept .status s))

end Sys2Proof.Machine
end

