-- ==== Sys2Proof/Machine/Engine.lean ====
section
/-!
DEFINITION. The bit-level protocol engine (41_bit_engine.md): the line sequences as lists of micro-operations, and the
sequencer that runs such a list against the block's input signals, one rising edge of `clk` after another.
-/

namespace Sys2Proof.Machine

/-! ### The sequences -/

/-- `Start()` (41_bit_engine.md R181). -/
def startOps : List Micro :=
  [.setLine .sda true, .setLine .scl true, .setLine .sda false, .setLine .scl false]

/-- `Stop()` (R182). -/
def stopOps : List Micro :=
  [.setLine .sda false, .setLine .scl true, .setLine .sda true]

/-- `BitWrite(b)` (R183). -/
def bitWriteOps (b : Bool) : List Micro :=
  [.setLine .sda b, .setLine .scl true, .setLine .scl false]

/-- `BitWrite(shreg[7 - bitcnt])`, and on to the next bit (R183, R187). -/
def shiftOutOps : List Micro :=
  [.driveBit, .setLine .scl true, .setLine .scl false, .nextBit]

/-- `BitRead()` (R184). -/
def bitReadOps : List Micro :=
  [.setLine .sda true, .setLine .scl true, .markStretch, .pollScl, .settle, .sampleBit, .setLine .scl false]

/-- `AckSample()` (R185). -/
def ackSampleOps : List Micro :=
  [.setLine .sda true, .setLine .scl true, .sampleAck, .setLine .scl false, .setLine .sda false]

/-- `MasterAck(last)` (R186). -/
def masterAckOps (c : Config) (last : Bool) : List Micro := bitWriteOps (c.nackLast && last)

/-- The sequence `ops`, n times. -/
def repeatOps : Nat → List Micro → List Micro
  | 0, _ => []
  | n + 1, ops => ops ++ repeatOps n ops

/-- `ByteWrite(v)` (R187). -/
def byteWriteOps (v : Byte) : List Micro := .loadByte v :: (repeatOps 8 shiftOutOps ++ ackSampleOps)

/-- `ByteRead()` (R188). -/
def byteReadOps : List Micro := .loadByte 0#8 :: repeatOps 8 (bitReadOps ++ [.storeBit])

/-! ### The sequencer -/

/-- The response of a burst whose beats are done (42_frame_layer.md R226, R228). -/
def respondBurst (s : State) : State :=
  match s.err with
  | .unbound => respond .unbound 0#24 s
  | e => respond e (ackCountPayload s.ackcnt) s

/-- Run the lines at the head of `ops` that take no primitive and no wait, up to the first that does, whose request
is then issued. `now` is the value of `Now()` here (40_session_line_driver.md R148; log entry 11). -/
def advance (now : Nat) : List Micro → State → Result
  | [], s => .next (setTodo [] s)
  | .writeLines :: k, s => .next (issueLines (setTodo (.writeLines :: k) s))
  | .setLine l v :: k, s => .next (setLine l v (setTodo (.setLine l v :: k) s))
  | .driveBit :: k, s => .next (setLine .sda (currentBit s) (setTodo (.driveBit :: k) s))
  | .markStretch :: k, s => advance now k (markT0 now s)
  | .pollScl :: k, s => .next (issueRead .scl (setTodo (.pollScl :: k) s))
  | .settle :: k, s =>
    if s.cfg.tSettle = 0 then advance now k (markT1 now s) else .next (markT1 now (setTodo (.settle :: k) s))
  | .sampleBit :: k, s => .next (issueRead .sda (setTodo (.sampleBit :: k) s))
  | .sampleAck :: k, s => .next (issueRead .sda (setTodo (.sampleAck :: k) s))
  | .loadByte v :: k, s => advance now k (loadShift v s)
  | .nextBit :: k, s => advance now k (countBit s)
  | .storeBit :: k, s => advance now k (shiftIn s)
  | .started dir :: k, s => advance now k (markStarted dir s)
  | .stopped :: k, s => advance now k (markStopped s)
  | .keepAddrAck :: k, s => advance now k (latchAddrAck s)
  | .pushByte :: k, s =>
    match fifoPush s.shreg s with
    | .next s' => advance now k (countByte s')
    | .fault f => .fault f
    | .refused f => .refused f
  | .countAck :: k, s => advance now k (addAck s)
  | .countedBeat :: k, s =>
    if s.remaining = 0#8 then .next (respondBurst s) else .next (awaitNextBeat (.countedBeat :: k) s)
  | .textBeat :: k, s => .next (awaitNextBeat (.textBeat :: k) s)
  | .respond p :: _, s => .next (respond .ok (okPayload s p) s)

/-- `fail IOERR(...)` of a primitive: the command ends (60_exceptions.md R300, R304), but a burst drains the beats
it still expects before it responds (30_encoding.md R112, R305). -/
def failIo (now : Nat) (s : State) : Result :=
  match s.cmd with
  | some (.writeBytes _) => advance now [.countedBeat] (markDraining s)
  | some .writeStr => advance now [.textBeat] (markDraining s)
  | some i => .next (fail .ioerr (ioerrPayload s i) s)
  | none => .next (fail .ioerr 0#24 s)

/-- The line a read micro-operation reads (R184, R185). -/
def Micro.readsLine : Micro → Line
  | .pollScl => .scl
  | _ => .sda

/-- The event of the completed primitive that the head `op` of `todo` asked for (00_scope.md R14; R144, R145, R147). -/
def completionEvent (op : Micro) (req : IoReq) (raw : Nat) (err : Bool) (s : State) : Event :=
  if req.write then .wrote req.dev req.mask err
  else .sampled req.dev req.mask op.readsLine (if err then none else some (raw.testBit (s.pin op.readsLine).toNat))

/-- A poll of SCL has read `level`: high ends the wait, low past the deadline ends the command with `TIMEOUT`, low
within it polls again (41_bit_engine.md R184; 42_frame_layer.md R232, R234). -/
def afterPoll (now : Nat) (level : Bool) (k : List Micro) (s : State) : Result :=
  if level then advance now k s
  else if s.cfg.tStretch < elapsed s.cfg (nowOf s.cfg now) s.t0 then
    .next (fail .timeout (countPayload s.addrAck s.bytecnt) s)
  else advance now (.pollScl :: k) s

/-- What follows the successful completion of the primitive of `op` (R144, R147, R184, R185). -/
def afterPrimitive (now : Nat) (op : Micro) (raw : Nat) (k : List Micro) (s : State) : Result :=
  match op with
  | .pollScl => afterPoll now (raw.testBit s.sclPin.toNat) k s
  | .sampleBit => advance now k (setRetval (raw.testBit s.sdaPin.toNat) s)
  | .sampleAck => advance now k (setRetval (!raw.testBit s.sdaPin.toNat) s)
  | _ => advance now k s

/-- The completion of the outstanding primitive at the edge `e` (20_memory.md R72). -/
def completePrimitive (e : Edge) (req : IoReq) (s : State) : Result :=
  match s.todo with
  | [] => .next (setIo .idle s)
  | op :: k =>
    let s1 := emit (completionEvent op req e.ioRspRaw e.ioRspErr s) (setIo .idle s)
    if e.ioRspErr then failIo e.nowMs s1 else afterPrimitive e.nowMs op e.ioRspRaw k s1

/-- `wait until ((Now() - t1) mod 2^TIME_W) >= d` of the settle wait, at one edge; any other state without a
primitive has nothing to wait for and stays (40_session_line_driver.md R149; log entry 17). -/
def settleEdge (e : Edge) (s : State) : Result :=
  match s.todo with
  | .settle :: k => if s.cfg.tSettle ≤ elapsed s.cfg (nowOf s.cfg e.nowMs) s.t1 then advance e.nowMs k s else .next s
  | _ => .next s

/-- One rising edge in phase `BUSY` (20_memory.md R72). -/
def busyEdge (e : Edge) (s : State) : Result :=
  match s.io with
  | .idle => settleEdge e s
  | .gap n req => .next (setIo (if n ≤ 1 then .request req else .gap (n - 1) req) s)
  | .request req => .next (if e.ioReqReady then setIo (.outstanding req) s else s)
  | .outstanding req => if e.ioRspValid then completePrimitive e req s else .next s

/-- The data beat `d` has moved: it is sent, discarded, or ends the text (30_encoding.md R112; 42_frame_layer.md
R226, R228). -/
def takeBeat (now : Nat) (d : Byte) (s : State) : Result :=
  match s.todo with
  | .countedBeat :: k =>
    let s1 := countBeat (setSeq .busy s)
    if s.err = .ok then advance now (byteWriteOps d ++ .countAck :: .countedBeat :: k) s1
    else advance now (.countedBeat :: k) s1
  | .textBeat :: k =>
    let s1 := setSeq .busy s
    if d = 0x00#8 then .next (respondBurst s1)
    else if s.err = .ok then advance now (byteWriteOps d ++ .countAck :: .textBeat :: k) s1
    else advance now (.textBeat :: k) s1
  | _ => .next s

/-- One rising edge in phase `BEAT_WAIT`: no word is decoded as a command (30_encoding.md R110, R112). -/
def beatEdge (e : Edge) (s : State) : Result :=
  if e.cmdValid then takeBeat e.nowMs (beatData e.cmdData) s else .next s

/-- One rising edge while a command is in progress: reset first (70_reset_and_hazards.md R340), else the phase's own. -/
def commandEdge (e : Edge) (s : State) : Result :=
  if e.rst then .next (applyReset s)
  else
    match s.seq with
    | .busy => busyEdge e s
    | .beatWait => beatEdge e s
    | .ready | .resp => .next s

/-- The command in progress, run over the edges to come until it ends or they do: then it waits, in `BUSY` or
`BEAT_WAIT`, and a later step goes on from there (60_exceptions.md R320; log entries 5, 13). -/
def run : List Edge → State → Result
  | [], s => .next (setInputs [] s)
  | e :: es, s =>
    match s.seq with
    | .busy | .beatWait =>
      match commandEdge e s with
      | .next s' => run es s'
      | .fault f => .fault f
      | .refused f => .refused f
    | .ready | .resp => .next (setInputs (e :: es) s)

/-- Start a command's program and run it. No program begins with a line that reads the time, so the 0 given for
`Now()` is never used. -/
def runProgram (ops : List Micro) (s : State) : Result :=
  (advance 0 ops (setSeq .busy s)).andThen (run s.inputs)

end Sys2Proof.Machine
end

