-- ==== Sys2Proof/Machine/FrameLayer.lean ====
section
/-!
DEFINITION. The byte/frame layer (42_frame_layer.md): `BEGIN_TX`, `END_TX`, `WRITE`, `WRITE_BYTES`, `WRITE_STR`,
`REQUEST_FROM`.
-/

namespace Sys2Proof.Machine

/-- `if S.bound == 0: fail UNBOUND(0)`, the first line of the commands that need a session (30_encoding.md R118). -/
def requireBound (s : State) (k : State → Result) : Result :=
  if s.bound then k s else .next (fail .unbound 0#24 s)

/-- `BEGIN_TX(addr, dir)` (R220). -/
def execBeginTx (addr : SlaveAddr) (dir : Bool) (s : State) : Result :=
  requireBound (accept (.beginTx addr dir) s)
    (runProgram (startOps ++ [.started dir] ++ byteWriteOps (addressByte addr dir) ++ [.respond .ack]))

/-- `END_TX()` (R222). -/
def execEndTx (s : State) : Result :=
  requireBound (accept .endTx s) (runProgram (stopOps ++ [.stopped, .respond .zero]))

/-- `WRITE(v)` (R224). -/
def execWrite (v : Byte) (s : State) : Result :=
  requireBound (accept (.write v) s) (runProgram (byteWriteOps v ++ [.respond .ack]))

/-- The registers of a burst at its start: `err <- (S.bound == 0) ? UNBOUND : OK`, `ackcnt <- 0` (R226, R228);
`draining` with the failure (10_state.md R41; log entry 16). -/
def openBurst (s : State) : State :=
  { s with err := if s.bound then .ok else .unbound, draining := !s.bound, ackcnt := 0#16 }

/-- `remaining <- n` (R226). -/
def setRemaining (n : Byte) (s : State) : State := { s with remaining := n }

/-- `WRITE_BYTES(n)` (R226). -/
def execWriteBytes (n : Byte) (s : State) : Result :=
  runProgram [.countedBeat] (setRemaining n (openBurst (accept (.writeBytes n) s)))

/-- `WRITE_STR()` (R228). -/
def execWriteStr (s : State) : Result := runProgram [.textBeat] (openBurst (accept .writeStr s))

/-- The byte loop of `REQUEST_FROM` with `n` bytes to go: `ByteRead`, `FifoPush`, `MasterAck`, the last one with
`last` (R232, R233, R238). DEDUCED, unsafe: the byte is pushed and counted once the eighth `BitRead` has returned, after its
SCL-low write (41_bit_engine.md R184, R188), and not at the sample that R233's second sentence names (log entry 29). -/
def readBytesOps (c : Config) : Nat → List Micro
  | 0 => []
  | n + 1 => byteReadOps ++ [.pushByte] ++ masterAckOps c (decide (n = 0)) ++ readBytesOps c n

/-- `addr_ack <- 0`, `bytecnt <- 0` (R232). -/
def openRead (s : State) : State := { s with addrAck := false, bytecnt := 0#8 }

/-- `REQUEST_FROM(addr, qty)` (R232, R236). -/
def execRequestFrom (addr : SlaveAddr) (qty : Byte) (s : State) : Result :=
  requireBound (accept (.requestFrom addr qty) s) fun s1 =>
    if freeSpace s1 < qty.toNat then .next (fail .overflow 0#24 s1)
    else
      runProgram
        (startOps ++ [.started true] ++ byteWriteOps (addressByte addr true) ++ [.keepAddrAck] ++
          readBytesOps s1.cfg qty.toNat ++ [.respond .count])
        (openRead s1)

end Sys2Proof.Machine
end

