-- ==== Sys2Proof/Machine/ReceiveBuffer.lean ====
section
/-!
DEFINITION. The receive-buffer commands `AVAILABLE` and `READ` (43_receive_buffer.md).
-/

namespace Sys2Proof.Machine

/-- `AVAILABLE()` (R272). -/
def execAvailable (s : State) : Result := .next (respond .ok (bytePayload s.rxcount) (accept .available s))

/-- `READ()`: `EMPTY` on an empty buffer, else `FifoPop()` removes the oldest byte (R271, R274, R275). -/
def execRead (s : State) : Result :=
  match fifoPop (accept .read s) with
  | none => .next (fail .empty 0#24 (accept .read s))
  | some (b, s1) => .next (respond .ok (bytePayload b) s1)

end Sys2Proof.Machine
end

