-- ==== Sys2Proof/Machine/Session.lean ====
section
/-!
DEFINITION. The session command `BEGIN` (40_session_line_driver.md R150 to R152).
-/

namespace Sys2Proof.Machine

/-- The binding `BEGIN` stores before its one write (R150). -/
def bindSession (dev : Byte) (sda scl : Pin) (s : State) : State :=
  { s with
    dev := dev, sdaPin := sda, sclPin := scl, bound := true, busActive := false, sdaDrv := true, sclDrv := true }

/-- `BEGIN(dev, sda, scl)` (R150, R151). -/
def execBegin (dev : Byte) (sda scl : Pin) (s : State) : Result :=
  let s1 := accept (.beginSession dev sda scl) s
  if sda = scl then .next (fail .badcfg 0#24 s1)
  else runProgram [.writeLines, .respond .zero] (bindSession dev sda scl s1)

end Sys2Proof.Machine
end

