-- ==== Sys2Proof/Machine/Dispatch.lean ====
section
/-! DEFINITION. Each command's meaning, one arm per constructor of Instr. -/

namespace Sys2Proof.Machine

def exec (i : Instr) (s : State) : Host.Outcome State Fault Refusal :=
  match i with
  | .beginSession dev sda scl => Sys2Proof.Machine.execBegin dev sda scl s
  | .beginTx addr dir => Sys2Proof.Machine.execBeginTx addr dir s
  | .endTx => Sys2Proof.Machine.execEndTx s
  | .write v => Sys2Proof.Machine.execWrite v s
  | .writeBytes n => Sys2Proof.Machine.execWriteBytes n s
  | .writeStr => Sys2Proof.Machine.execWriteStr s
  | .requestFrom addr qty => Sys2Proof.Machine.execRequestFrom addr qty s
  | .available => Sys2Proof.Machine.execAvailable s
  | .read => Sys2Proof.Machine.execRead s
  | .status => Sys2Proof.Machine.execStatus s

end Sys2Proof.Machine
end

