-- ==== Sys2Proof/Machine/Accept.lean ====
section
/-!
DEFINITION. What a rising edge does in each phase, the acceptance of a command word among it (30_encoding.md R108;
20_memory.md R71).
-/

namespace Sys2Proof.Machine

/-- A word accepted in phase `READY`: its command is executed, or the word is `ILLEGAL` and changes nothing but the
response (30_encoding.md R108, R117). -/
def acceptWord (w : Word) (s : State) : Result :=
  match decode w with
  | .ok i => exec i s
  | .error _ => .next (respondAs (opField w) .illegal 0#24 s)

/-- The rising edge `e` in phase `READY`: a word moves where `cmd_valid` = 1 (20_memory.md R71). -/
def readyEdge (e : Edge) (s : State) : Result := if e.cmdValid then acceptWord e.cmdData s else .next s

/-- The rising edge `e` in phase `RESP`: the response moves where `rsp_ready` = 1 (20_memory.md R71). -/
def respEdge (e : Edge) (s : State) : Result := .next (if e.rspReady then takeResponse s else s)

/-- The rising edge `e`, the edges `es` still to come, and, where a command is or becomes in progress, as many of
them as it takes (log entry 13). -/
def takeEdge (e : Edge) (es : List Edge) (s : State) : Result :=
  match s.seq with
  | .busy | .beatWait => run (e :: es) s
  | .ready => if e.rst then .next (applyReset (setInputs es s)) else readyEdge e (setInputs es s)
  | .resp => if e.rst then .next (applyReset (setInputs es s)) else respEdge e (setInputs es s)

/-- One step: a configuration outside 00_scope.md R8 is refused; without an edge to come nothing changes
(20_memory.md R70). -/
def stepBlock (s : State) : Result :=
  if s.cfg.legal then
    match s.inputs with
    | [] => .next s
    | e :: es => takeEdge e es s
  else .refused .illegalConfig

/-- The edge at which a caller presents the word `w`, with every other input at 0. -/
def wordEdge (w : Word) : Edge :=
  { rst := false, cmdValid := true, cmdData := w, rspReady := false, ioReqReady := false, ioRspValid := false,
    ioRspRaw := 0, ioRspErr := false, nowMs := 0 }

/-- The word `w` (its low `nbits` bits) presented at the next edge, with the block ready for it. -/
def presentWord (s : State) (nbits w : Nat) : State :=
  { s with seq := .ready, inputs := wordEdge (BitVec.ofNat 32 (w % 2 ^ nbits)) :: s.inputs }

end Sys2Proof.Machine
end

