-- ==== Sys2Proof/Machine/Step.lean ====
section
/-!
DEFINITION. One step of the block: one rising edge of `clk`, and, where a command is or becomes in progress, every
further edge it takes until it ends or the inputs do.
-/

namespace Sys2Proof.Machine

/-- One step (20_memory.md R70, R71, R82). -/
def step (s : State) : Host.Outcome State Fault Refusal := stepBlock s

/-- The command word `w` of `nbits` bits, placed where the step takes its next word: on the command port, at the next
rising edge (20_memory.md R71, 00_scope.md R6; log entry 14). -/
def State.withFetchWord (s : State) (nbits w : Nat) : State := presentWord s nbits w

end Sys2Proof.Machine
end

