-- ==== Sys2Proof/Machine/Ports.lean ====
section
/-!
DEFINITION. The block's output signals as functions of its state (20_memory.md R70, R71, R72).
-/

namespace Sys2Proof.Machine

/-- `cmd_ready` = 1 exactly when `S.seq` is `READY` or `BEAT_WAIT` (20_memory.md R71). -/
def cmdReady (s : State) : Bool := decide (s.seq = .ready ∨ s.seq = .beatWait)

/-- `rsp_valid` = 1 exactly when `S.seq` is `RESP` (R71). -/
def rspValid (s : State) : Bool := decide (s.seq = .resp)

/-- The request the block holds on its I/O port, if `io_req_valid` = 1 (R72): `io_req_write`, `io_req_dev`,
`io_req_mask` are its fields. -/
def ioRequest (s : State) : Option IoReq :=
  match s.io with
  | .request req => some req
  | .idle | .gap _ _ | .outstanding _ => none

/-- `io_req_valid` (R72). -/
def ioReqValid (s : State) : Bool := (ioRequest s).isSome

end Sys2Proof.Machine
end

