-- ==== Sys2Proof/Safety.lean ====
section
/-!
DEFINITION. The terms claims are stated in: what the environment does for the block over a list of edges, the line
trace each sequence leaves, and the invariant of the block.
-/

namespace Sys2Proof.Machine

/-! ### The environment's side

Each function follows the edges `es` and answers with what the block receives and the edges left over, or with nothing
where a reset comes first, the edges end first, or the environment does something else than what is asked. -/

/-- The completion of the outstanding primitive (20_memory.md R72). -/
def awaitCompletion : List Edge → Option (Edge × List Edge)
  | [] => none
  | e :: es => if e.rst then none else if e.ioRspValid then some (e, es) else awaitCompletion es

/-- The transfer of the request on the port, and then its completion, strictly after it (R72). -/
def awaitTransfer : List Edge → Option (Edge × List Edge)
  | [] => none
  | e :: es => if e.rst then none else if e.ioReqReady then awaitCompletion es else awaitTransfer es

/-- One primitive served: `gap` cycles, the transfer, the completion. -/
def serve : Nat → List Edge → Option (Edge × List Edge)
  | 0, es => awaitTransfer es
  | _ + 1, [] => none
  | gap + 1, e :: es => if e.rst then none else serve gap es

/-- `n` primitives served one after another without an error: their completion edges, in order. -/
def serveOk (gap : Nat) : Nat → List Edge → Option (List Edge × List Edge)
  | 0, es => some ([], es)
  | n + 1, es =>
    match serve gap es with
    | some (e, es1) =>
      if e.ioRspErr then none
      else
        match serveOk gap n es1 with
        | some (cs, es2) => some (e :: cs, es2)
        | none => none
    | none => none

/-- The level of port bit `pin` sampled at the completion edge number `i` of `cs` (40_session_line_driver.md R147). -/
def levelAt (cs : List Edge) (i : Nat) (pin : Pin) : Bool :=
  match cs[i]? with
  | some e => e.ioRspRaw.testBit pin.toNat
  | none => false

/-- The ack of a `ByteWrite` whose 29 primitives completed at `cs`: `NOT` the level of SDA at its one read, the
27th (41_bit_engine.md R185, R187). -/
def ackOf (cs : List Edge) (sdaPin : Pin) : Bool := !levelAt cs 26 sdaPin

/-- `n` polls of SCL that read low, none of them past the deadline that started at `t0` (41_bit_engine.md R184). -/
def serveLowPolls (c : Config) (sclPin : Pin) (t0 : Nat) : Nat → List Edge → Option (List Edge)
  | 0, es => some es
  | n + 1, es =>
    match serve c.tGap es with
    | some (e, es1) =>
      if e.ioRspErr || e.ioRspRaw.testBit sclPin.toNat || decide (c.tStretch < elapsed c (nowOf c e.nowMs) t0) then none
      else serveLowPolls c sclPin t0 n es1
    | none => none

/-- The end of a settle wait that began at `t1` and is not over at once (40_session_line_driver.md R149). -/
def awaitSettle (c : Config) (t1 : Nat) : List Edge → Option (List Edge)
  | [] => none
  | e :: es =>
    if e.rst then none
    else if c.tSettle ≤ elapsed c (nowOf c e.nowMs) t1 then some es
    else awaitSettle c t1 es

/-- A whole settle wait: `WaitMs(0)` returns at once (R149). -/
def serveSettle (c : Config) (t1 : Nat) (es : List Edge) : Option (List Edge) :=
  if c.tSettle = 0 then some es else awaitSettle c t1 es

/-- One `BitRead` that succeeds after `n` low polls: the value of SDA it returns (41_bit_engine.md R184). -/
def serveBitRead (c : Config) (sdaPin sclPin : Pin) (n : Nat) (es : List Edge) : Option (Bool × List Edge) :=
  match serveOk c.tGap 2 es with
  | some (cs, es1) =>
    match cs[1]? with
    | some e1 =>
      match serveLowPolls c sclPin (nowOf c e1.nowMs) n es1 with
      | some es2 =>
        match serve c.tGap es2 with
        | some (e2, es3) =>
          if e2.ioRspErr || !e2.ioRspRaw.testBit sclPin.toNat then none
          else
            match serveSettle c (nowOf c e2.nowMs) es3 with
            | some es4 =>
              match serveOk c.tGap 2 es4 with
              | some (ds, es5) => some (levelAt ds 0 sdaPin, es5)
              | none => none
            | none => none
        | none => none
      | none => none
    | none => none
  | none => none

/-- `BitRead`s that succeed one after another, the i-th after `ns[i]` low polls: the values they return. -/
def serveBits (c : Config) (sdaPin sclPin : Pin) : List Nat → List Edge → Option (List Bool × List Edge)
  | [], es => some ([], es)
  | n :: ns, es =>
    match serveBitRead c sdaPin sclPin n es with
    | some (b, es1) =>
      match serveBits c sdaPin sclPin ns es1 with
      | some (bs, es2) => some (b :: bs, es2)
      | none => none
    | none => none

/-- The byte whose bits are `bs`, most significant bit first (41_bit_engine.md R188, 20_memory.md R76). -/
def byteOfBits (bs : List Bool) : Byte := BitVec.ofNat 8 (bs.foldl (fun n b => 2 * n + b.toNat) 0)

/-- The byte loop of `REQUEST_FROM`: for each entry of `nss` eight `BitRead`s with its eight numbers of low polls, and
the three writes of `MasterAck` (42_frame_layer.md R232, R233). -/
def serveBytes (c : Config) (sdaPin sclPin : Pin) : List (List Nat) → List Edge → Option (List (List Bool) × List Edge)
  | [], es => some ([], es)
  | ns :: nss, es =>
    if ns.length ≠ 8 then none
    else
      match serveBits c sdaPin sclPin ns es with
      | some (bs, es1) =>
        match serveOk c.tGap 3 es1 with
        | some (_, es2) =>
          match serveBytes c sdaPin sclPin nss es2 with
          | some (bss, es3) => some (bs :: bss, es3)
          | none => none
        | none => none
      | none => none

/-- The next data beat (30_encoding.md R112). -/
def awaitBeat : List Edge → Option (Byte × List Edge)
  | [] => none
  | e :: es => if e.rst then none else if e.cmdValid then some (beatData e.cmdData, es) else awaitBeat es

/-- `n` data beats, each followed by the 29 primitives of its `ByteWrite`: the bytes and their acks
(42_frame_layer.md R226). -/
def serveBurst (gap : Nat) (sdaPin : Pin) : Nat → List Edge → Option (List (Byte × Bool) × List Edge)
  | 0, es => some ([], es)
  | n + 1, es =>
    match awaitBeat es with
    | some (d, es1) =>
      match serveOk gap 29 es1 with
      | some (cs, es2) =>
        match serveBurst gap sdaPin n es2 with
        | some (ds, es3) => some ((d, ackOf cs sdaPin) :: ds, es3)
        | none => none
      | none => none
    | none => none

/-- `n` data beats with nothing between them: the beats of a burst that is being drained (30_encoding.md R112). -/
def awaitBeats : Nat → List Edge → Option (List Byte × List Edge)
  | 0, es => some ([], es)
  | n + 1, es =>
    match awaitBeat es with
    | some (d, es1) =>
      match awaitBeats n es1 with
      | some (ds, es2) => some (d :: ds, es2)
      | none => none
    | none => none

/-- The number of acknowledged bytes, mod 2^16 (R226). -/
def ackCount (ds : List (Byte × Bool)) : BitVec 16 := BitVec.ofNat 16 (ds.countP (fun d => d.2))

/-- The state with the hidden per-command fields of 10_state.md R41 (and the value a sequence is about to return) put
to one side: two states that agree here agree in everything the spec gives a value between commands. -/
def State.visible (s : State) : State :=
  { s with
    shreg := 0#8, bitcnt := 0#4, bytecnt := 0#8, ackcnt := 0#16, remaining := 0#8, t0 := 0, t1 := 0, draining := false,
    err := .ok, addrAck := false, retval := false }

/-- No reset among the edges. -/
def noReset (es : List Edge) : Prop := ∀ e ∈ es, e.rst = false

/-! ### Line traces -/

/-- The events of writes that put the drive bits (SDA, SCL) on the lines in turn (00_scope.md R14,
40_session_line_driver.md R143, R144). -/
def writeEvents (s : State) (levels : List (Bool × Bool)) : List Event :=
  levels.map (fun p => .wrote s.dev (maskOf s.cfg.portW s.cfg.otherBits s.sdaPin s.sclPin p.1 p.2) false)

/-- The event `R l->level` (R147). -/
def readEvent (s : State) (l : Line) (level : Bool) : Event := .sampled s.dev (pinSelect s.cfg.portW (s.pin l)) l (some level)

/-- `Start` entered with SCL drive bit `scl0` (41_bit_engine.md R181). -/
def startLevels (scl0 : Bool) : List (Bool × Bool) := [(true, scl0), (true, true), (false, true), (false, false)]

/-- `Stop` entered with SCL drive bit `scl0` (R182). -/
def stopLevels (scl0 : Bool) : List (Bool × Bool) := [(false, scl0), (false, true), (true, true)]

/-- `BitWrite(b)` entered with SCL drive bit `scl0` (R183). -/
def bitWriteLevels (scl0 b : Bool) : List (Bool × Bool) := [(b, scl0), (b, true), (b, false)]

/-- The eight `BitWrite`s of `ByteWrite(v)`, most significant bit first, entered with SCL drive bit `scl0` (R187). -/
def byteLevels (scl0 : Bool) (v : Byte) : List (Bool × Bool) :=
  bitWriteLevels scl0 (v.getLsbD 7) ++
    [6, 5, 4, 3, 2, 1, 0].flatMap (fun i => bitWriteLevels false (v.getLsbD i))

/-- The events of `ByteWrite(v)` whose ACK window reads the level `NOT a` (R185, R187). -/
def byteWriteEvents (s : State) (scl0 : Bool) (v : Byte) (a : Bool) : List Event :=
  writeEvents s (byteLevels scl0 v) ++ writeEvents s [(true, false), (true, true)] ++ [readEvent s .sda (!a)] ++
    writeEvents s [(true, false), (false, false)]

/-- The events of a `BitRead` entered with SCL low that returns `b` after `n` low polls (41_bit_engine.md R184(d)). -/
def bitReadEvents (s : State) (n : Nat) (b : Bool) : List Event :=
  writeEvents s [(true, false), (true, true)] ++ List.replicate n (readEvent s .scl false) ++
    [readEvent s .scl true, readEvent s .sda b] ++ writeEvents s [(true, false)]

/-- The events of `BitRead`s one after another (R188). -/
def bitsEvents (s : State) : List Nat → List Bool → List Event
  | n :: ns, b :: bs => bitReadEvents s n b ++ bitsEvents s ns bs
  | _, _ => []

/-- The events of the byte loop of `REQUEST_FROM` with `total` bytes asked for in all from here: each byte's bits, then
its `MasterAck` (R186, R232). -/
def bytesEvents (s : State) : Nat → List (List Nat) → List (List Bool) → List Event
  | total, ns :: nss, bs :: bss =>
    bitsEvents s ns bs ++ writeEvents s (bitWriteLevels false (s.cfg.nackLast && decide (total = 1))) ++
      bytesEvents s (total - 1) nss bss
  | _, _, _ => []

/-- The events of a burst's bytes, each entered with the SCL drive bit the one before left (R226, R227(c)). -/
def burstEvents (s : State) : Bool → List (Byte × Bool) → List Event
  | _, [] => []
  | scl0, (d, a) :: ds => byteWriteEvents s scl0 d a ++ burstEvents s false ds

/-- The events of the line trace that `t` has beyond those of `s`. -/
def newEvents (s t : State) : List Event := t.trace.drop s.trace.length

/-- The (SDA, SCL) mask bits of the writes among the events, in order. -/
def drivesOf (sdaPin sclPin : Pin) (evs : List Event) : List (Bool × Bool) :=
  evs.filterMap fun ev =>
    match ev with
    | .wrote _ m _ => some (m.testBit sdaPin.toNat, m.testBit sclPin.toNat)
    | .sampled _ _ _ _ => none

/-- The SDA bits of the writes that raise SCL, whose drive bit before is the first argument: what an I2C receiver
clocks in (41_bit_engine.md R193). -/
def risingBits : Bool → List (Bool × Bool) → List Bool
  | _, [] => []
  | scl, (d, c) :: ps => if c && !scl then d :: risingBits c ps else risingBits c ps

/-- How many times SDA falls while SCL stays high: start conditions (00_scope.md, glossary). -/
def startsIn : Bool × Bool → List (Bool × Bool) → Nat
  | _, [] => 0
  | p, q :: qs => (if p.1 && p.2 && !q.1 && q.2 then 1 else 0) + startsIn q qs

/-- How many times SDA rises while SCL stays high: stop conditions (00_scope.md, glossary). -/
def stopsIn : Bool × Bool → List (Bool × Bool) → Nat
  | _, [] => 0
  | p, q :: qs => (if !p.1 && p.2 && q.1 && q.2 then 1 else 0) + stopsIn q qs

/-- The bits of a byte, most significant first. -/
def bitsOfByte (v : Byte) : List Bool := [7, 6, 5, 4, 3, 2, 1, 0].map v.getLsbD

/-! ### The opcode table -/

/-- The rows of spec/opcode_table.json as (mask, match), in the table's order (30_encoding.md R102, R103, R108). -/
def opcodeRows : List (Word × Word) :=
  [(0xFF00FFC0#32, 0x10000000#32), (0xFFFFFE80#32, 0x20000000#32), (0xFFFFFFFF#32, 0x30000000#32),
   (0xFFFFFF00#32, 0x40000000#32), (0xFFFFFF00#32, 0x50000000#32), (0xFFFFFFFF#32, 0x60000000#32),
   (0xFFFF0080#32, 0x70000000#32), (0xFFFFFFFF#32, 0x80000000#32), (0xFFFFFFFF#32, 0x90000000#32),
   (0xFFFFFFFF#32, 0xA0000000#32)]

/-! ### The invariant -/

/-- The last line of a command's program. -/
def Micro.ends : Micro → Instr → Bool
  | .countedBeat, .writeBytes _ => true
  | .textBeat, .writeStr => true
  | .respond _, i => match i with
    | .writeBytes _ | .writeStr => false
    | _ => true
  | _, _ => false

/-- A line that is not the last of a program. -/
def Micro.goesOn : Micro → Bool
  | .countedBeat | .textBeat | .respond _ => false
  | _ => true

/-- What is left of the program of the command `i`: lines that go on, and the one that ends it. -/
def isProgram (i : Instr) (ops : List Micro) : Prop :=
  ∃ front last, ops = front ++ [last] ∧ (∀ op ∈ front, op.goesOn = true) ∧ last.ends i = true

/-- How many bytes the rest of a program still pushes. -/
def pushesIn (ops : List Micro) : Nat := ops.countP (fun op => decide (op = .pushByte))

/-- The request a line of a program holds on the I/O port, if it is a primitive (40_session_line_driver.md R144 to
R147): the mask of the current drive bits, or the one-hot select; the session's device either way. -/
def Micro.request (s : State) : Micro → Option IoReq
  | .writeLines | .setLine _ _ | .driveBit => some ⟨true, s.dev, lineMask s⟩
  | .pollScl => some ⟨false, s.dev, pinSelect s.cfg.portW s.sclPin⟩
  | .sampleBit | .sampleAck => some ⟨false, s.dev, pinSelect s.cfg.portW s.sdaPin⟩
  | _ => none

/-- What the block waits for in phase `BUSY`: the settle delay, or the primitive at the head of its program. -/
def waitsFor (s : State) : Prop :=
  match s.io with
  | .idle => s.todo.head? = some .settle ∧ s.cfg.tSettle ≠ 0
  | .gap n req => n ≠ 0 ∧ s.todo.head?.bind (Micro.request s) = some req
  | .request req | .outstanding req => s.todo.head?.bind (Micro.request s) = some req

/-- The invariant of the block. -/
structure State.Inv (s : State) : Prop where
  /-- the parameters are a configuration of this block (00_scope.md R8) -/
  legal : s.cfg.legal = true
  /-- a bound session has two pins (10_state.md R33) -/
  pins : s.bound = true → s.sdaPin ≠ s.sclPin
  /-- the buffer holds what is in it and what the command in progress still pushes (10_state.md R34) -/
  room : s.rxbuf.length + pushesIn s.todo ≤ s.cfg.rxcap
  /-- no command in progress in `READY` and `RESP` (10_state.md R40) -/
  atRest : s.seq = .ready ∨ s.seq = .resp → s.io = .idle ∧ s.cmd = none ∧ s.todo = []
  /-- a command in progress has a program that ends with its response (20_memory.md R82) -/
  inProgress : s.seq = .busy ∨ s.seq = .beatWait → ∃ i, s.cmd = some i ∧ isProgram i s.todo
  /-- in `BEAT_WAIT` a burst waits for a beat that it still expects, and no primitive is outstanding (R40, R112) -/
  beat : s.seq = .beatWait → s.io = .idle ∧ ((s.todo = [.countedBeat] ∧ s.remaining ≠ 0#8) ∨ s.todo = [.textBeat])
  /-- no copy of a sampled level is kept outside `BUSY` (R42) -/
  unsampled : s.seq ≠ .busy → s.retval = false
  /-- in `BUSY` the block waits for a primitive or for time (R40) -/
  busy : s.seq = .busy → waitsFor s
  /-- no response holds a status code above 7 (60_exceptions.md R300) -/
  status : s.seq = .resp → (s.rspData.extractLsb' 24 4).toNat ≤ 7

end Sys2Proof.Machine
end

