-- ==== Sys2Proof/Certificates/Slice0/Obligations.lean ====
section
/-!
DEFINITION. The statements for the provers, from the numbered rules of spec/.
-/

open Sys2Proof Sys2Proof.Machine

/-! ### Encoding -/

/-- Decoding the word of any command gives the command back, with every operand at every value its field admits
(derived from 30_encoding.md R101, R103, R104, R108). -/
def Obligations.DecodeOfEncodeIsTheCommand : Prop :=
  ∀ i : Instr, decode (encode i) = .ok i

/-- A word that decodes is the word of the command it decodes to: no two words are one command
(derived from 30_encoding.md R103, R108, R111). -/
def Obligations.EncodeOfDecodeIsTheWord : Prop :=
  ∀ (w : Word) (i : Instr), decode w = .ok i → encode i = w

/-- 30_encoding.md R108: the words that are commands are exactly those that match a row of the opcode table. -/
def Obligations.CommandsAreTheTableRows : Prop :=
  ∀ w : Word, (∃ i, decode w = .ok i) ↔ ∃ r ∈ opcodeRows, w &&& r.1 = r.2

/-- Some words written out from the patterns of 30_encoding.md R103, one of each format. -/
def Obligations.SampleWordsDecode : Prop :=
  decode 0b00010000000001010000000000011010#32 = .ok (.beginSession 5#8 2#3 3#3) ∧
  decode 0b00100000000000000000000100011110#32 = .ok (.beginTx 0x1E#7 true) ∧
  decode 0b00110000000000000000000000000000#32 = .ok .endTx ∧
  decode 0b01000000000000000000000011111111#32 = .ok (.write 0xFF#8) ∧
  decode 0b01110000000000001111111101111111#32 = .ok (.requestFrom 0x7F#7 255#8) ∧
  decode 0b00110000000000000000000000000001#32 = .error .reservedBits ∧
  decode 0b10110000000000000000000000000000#32 = .error .reservedOpcode

/-- 30_encoding.md R105: the address byte is `(address << 1) | direction-bit`. -/
def Obligations.AddressByteIsAddressThenDirection : Prop :=
  ∀ (addr : SlaveAddr) (dir : Bool), (addressByte addr dir).toNat = 2 * addr.toNat + dir.toNat

/-- The words of `TX addr, b0, ..., b(n-1)`: those of its expansion, in order (derived from 30_encoding.md R120, R121). -/
def Obligations.TransmissionAssembles : Prop :=
  ∀ (addr : Nat) (bytes : List Nat), addr < 128 → bytes.length < 256 → (∀ b ∈ bytes, b < 256) →
    assemble [.tx addr bytes] =
      some (encode (.beginTx (BitVec.ofNat 7 addr) false) :: encode (.writeBytes (BitVec.ofNat 8 bytes.length)) ::
        (bytes.map (fun b => encodeBeat (BitVec.ofNat 8 b)) ++ [encode .endTx]))

/-! ### Line driver and time -/

/-- 40_session_line_driver.md R143: on a port of any width the mask is of that width, the pins of the two lines carry the
two drive bits, and every other bit is that of `OTHER_BITS`. For one pin twice, which no session has (10_state.md R33), the
formula gives the OR of the two drive bits. -/
def Obligations.LineMaskCarriesBothDriveBits : Prop :=
  ∀ (w other : Nat) (p q : Pin) (a b : Bool),
    maskOf w other p q a b < 2 ^ w ∧
    ∀ i, i < w → (maskOf w other p q a b).testBit i =
      if i = p.toNat ∨ i = q.toNat then (decide (i = p.toNat) && a) || (decide (i = q.toNat) && b) else other.testBit i

/-- Elapsed time is `(later - earlier) mod 2^TIME_W` (derived from 40_session_line_driver.md R148). -/
def Obligations.ElapsedTimeIsModular : Prop :=
  ∀ (c : Config) (later earlier : Nat),
    (elapsed c later earlier : Int) = ((later : Int) - (earlier : Int)) % ((2 ^ c.timeW : Nat) : Int)

/-! ### Steps and handshakes -/

/-- A step in `READY` at an edge that presents a word runs the command the word decodes to, on the edges that follow
(derived from 30_encoding.md R108, 20_memory.md R71). -/
def Obligations.StepRunsTheDecodedCommand : Prop :=
  ∀ (s : State) (e : Edge) (es : List Edge) (i : Instr), s.cfg.legal = true → s.seq = .ready → s.inputs = e :: es →
    e.rst = false → e.cmdValid = true → decode e.cmdData = .ok i → step s = exec i { s with inputs := es }

/-- 30_encoding.md R117: an illegal word changes no state, emits no primitive, and produces one response with status
`ILLEGAL`. The fields of the sequencer's place are those of a block with no command in progress (log entry 10). -/
def Obligations.IllegalWordOnlyResponds : Prop :=
  ∀ (s : State) (e : Edge) (es : List Edge), s.cfg.legal = true → s.seq = .ready → s.inputs = e :: es →
    e.rst = false → e.cmdValid = true → (∀ r ∈ opcodeRows, e.cmdData &&& r.1 ≠ r.2) →
    step s = .next { s with
      inputs := es, rspData := e.cmdData.extractLsb' 28 4 ++ 7#4 ++ 0#24, seq := .resp, io := .idle, cmd := none,
      todo := [], retval := false }

/-- 20_memory.md R71: a response is held, `rsp_data` with it, until an edge with `rsp_ready` = 1 moves it, and the block
is then `READY`. -/
def Obligations.ResponseIsHeldUntilTaken : Prop :=
  ∀ (s : State) (e : Edge) (es : List Edge), s.cfg.legal = true → s.seq = .resp → s.inputs = e :: es → e.rst = false →
    rspValid s = true ∧ cmdReady s = false ∧
    step s = .next (if e.rspReady then { s with inputs := es, seq := .ready, responses := s.responses ++ [s.rspData] }
      else { s with inputs := es })

/-- In `READY` an edge without `cmd_valid` changes nothing (derived from 20_memory.md R71). -/
def Obligations.ReadyWaitsForAWord : Prop :=
  ∀ (s : State) (e : Edge) (es : List Edge), s.cfg.legal = true → s.seq = .ready → s.inputs = e :: es → e.rst = false →
    e.cmdValid = false → cmdReady s = true ∧ step s = .next { s with inputs := es }

/-- An edge with `rst` = 1, in whatever phase, sets every field of `S` to its reset value and makes the block `READY` with
nothing on its ports (70_reset_and_hazards.md R340). It emits no primitive (R341). That no response moves at that edge,
and no completion is recorded, is the model's choice (log entry 26), as is that an abandoned primitive leaves no event
(log entry 22) and that the events and responses before it stay in the record (log entry 6). -/
def Obligations.ResetInEveryPhase : Prop :=
  ∀ (s : State) (e : Edge) (es : List Edge), s.cfg.legal = true → s.inputs = e :: es → e.rst = true →
    ∃ t, step s = .next t ∧ t.inputs = es ∧ t.cfg = s.cfg ∧ t.trace = s.trace ∧ t.responses = s.responses ∧
      t.bound = false ∧ t.dev = 0x00#8 ∧ t.sdaPin = 0#3 ∧ t.sclPin = 0#3 ∧ t.sdaDrv = true ∧ t.sclDrv = true ∧
      t.busActive = false ∧ t.lastDir = false ∧ t.rxcount = 0#8 ∧ t.rxbuf = [] ∧ t.seq = .ready ∧ t.io = .idle ∧
      cmdReady t = true ∧ rspValid t = false ∧ ioReqValid t = false

/-- What the reset state is, in the reference configuration (derived from 00_scope.md R7, 10_state.md R32,
70_reset_and_hazards.md R340). `T_GAP` has no reference value in the spec, and none is stated here. -/
def Obligations.ResetState : Prop :=
  State.reset.bound = false ∧ State.reset.dev = 0x00#8 ∧ State.reset.sdaPin = 0#3 ∧ State.reset.sclPin = 0#3 ∧
  State.reset.sdaDrv = true ∧ State.reset.sclDrv = true ∧ State.reset.busActive = false ∧
  State.reset.lastDir = false ∧ State.reset.rxcount = 0#8 ∧ State.reset.seq = .ready ∧
  ioReqValid State.reset = false ∧ State.reset.cfg.rxcap = 32 ∧ State.reset.cfg.tStretch = 1000 ∧
  State.reset.cfg.tSettle = 2 ∧ State.reset.cfg.otherBits = 0x00 ∧ State.reset.cfg.nackLast = false ∧
  State.reset.cfg.timeW = 32 ∧ State.reset.cfg.portW = 8 ∧ State.reset.cfg.pinW = 3 ∧ State.reset.cfg.addrW = 7 ∧
  State.reset.cfg.byteW = 8 ∧ State.reset.cfg.devW = 8 ∧ State.reset.cfg.cmdW = 32 ∧ State.reset.cfg.rspW = 32

/-- 00_scope.md R8: a configuration outside the ranges is refused. -/
def Obligations.ConfigurationOutsideTheRangesIsRefused : Prop :=
  ∀ s : State,
    ¬ (1 ≤ s.cfg.rxcap ∧ s.cfg.rxcap ≤ 255 ∧ s.cfg.tStretch < 2 ^ s.cfg.timeW - 1 ∧ s.cfg.tSettle < 2 ^ s.cfg.timeW ∧
      s.cfg.otherBits < 2 ^ s.cfg.portW) →
    step s = .refused .illegalConfig

/-- 20_memory.md R72: a request is held until `io_req_ready`, the completion is taken only strictly after the transfer,
and `io_rsp_valid` while no primitive is outstanding is ignored, in every phase: a step is the same whatever the three
signals of a completion are. -/
def Obligations.PrimitiveHandshake : Prop :=
  ∀ (s : State) (e : Edge) (es : List Edge) (req : IoReq),
    (s.seq = .busy → e.rst = false → s.io = .request req → ioRequest s = some req ∧
      commandEdge e s = .next (if e.ioReqReady then { s with io := .outstanding req } else s)) ∧
    (s.seq = .busy → e.rst = false → s.io = .outstanding req → ioReqValid s = false ∧
      (e.ioRspValid = false → commandEdge e s = .next s)) ∧
    ((∀ r, s.io ≠ .outstanding r) → ∀ v raw err,
      step { s with inputs := { e with ioRspValid := v, ioRspRaw := raw, ioRspErr := err } :: es } =
        step { s with inputs := e :: es })

/-- 30_encoding.md R110, R112: in `BEAT_WAIT` a word is a data beat whatever it holds, and its bits [31:8] are ignored:
two words with the same low byte give the same step. -/
def Obligations.BeatUpperBitsAreIgnored : Prop :=
  ∀ (s : State) (e : Edge) (es : List Edge) (w : Word), s.seq = .beatWait →
    w.extractLsb' 0 8 = e.cmdData.extractLsb' 0 8 →
    step { s with inputs := { e with cmdData := w } :: es } = step { s with inputs := e :: es }

/-! ### The session -/

/-- 40_session_line_driver.md R150: `BEGIN` with two different pins binds the session, releases both lines with one
write, and responds `OK`; it writes nothing else. -/
def Obligations.BeginBindsTheSession : Prop :=
  ∀ (s : State) (dev : Byte) (sda scl : Pin) (cs rest : List Edge), sda ≠ scl →
    serveOk s.cfg.tGap 1 s.inputs = some (cs, rest) →
    ∃ t, exec (.beginSession dev sda scl) s = .next t ∧
      t.visible = { s with
        dev := dev, sdaPin := sda, sclPin := scl, bound := true, busActive := false, sdaDrv := true, sclDrv := true,
        trace := s.trace ++ [Event.wrote dev (maskOf s.cfg.portW s.cfg.otherBits sda scl true true) false], inputs := rest,
        rspData := 0x1#4 ++ 0#4 ++ 0#24, seq := .resp, io := .idle, cmd := none, todo := [] }.visible

/-- 40_session_line_driver.md R150: after an `IOERR` of its one write the new binding and drive bits stay in place. -/
def Obligations.BeginKeepsItsBindingOnError : Prop :=
  ∀ (s : State) (dev : Byte) (sda scl : Pin) (e : Edge) (rest : List Edge), sda ≠ scl →
    serve s.cfg.tGap s.inputs = some (e, rest) → e.ioRspErr = true →
    ∃ t, exec (.beginSession dev sda scl) s = .next t ∧
      t.visible = { s with
        dev := dev, sdaPin := sda, sclPin := scl, bound := true, busActive := false, sdaDrv := true, sclDrv := true,
        trace := s.trace ++ [Event.wrote dev (maskOf s.cfg.portW s.cfg.otherBits sda scl true true) true], inputs := rest,
        rspData := 0x1#4 ++ 2#4 ++ 0#24, seq := .resp, io := .idle, cmd := none, todo := [] }.visible

/-- 40_session_line_driver.md R151: `BEGIN` with one pin for both lines changes no state, emits no primitive, and
responds `BADCFG`. -/
def Obligations.BeginWithOnePinIsRefused : Prop :=
  ∀ (s : State) (dev : Byte) (pin : Pin),
    ∃ t, exec (.beginSession dev pin pin) s = .next t ∧
      t.visible = { s with
        rspData := 0x1#4 ++ 6#4 ++ 0#24, seq := .resp, io := .idle, cmd := none, todo := [] }.visible

/-- 30_encoding.md R118: without a session each of these commands emits no primitive, changes no state, and responds
`UNBOUND`; 60_exceptions.md R302: before `OVERFLOW`. -/
def Obligations.UnboundCommandsOnlyRespond : Prop :=
  ∀ (s : State) (i : Instr), s.bound = false →
    ((∃ a d, i = .beginTx a d) ∨ i = .endTx ∨ (∃ v, i = .write v) ∨ (∃ a q, i = .requestFrom a q)) →
    ∃ t, exec i s = .next t ∧
      t.visible = { s with
        rspData := i.opcode ++ 5#4 ++ 0#24, seq := .resp, io := .idle, cmd := none, todo := [] }.visible

/-- 30_encoding.md R118: a burst without a session first consumes its data beats, discards them, and then responds
`UNBOUND`: `WRITE_BYTES n` exactly n of them, `WRITE_STR` as many as come before the first 0x00, and that one. -/
def Obligations.UnboundBurstsConsumeTheirBeats : Prop :=
  ∀ (s : State) (ds : List Byte) (es1 rest : List Edge), s.bound = false →
    (∀ n : Byte, awaitBeats n.toNat s.inputs = some (ds, rest) →
      ∃ t, exec (.writeBytes n) s = .next t ∧
        t.visible = { s with
          inputs := rest, rspData := 0x5#4 ++ 5#4 ++ 0#24, seq := .resp, io := .idle, cmd := none, todo := [] }.visible) ∧
    (∀ n : Nat, awaitBeats n s.inputs = some (ds, es1) → (∀ d ∈ ds, d ≠ 0x00#8) → awaitBeat es1 = some (0x00#8, rest) →
      ∃ t, exec .writeStr s = .next t ∧
        t.visible = { s with
          inputs := rest, rspData := 0x6#4 ++ 5#4 ++ 0#24, seq := .resp, io := .idle, cmd := none, todo := [] }.visible)

/-! ### Transmissions -/

/-- 42_frame_layer.md R220: `BEGIN_TX` emits `Start` and the address byte, sets `bus_active` and `last_dir`, leaves both
drive bits at 0, and responds `OK` with the ack of the address; nothing else changes. -/
def Obligations.BeginTxSendsStartAndAddress : Prop :=
  ∀ (s : State) (addr : SlaveAddr) (dir : Bool) (c1 cs mid rest : List Edge), s.bound = true →
    serveOk s.cfg.tGap 4 s.inputs = some (c1, mid) → serveOk s.cfg.tGap 29 mid = some (cs, rest) →
    ∃ t, exec (.beginTx addr dir) s = .next t ∧
      t.visible = { s with
        sdaDrv := false, sclDrv := false, busActive := true, lastDir := dir,
        trace := s.trace ++ writeEvents s (startLevels s.sclDrv) ++
          byteWriteEvents s false (addr ++ BitVec.ofBool dir) (ackOf cs s.sdaPin),
        inputs := rest, rspData := 0x2#4 ++ 0#4 ++ (BitVec.ofBool (ackOf cs s.sdaPin)).zeroExtend 24, seq := .resp,
        io := .idle, cmd := none, todo := [] }.visible

/-- 42_frame_layer.md R222: `END_TX` emits `Stop`, clears `bus_active`, leaves both drive bits at 1, and responds `OK`;
nothing else changes. -/
def Obligations.EndTxSendsStop : Prop :=
  ∀ (s : State) (cs rest : List Edge), s.bound = true → serveOk s.cfg.tGap 3 s.inputs = some (cs, rest) →
    ∃ t, exec .endTx s = .next t ∧
      t.visible = { s with
        sdaDrv := true, sclDrv := true, busActive := false, trace := s.trace ++ writeEvents s (stopLevels s.sclDrv),
        inputs := rest, rspData := 0x3#4 ++ 0#4 ++ 0#24, seq := .resp, io := .idle, cmd := none, todo := [] }.visible

/-- 42_frame_layer.md R224: `WRITE` clocks the byte out most significant bit first, samples the ack, leaves both drive
bits at 0, and responds `OK` with the ack, ACK or NACK; nothing else changes. -/
def Obligations.WriteSendsTheByte : Prop :=
  ∀ (s : State) (v : Byte) (cs rest : List Edge), s.bound = true → serveOk s.cfg.tGap 29 s.inputs = some (cs, rest) →
    ∃ t, exec (.write v) s = .next t ∧
      t.visible = { s with
        sdaDrv := false, sclDrv := false, trace := s.trace ++ byteWriteEvents s s.sclDrv v (ackOf cs s.sdaPin),
        inputs := rest, rspData := 0x4#4 ++ 0#4 ++ (BitVec.ofBool (ackOf cs s.sdaPin)).zeroExtend 24, seq := .resp,
        io := .idle, cmd := none, todo := [] }.visible

/-- 42_frame_layer.md R226, R227(b): `WRITE_BYTES n` takes n beats, sends every byte, and responds `OK` with the number
of bytes acknowledged; for n = 0 nothing changes; nothing else changes. -/
def Obligations.WriteBytesCountsTheAcks : Prop :=
  ∀ (s : State) (n : Byte) (ds : List (Byte × Bool)) (rest : List Edge), s.bound = true →
    serveBurst s.cfg.tGap s.sdaPin n.toNat s.inputs = some (ds, rest) →
    ∃ t, exec (.writeBytes n) s = .next t ∧
      t.visible = { s with
        sdaDrv := s.sdaDrv && decide (n = 0#8), sclDrv := s.sclDrv && decide (n = 0#8),
        trace := s.trace ++ burstEvents s s.sclDrv ds, inputs := rest,
        rspData := 0x5#4 ++ 0#4 ++ (ackCount ds).zeroExtend 24, seq := .resp, io := .idle, cmd := none,
        todo := [] }.visible

/-- 42_frame_layer.md R228: `WRITE_STR` sends every byte before the first 0x00 beat, which it does not send, and responds
`OK` with the number of bytes acknowledged mod 2^16; nothing else changes. -/
def Obligations.WriteStrSendsUpToTheTerminator : Prop :=
  ∀ (s : State) (n : Nat) (ds : List (Byte × Bool)) (es1 rest : List Edge), s.bound = true →
    serveBurst s.cfg.tGap s.sdaPin n s.inputs = some (ds, es1) → (∀ d ∈ ds, d.1 ≠ 0x00#8) →
    awaitBeat es1 = some (0x00#8, rest) →
    ∃ t, exec .writeStr s = .next t ∧
      t.visible = { s with
        sdaDrv := s.sdaDrv && decide (n = 0), sclDrv := s.sclDrv && decide (n = 0),
        trace := s.trace ++ burstEvents s s.sclDrv ds, inputs := rest,
        rspData := 0x6#4 ++ 0#4 ++ (ackCount ds).zeroExtend 24, seq := .resp, io := .idle, cmd := none,
        todo := [] }.visible

/-- 42_frame_layer.md R236: a request larger than the free space changes no state, emits no primitive, and responds
`OVERFLOW`. -/
def Obligations.RequestFromOverflowOnlyResponds : Prop :=
  ∀ (s : State) (addr : SlaveAddr) (qty : Byte), s.bound = true → s.cfg.rxcap - s.rxbuf.length < qty.toNat →
    ∃ t, exec (.requestFrom addr qty) s = .next t ∧
      t.visible = { s with
        rspData := 0x7#4 ++ 4#4 ++ 0#24, seq := .resp, io := .idle, cmd := none, todo := [] }.visible

/-- 42_frame_layer.md R232: `REQUEST_FROM` emits `Start` and the address byte with direction 1, then for each of `qty`
bytes eight bit-reads, the push and the master's acknowledge, whatever the slave stretches within the deadline; it
responds `OK` with the count and the ack of the address, and emits no stop (R239); nothing else changes. That `Now()`
is the `now_ms` of the edge that completes the primitive before it, and that the settle wait reads `now_ms` at every
edge, is the model's choice (log entries 1 and 11): the hypotheses on the edges tie both waits to those edges. -/
def Obligations.RequestFromReadsEveryByte : Prop :=
  ∀ (s : State) (addr : SlaveAddr) (qty : Byte) (c1 cs m1 m2 rest : List Edge) (nss : List (List Nat))
    (bss : List (List Bool)), s.bound = true → qty.toNat ≤ s.cfg.rxcap - s.rxbuf.length → nss.length = qty.toNat →
    serveOk s.cfg.tGap 4 s.inputs = some (c1, m1) → serveOk s.cfg.tGap 29 m1 = some (cs, m2) →
    serveBytes s.cfg s.sdaPin s.sclPin nss m2 = some (bss, rest) →
    ∃ t, exec (.requestFrom addr qty) s = .next t ∧
      t.visible = { s with
        sdaDrv := s.cfg.nackLast && decide (qty ≠ 0#8), sclDrv := false, busActive := true, lastDir := true,
        rxbuf := s.rxbuf ++ bss.map byteOfBits,
        trace := s.trace ++ writeEvents s (startLevels s.sclDrv) ++
          byteWriteEvents s false (addr ++ 1#1) (ackOf cs s.sdaPin) ++ bytesEvents s qty.toNat nss bss,
        inputs := rest, rspData := 0x7#4 ++ 0#4 ++ (0#15 ++ BitVec.ofBool (ackOf cs s.sdaPin) ++ qty), seq := .resp,
        io := .idle, cmd := none, todo := [] }.visible

/-- 42_frame_layer.md R234: a bit-read of byte m that times out ends the command with `TIMEOUT` and count m; the m bytes
before it are in the buffer, the partial byte is not, nothing is written after the last poll, the drive bits stay 1, 1
and `bus_active` stays 1; nothing else changes. That the deadline runs from the edge that completes the SCL write to the
edge that completes the poll is the model's choice (log entry 11), as are the edges of the settle waits before (log
entries 1 and 11). -/
def Obligations.RequestFromTimesOut : Prop :=
  ∀ (s : State) (addr : SlaveAddr) (qty : Byte) (c1 cs ws m1 m2 m3 m4 m5 m6 rest : List Edge) (nss : List (List Nat))
    (bss : List (List Bool)) (ns : List Nat) (bs : List Bool) (n : Nat) (w e : Edge),
    s.bound = true → qty.toNat ≤ s.cfg.rxcap - s.rxbuf.length → nss.length < qty.toNat → ns.length < 8 →
    serveOk s.cfg.tGap 4 s.inputs = some (c1, m1) → serveOk s.cfg.tGap 29 m1 = some (cs, m2) →
    serveBytes s.cfg s.sdaPin s.sclPin nss m2 = some (bss, m3) →
    serveBits s.cfg s.sdaPin s.sclPin ns m3 = some (bs, m4) →
    serveOk s.cfg.tGap 2 m4 = some (ws, m5) → ws[1]? = some w →
    serveLowPolls s.cfg s.sclPin (nowOf s.cfg w.nowMs) n m5 = some m6 →
    serve s.cfg.tGap m6 = some (e, rest) → e.ioRspErr = false → e.ioRspRaw.testBit s.sclPin.toNat = false →
    s.cfg.tStretch < elapsed s.cfg (nowOf s.cfg e.nowMs) (nowOf s.cfg w.nowMs) →
    ∃ t, exec (.requestFrom addr qty) s = .next t ∧
      t.visible = { s with
        sdaDrv := true, sclDrv := true, busActive := true, lastDir := true, rxbuf := s.rxbuf ++ bss.map byteOfBits,
        trace := s.trace ++ writeEvents s (startLevels s.sclDrv) ++
          byteWriteEvents s false (addr ++ 1#1) (ackOf cs s.sdaPin) ++ bytesEvents s qty.toNat nss bss ++
          bitsEvents s ns bs ++ writeEvents s [(true, false), (true, true)] ++
          List.replicate (n + 1) (readEvent s .scl false),
        inputs := rest,
        rspData := 0x7#4 ++ 1#4 ++ (0#15 ++ BitVec.ofBool (ackOf cs s.sdaPin) ++ BitVec.ofNat 8 nss.length),
        seq := .resp, io := .idle, cmd := none, todo := [] }.visible

/-- 42_frame_layer.md R240(d), in every outcome and whatever the environment does short of a reset: the bytes pushed are
appended, there are as many as the response counts, and the capacity holds. -/
def Obligations.RequestFromCountsWhatItPushes : Prop :=
  ∀ (s t : State) (addr : SlaveAddr) (qty : Byte), s.cfg.rxcap ≤ 255 → s.rxbuf.length ≤ s.cfg.rxcap → noReset s.inputs →
    exec (.requestFrom addr qty) s = .next t →
    ∃ bytes, t.rxbuf = s.rxbuf ++ bytes ∧ t.rxbuf.length ≤ s.cfg.rxcap ∧
      (t.seq = .resp → (t.rspData.extractLsb' 0 8).toNat = bytes.length)

/-! ### Receive buffer and status -/

/-- 43_receive_buffer.md R272: the word of `AVAILABLE`; it responds `OK` with `rxcount`, with or without a session, and
writes nothing. -/
def Obligations.AvailableRespondsTheCount : Prop :=
  decode 0x80000000#32 = .ok .available ∧
  ∀ s : State, ∃ t, exec .available s = .next t ∧
    t.visible = { s with
      rspData := 0x8#4 ++ 0#4 ++ (0#16 ++ s.rxcount), seq := .resp, io := .idle, cmd := none, todo := [] }.visible

/-- 43_receive_buffer.md R274: `READ` removes the oldest byte and responds `OK` with it; it writes nothing else. -/
def Obligations.ReadRemovesTheOldestByte : Prop :=
  ∀ (s : State) (b : Byte) (bs : List Byte), s.rxbuf = b :: bs → ∃ t, exec .read s = .next t ∧
    t.visible = { s with
      rxbuf := bs, rspData := 0x9#4 ++ 0#4 ++ (0#16 ++ b), seq := .resp, io := .idle, cmd := none, todo := [] }.visible

/-- 43_receive_buffer.md R275: `READ` on an empty buffer changes nothing and responds `EMPTY`. -/
def Obligations.ReadOfAnEmptyBufferOnlyResponds : Prop :=
  ∀ s : State, s.rxbuf = [] → ∃ t, exec .read s = .next t ∧
    t.visible = { s with
      rspData := 0x9#4 ++ 3#4 ++ 0#24, seq := .resp, io := .idle, cmd := none, todo := [] }.visible

/-- 44_control.md R290: the word of `STATUS`; it responds `OK` with the status view, field by field, with or without a
session, and writes nothing. -/
def Obligations.StatusShowsTheState : Prop :=
  decode 0xA0000000#32 = .ok .status ∧
  ∀ s : State, ∃ (t : State) (p : Payload), exec .status s = .next t ∧
    t.visible = { s with
      rspData := 0xA#4 ++ 0#4 ++ p, seq := .resp, io := .idle, cmd := none, todo := [] }.visible ∧
    p.extractLsb' 0 8 = s.rxcount ∧ p.extractLsb' 8 3 = s.sdaPin ∧ p.extractLsb' 11 3 = s.sclPin ∧
    p.getLsbD 14 = s.bound ∧ p.getLsbD 15 = s.busActive ∧ p.getLsbD 16 = s.sdaDrv ∧ p.getLsbD 17 = s.sclDrv ∧
    p.getLsbD 18 = s.lastDir ∧ p.extractLsb' 19 5 = 0#5

/-- The FIFO law (derived from 43_receive_buffer.md R276, R274): `READ` after `READ`, each response taken, gives the
buffer's bytes back in the order received and leaves the rest. -/
def Obligations.ReadsReturnTheBytesInOrder : Prop :=
  ∀ (s : State) (bs rest : List Byte) (e1 e2 : Edge), s.cfg.legal = true → s.seq = .ready → s.rxbuf = bs ++ rest →
    e1.rst = false → e1.cmdValid = true → e1.cmdData = encode .read → e2.rst = false → e2.rspReady = true →
    s.inputs = (List.replicate bs.length [e1, e2]).flatten →
    ∃ t, Sys2Proof.core.run (2 * bs.length) s = .next t ∧ t.rxbuf = rest ∧ t.seq = .ready ∧ t.inputs = [] ∧
      t.responses = s.responses ++ bs.map (fun b => 0x9#4 ++ 0#4 ++ (0#16 ++ b)) ∧ t.trace = s.trace

/-- 43_receive_buffer.md R270: a push onto a full buffer is a fault, and onto any other it appends at the tail. -/
def Obligations.PushAppendsOrFaults : Prop :=
  ∀ (s : State) (b : Byte),
    fifoPush b s =
      if s.rxbuf.length < s.cfg.rxcap then .next { s with rxbuf := s.rxbuf ++ [b] } else .fault .fifoOverflow

/-! ### Errors and waits -/

/-- 60_exceptions.md R304, R300: a primitive of a command that is no burst, completed with an error, ends the command at
that point with `IOERR`; the event is recorded, every state write made before stays, and no primitive is added. The
payload is the count and `addr_ack` for `REQUEST_FROM` and 0 for the others. -/
def Obligations.PrimitiveErrorEndsTheCommand : Prop :=
  ∀ (s : State) (e : Edge) (req : IoReq) (op : Micro) (k : List Micro) (i : Instr), s.seq = .busy →
    s.io = .outstanding req → s.todo = op :: k → s.cmd = some i → i ≠ .writeStr → (∀ n, i ≠ .writeBytes n) →
    e.rst = false → e.ioRspValid = true → e.ioRspErr = true →
    ∃ ev : Event, (ev = Event.wrote req.dev req.mask true ∨ ∃ l, ev = Event.sampled req.dev req.mask l none) ∧
      commandEdge e s = .next { s with
        trace := s.trace ++ [ev],
        rspData := i.opcode ++ 2#4 ++
          (match i with
            | .requestFrom _ _ => 0#15 ++ BitVec.ofBool s.addrAck ++ s.bytecnt
            | _ => 0#24),
        seq := .resp, io := .idle, cmd := none, todo := [], retval := false }

/-- 60_exceptions.md R305, 30_encoding.md R112: a `WRITE_BYTES` whose primitive fails keeps taking the beats it still
expects, discards them without any line activity, and responds `IOERR` with the ACKs counted before the failure. -/
def Obligations.FailedBurstDrainsItsBeats : Prop :=
  ∀ (s : State) (e : Edge) (es rest : List Edge) (req : IoReq) (op : Micro) (k : List Micro) (n : Byte)
    (ds : List Byte), s.seq = .busy → s.io = .outstanding req → s.todo = op :: k → s.cmd = some (.writeBytes n) →
    e.rst = false → e.ioRspValid = true → e.ioRspErr = true → awaitBeats s.remaining.toNat es = some (ds, rest) →
    ∃ (t : State) (ev : Event), (ev = Event.wrote req.dev req.mask true ∨ ∃ l, ev = Event.sampled req.dev req.mask l none) ∧
      run (e :: es) s = .next t ∧
      t.visible = { s with
        trace := s.trace ++ [ev], rspData := 0x5#4 ++ 2#4 ++ s.ackcnt.zeroExtend 24, seq := .resp, io := .idle,
        cmd := none, todo := [], inputs := rest }.visible

/-- 60_exceptions.md R305, 30_encoding.md R112: a `WRITE_STR` whose primitive fails keeps taking beats up to the first
0x00, discards them without any line activity, and responds `IOERR` with the ACKs counted before the failure. -/
def Obligations.FailedTextDrainsToTheTerminator : Prop :=
  ∀ (s : State) (e : Edge) (es es1 rest : List Edge) (req : IoReq) (op : Micro) (k : List Micro) (n : Nat)
    (ds : List Byte), s.seq = .busy → s.io = .outstanding req → s.todo = op :: k → s.cmd = some .writeStr →
    e.rst = false → e.ioRspValid = true → e.ioRspErr = true → awaitBeats n es = some (ds, es1) →
    (∀ d ∈ ds, d ≠ 0x00#8) → awaitBeat es1 = some (0x00#8, rest) →
    ∃ (t : State) (ev : Event), (ev = Event.wrote req.dev req.mask true ∨ ∃ l, ev = Event.sampled req.dev req.mask l none) ∧
      run (e :: es) s = .next t ∧
      t.visible = { s with
        trace := s.trace ++ [ev], rspData := 0x6#4 ++ 2#4 ++ s.ackcnt.zeroExtend 24, seq := .resp, io := .idle,
        cmd := none, todo := [], inputs := rest }.visible

/-- 60_exceptions.md R301: which status codes the response of each command can hold, whatever the environment does short
of a reset: `AVAILABLE` and `STATUS` raise no error, `READ` only `EMPTY`, `BEGIN` only `BADCFG` and `IOERR`, and only
`REQUEST_FROM` raises `TIMEOUT` and `OVERFLOW`. The response echoes the opcode. -/
def Obligations.EachCommandRaisesOnlyItsErrors : Prop :=
  ∀ (i : Instr) (s t : State), noReset s.inputs → exec i s = .next t → t.seq = .resp →
    t.rspData.extractLsb' 28 4 = i.opcode ∧
    match i with
    | .available | .status => t.rspData.extractLsb' 24 4 = 0#4
    | .read => t.rspData.extractLsb' 24 4 ∈ [0#4, 3#4]
    | .beginSession _ _ _ => t.rspData.extractLsb' 24 4 ∈ [0#4, 2#4, 6#4]
    | .beginTx _ _ | .endTx | .write _ | .writeBytes _ | .writeStr => t.rspData.extractLsb' 24 4 ∈ [0#4, 2#4, 5#4]
    | .requestFrom _ _ => t.rspData.extractLsb' 24 4 ∈ [0#4, 1#4, 2#4, 4#4, 5#4]

/-- 41_bit_engine.md R184(a), (b): a poll of SCL tests the level first: high ends the wait, even past the deadline; low
more than `T_STRETCH` ms after `t0` ends the command with `TIMEOUT` and writes nothing; low within it, at exactly
`T_STRETCH` too, polls again. That the `Now()` of the test is the `now_ms` of the poll's completion edge is the model's
choice (log entry 11): the spec allows a later edge. -/
def Obligations.StretchDeadline : Prop :=
  ∀ (s : State) (e : Edge) (req : IoReq) (k : List Micro) (i : Instr), s.seq = .busy → s.io = .outstanding req →
    s.todo = .pollScl :: k → req.write = false → s.cmd = some i → e.rst = false → e.ioRspValid = true →
    e.ioRspErr = false →
    (e.ioRspRaw.testBit s.sclPin.toNat = true →
      commandEdge e s = advance e.nowMs k { s with
        io := .idle, trace := s.trace ++ [Event.sampled req.dev req.mask .scl (some true)] }) ∧
    (e.ioRspRaw.testBit s.sclPin.toNat = false →
      s.cfg.tStretch < elapsed s.cfg e.nowMs s.t0 →
      commandEdge e s = .next { s with
        trace := s.trace ++ [Event.sampled req.dev req.mask .scl (some false)],
        rspData := i.opcode ++ 1#4 ++ (0#15 ++ BitVec.ofBool s.addrAck ++ s.bytecnt), seq := .resp, io := .idle,
        cmd := none, todo := [], retval := false }) ∧
    (e.ioRspRaw.testBit s.sclPin.toNat = false →
      elapsed s.cfg e.nowMs s.t0 ≤ s.cfg.tStretch →
      ∃ io, commandEdge e s = .next { s with
        io := io, trace := s.trace ++ [Event.sampled req.dev req.mask .scl (some false)] } ∧
        (io = .request ⟨false, s.dev, pinSelect s.cfg.portW s.sclPin⟩ ∨
          io = .gap s.cfg.tGap ⟨false, s.dev, pinSelect s.cfg.portW s.sclPin⟩))

/-- 40_session_line_driver.md R149: the settle wait ends once `now_ms` has advanced by `T_SETTLE` since `t1`, and until
then nothing changes. That `now_ms` is read at every edge, so that the wait ends at the first such edge, is the model's
choice (log entries 1 and 11). -/
def Obligations.SettleWait : Prop :=
  ∀ (s : State) (e : Edge) (k : List Micro), s.seq = .busy → s.io = .idle → s.todo = .settle :: k → e.rst = false →
    (elapsed s.cfg e.nowMs s.t1 < s.cfg.tSettle → commandEdge e s = .next s) ∧
    (s.cfg.tSettle ≤ elapsed s.cfg e.nowMs s.t1 → commandEdge e s = advance e.nowMs k s)

/-- 60_exceptions.md R320: where the edges to come run out, the block is `READY`, or it waits in one of the ways R320
lists: for the completion of a primitive (the polls of a stretch wait among them), for the settle time, for a beat, or
for `rsp_ready`; and a step without an edge changes nothing. -/
def Obligations.TheBlockWaitsOnlyAsListed : Prop :=
  ∀ s t : State, s.Inv → step s = .next t → t.inputs = [] →
    step t = .next t ∧
    (t.seq = .ready ∨ t.seq = .resp ∨ (t.seq = .beatWait ∧ (t.todo = [.countedBeat] ∨ t.todo = [.textBeat])) ∨
      (t.seq = .busy ∧ ((t.io = .idle ∧ t.todo.head? = some .settle) ∨
        ∃ req, (∃ n, t.io = .gap n req) ∨ t.io = .request req ∨ t.io = .outstanding req)))

/-! ### Rules over all commands -/

/-- 10_state.md R32, R33: no command but `BEGIN` writes the session fields, whatever the environment does short of a
reset. -/
def Obligations.OnlyBeginWritesTheSession : Prop :=
  ∀ (i : Instr) (s t : State), (∀ d p q, i ≠ .beginSession d p q) → noReset s.inputs → exec i s = .next t →
    t.bound = s.bound ∧ t.dev = s.dev ∧ t.sdaPin = s.sdaPin ∧ t.sclPin = s.sclPin

/-- 10_state.md R32, 43_receive_buffer.md R276: no command but `READ` and `REQUEST_FROM` changes the receive buffer,
whatever the environment does short of a reset. -/
def Obligations.OnlyReadsWriteTheBuffer : Prop :=
  ∀ (i : Instr) (s t : State), i ≠ .read → (∀ a q, i ≠ .requestFrom a q) → noReset s.inputs → exec i s = .next t →
    t.rxbuf = s.rxbuf

/-- 10_state.md R32: `bus_active` is written by `BEGIN`, `BEGIN_TX`, `END_TX` and `REQUEST_FROM` alone, `last_dir` by
`BEGIN_TX` and `REQUEST_FROM` alone, whatever the environment does short of a reset. -/
def Obligations.BusPhaseIsWrittenByFourCommands : Prop :=
  ∀ (i : Instr) (s t : State), noReset s.inputs → exec i s = .next t →
    ((∀ d p q, i ≠ .beginSession d p q) → (∀ a d, i ≠ .beginTx a d) → i ≠ .endTx → (∀ a q, i ≠ .requestFrom a q) →
      t.busActive = s.busActive) ∧
    ((∀ a d, i ≠ .beginTx a d) → (∀ a q, i ≠ .requestFrom a q) → t.lastDir = s.lastDir)

/-- 40_session_line_driver.md R153: no command's line behaviour depends on `bus_active` or `last_dir`. -/
def Obligations.LinesDoNotDependOnTheBusPhase : Prop :=
  ∀ (i : Instr) (s t : State) (x y : Bool), exec i s = .next t →
    ∃ t', exec i { s with busActive := x, lastDir := y } = .next t' ∧ t'.trace = t.trace ∧ t'.sdaDrv = t.sdaDrv ∧
      t'.sclDrv = t.sclDrv ∧ t'.seq = t.seq ∧ t'.io = t.io ∧ t'.inputs = t.inputs

/-- 40_session_line_driver.md R143, R144, R147: whatever the environment does short of a reset, every write a command
emits is the line mask of some pair of drive bits on the session's pins, every read selects the pin of its line alone,
and every primitive goes to the session's device. That the pair is the current one is stated next. -/
def Obligations.EveryPrimitiveIsOfTheSession : Prop :=
  ∀ (i : Instr) (s t : State), noReset s.inputs → exec i s = .next t → ∀ ev ∈ newEvents s t,
    (∃ sda scl err, ev = Event.wrote t.dev (maskOf t.cfg.portW t.cfg.otherBits t.sdaPin t.sclPin sda scl) err) ∨
    (∃ l level, ev = .sampled t.dev (pinSelect t.cfg.portW (t.pin l)) l level)

/-- 20_memory.md R79, 40_session_line_driver.md R143, R147: the event an edge of a command adds, if it adds one, is a write
of the mask of both current drive bits, or a read of the level that the completion holds at the pin of its line; it
goes to the session's device. -/
def Obligations.EveryWriteCarriesTheCurrentDriveBits : Prop :=
  ∀ (s t : State) (e : Edge), s.Inv → s.seq = .busy → e.rst = false → commandEdge e s = .next t →
    newEvents s t = [] ∨
    newEvents s t = [Event.wrote s.dev (maskOf s.cfg.portW s.cfg.otherBits s.sdaPin s.sclPin s.sdaDrv s.sclDrv) e.ioRspErr] ∨
    ∃ l, newEvents s t = [Event.sampled s.dev (pinSelect s.cfg.portW (s.pin l)) l
      (if e.ioRspErr then none else some (e.ioRspRaw.testBit (s.pin l).toNat))]

/-- No step changes the parameters, and the line trace and the responses taken only grow (derived from 00_scope.md R7,
R14, 70_reset_and_hazards.md R362). -/
def Obligations.StepsFixTheParametersAndExtendTheTrace : Prop :=
  ∀ s t : State, step s = .next t →
    t.cfg = s.cfg ∧ s.trace <+: t.trace ∧ s.responses <+: t.responses ∧ t.inputs <:+ s.inputs

/-! ### What a receiver sees -/

/-- The framing law (derived from 41_bit_engine.md R193): from SCL low, the SDA bits of the first eight writes of
`WRITE v` that raise SCL spell v from bit 7 down to bit 0, and its writes make no start and no stop condition. Both pins
are on the port, as they are on every port of 8 pins or more (20_memory.md R73). -/
def Obligations.WrittenByteIsFramed : Prop :=
  ∀ (s : State) (v : Byte) (cs rest : List Edge), s.bound = true → s.sdaPin ≠ s.sclPin →
    s.sdaPin.toNat < s.cfg.portW → s.sclPin.toNat < s.cfg.portW → s.sclDrv = false →
    serveOk s.cfg.tGap 29 s.inputs = some (cs, rest) →
    ∃ t, exec (.write v) s = .next t ∧
      (risingBits s.sclDrv (drivesOf s.sdaPin s.sclPin (newEvents s t))).take 8 = bitsOfByte v ∧
      startsIn (s.sdaDrv, s.sclDrv) (drivesOf s.sdaPin s.sclPin (newEvents s t)) = 0 ∧
      stopsIn (s.sdaDrv, s.sclDrv) (drivesOf s.sdaPin s.sclPin (newEvents s t)) = 0

/-- Start and stop conditions (derived from 41_bit_engine.md R191): `BEGIN_TX` makes exactly one start condition,
whatever the drive bits on entry, and no stop condition unless it is entered with SDA low and SCL high (the one entry
for which R191's own words do not hold: log entry 27); `END_TX` entered with SCL low makes exactly one stop condition
and no start. Both pins are on the port, as they are on every port of 8 pins or more (20_memory.md R73). -/
def Obligations.StartAndStopConditions : Prop :=
  ∀ (s : State), s.bound = true → s.sdaPin ≠ s.sclPin → s.sdaPin.toNat < s.cfg.portW → s.sclPin.toNat < s.cfg.portW →
    (∀ (addr : SlaveAddr) (dir : Bool) (cs rest : List Edge), serveOk s.cfg.tGap 33 s.inputs = some (cs, rest) →
      ∃ t, exec (.beginTx addr dir) s = .next t ∧
        startsIn (s.sdaDrv, s.sclDrv) (drivesOf s.sdaPin s.sclPin (newEvents s t)) = 1 ∧
        stopsIn (s.sdaDrv, s.sclDrv) (drivesOf s.sdaPin s.sclPin (newEvents s t)) =
          (if s.sdaDrv = false ∧ s.sclDrv = true then 1 else 0)) ∧
    (∀ (cs rest : List Edge), s.sclDrv = false → serveOk s.cfg.tGap 3 s.inputs = some (cs, rest) →
      ∃ t, exec .endTx s = .next t ∧
        startsIn (s.sdaDrv, s.sclDrv) (drivesOf s.sdaPin s.sclPin (newEvents s t)) = 0 ∧
        stopsIn (s.sdaDrv, s.sclDrv) (drivesOf s.sdaPin s.sclPin (newEvents s t)) = 1)

/-! ### The invariant -/

/-- The reset state meets the invariant (derived from 10_state.md R33, R34, R40). -/
def Obligations.ResetMeetsTheInvariant : Prop := State.reset.Inv

/-- Every step keeps the invariant: the configuration stays legal, a bound session has two pins, the buffer never
exceeds its capacity, phase, port and program agree, no sampled level is kept outside `BUSY`, and no status code above 7
is produced (derived from 10_state.md R33, R34, R40, R42, 60_exceptions.md R300). -/
def Obligations.EveryStepKeepsTheInvariant : Prop :=
  ∀ s t : State, s.Inv → step s = .next t → t.Inv

/-- From every state that meets the invariant the block goes on: no fault (43_receive_buffer.md R270: a push onto a full
buffer is unreachable) and no refusal (derived from 42_frame_layer.md R236, 43_receive_buffer.md R270). -/
def Obligations.TheBlockNeverStops : Prop :=
  ∀ s : State, s.Inv → ∃ t, step s = .next t

/-! ### The parameters -/

/-- The configurations the block runs in: the ranges of 00_scope.md R8, with a port of any width (derived from R7, R8), and
the widths that the encoding serves: a pin field and a device field at least as wide as their operands (30_encoding.md R101,
R104), 7-bit addresses (R105), 8-bit bytes (41_bit_engine.md R187), 32-bit words (R100, R113). That the last four admit no
other value is read from those rules (log entry 3). -/
def Obligations.EveryPortWidthIsServed : Prop :=
  ∀ c : Config, c.legal = true ↔
    (1 ≤ c.rxcap ∧ c.rxcap ≤ 255 ∧ c.tStretch < 2 ^ c.timeW - 1 ∧ c.tSettle < 2 ^ c.timeW ∧ c.otherBits < 2 ^ c.portW) ∧
    (3 ≤ c.pinW ∧ 8 ≤ c.devW ∧ c.addrW = 7 ∧ c.byteW = 8 ∧ c.cmdW = 32 ∧ c.rspW = 32)
end

