-- ==== Sys2Proof/Laws/State.lean ====
section
/-!
SUPPORT. What each named operation leaves in each field of the state, one lemma per field, so that no later proof
unfolds a record update.
-/

namespace Sys2Proof.Machine

variable (s : State)

/-! ### `setTodo` -/

@[simp] theorem setTodo_cfg (ops : List Micro) : (setTodo ops s).cfg = s.cfg := rfl
@[simp] theorem setTodo_bound (ops : List Micro) : (setTodo ops s).bound = s.bound := rfl
@[simp] theorem setTodo_dev (ops : List Micro) : (setTodo ops s).dev = s.dev := rfl
@[simp] theorem setTodo_sdaPin (ops : List Micro) : (setTodo ops s).sdaPin = s.sdaPin := rfl
@[simp] theorem setTodo_sclPin (ops : List Micro) : (setTodo ops s).sclPin = s.sclPin := rfl
@[simp] theorem setTodo_sdaDrv (ops : List Micro) : (setTodo ops s).sdaDrv = s.sdaDrv := rfl
@[simp] theorem setTodo_sclDrv (ops : List Micro) : (setTodo ops s).sclDrv = s.sclDrv := rfl
@[simp] theorem setTodo_busActive (ops : List Micro) : (setTodo ops s).busActive = s.busActive := rfl
@[simp] theorem setTodo_lastDir (ops : List Micro) : (setTodo ops s).lastDir = s.lastDir := rfl
@[simp] theorem setTodo_rxbuf (ops : List Micro) : (setTodo ops s).rxbuf = s.rxbuf := rfl
@[simp] theorem setTodo_seq (ops : List Micro) : (setTodo ops s).seq = s.seq := rfl
@[simp] theorem setTodo_rspData (ops : List Micro) : (setTodo ops s).rspData = s.rspData := rfl
@[simp] theorem setTodo_io (ops : List Micro) : (setTodo ops s).io = s.io := rfl
@[simp] theorem setTodo_shreg (ops : List Micro) : (setTodo ops s).shreg = s.shreg := rfl
@[simp] theorem setTodo_bitcnt (ops : List Micro) : (setTodo ops s).bitcnt = s.bitcnt := rfl
@[simp] theorem setTodo_bytecnt (ops : List Micro) : (setTodo ops s).bytecnt = s.bytecnt := rfl
@[simp] theorem setTodo_ackcnt (ops : List Micro) : (setTodo ops s).ackcnt = s.ackcnt := rfl
@[simp] theorem setTodo_remaining (ops : List Micro) : (setTodo ops s).remaining = s.remaining := rfl
@[simp] theorem setTodo_t0 (ops : List Micro) : (setTodo ops s).t0 = s.t0 := rfl
@[simp] theorem setTodo_t1 (ops : List Micro) : (setTodo ops s).t1 = s.t1 := rfl
@[simp] theorem setTodo_draining (ops : List Micro) : (setTodo ops s).draining = s.draining := rfl
@[simp] theorem setTodo_err (ops : List Micro) : (setTodo ops s).err = s.err := rfl
@[simp] theorem setTodo_addrAck (ops : List Micro) : (setTodo ops s).addrAck = s.addrAck := rfl
@[simp] theorem setTodo_cmd (ops : List Micro) : (setTodo ops s).cmd = s.cmd := rfl
@[simp] theorem setTodo_todo (ops : List Micro) : (setTodo ops s).todo = ops := rfl
@[simp] theorem setTodo_retval (ops : List Micro) : (setTodo ops s).retval = s.retval := rfl
@[simp] theorem setTodo_inputs (ops : List Micro) : (setTodo ops s).inputs = s.inputs := rfl
@[simp] theorem setTodo_trace (ops : List Micro) : (setTodo ops s).trace = s.trace := rfl
@[simp] theorem setTodo_responses (ops : List Micro) : (setTodo ops s).responses = s.responses := rfl

/-! ### `setIo` -/

@[simp] theorem setIo_cfg (io : IoPort) : (setIo io s).cfg = s.cfg := rfl
@[simp] theorem setIo_bound (io : IoPort) : (setIo io s).bound = s.bound := rfl
@[simp] theorem setIo_dev (io : IoPort) : (setIo io s).dev = s.dev := rfl
@[simp] theorem setIo_sdaPin (io : IoPort) : (setIo io s).sdaPin = s.sdaPin := rfl
@[simp] theorem setIo_sclPin (io : IoPort) : (setIo io s).sclPin = s.sclPin := rfl
@[simp] theorem setIo_sdaDrv (io : IoPort) : (setIo io s).sdaDrv = s.sdaDrv := rfl
@[simp] theorem setIo_sclDrv (io : IoPort) : (setIo io s).sclDrv = s.sclDrv := rfl
@[simp] theorem setIo_busActive (io : IoPort) : (setIo io s).busActive = s.busActive := rfl
@[simp] theorem setIo_lastDir (io : IoPort) : (setIo io s).lastDir = s.lastDir := rfl
@[simp] theorem setIo_rxbuf (io : IoPort) : (setIo io s).rxbuf = s.rxbuf := rfl
@[simp] theorem setIo_seq (io : IoPort) : (setIo io s).seq = s.seq := rfl
@[simp] theorem setIo_rspData (io : IoPort) : (setIo io s).rspData = s.rspData := rfl
@[simp] theorem setIo_io (io : IoPort) : (setIo io s).io = io := rfl
@[simp] theorem setIo_shreg (io : IoPort) : (setIo io s).shreg = s.shreg := rfl
@[simp] theorem setIo_bitcnt (io : IoPort) : (setIo io s).bitcnt = s.bitcnt := rfl
@[simp] theorem setIo_bytecnt (io : IoPort) : (setIo io s).bytecnt = s.bytecnt := rfl
@[simp] theorem setIo_ackcnt (io : IoPort) : (setIo io s).ackcnt = s.ackcnt := rfl
@[simp] theorem setIo_remaining (io : IoPort) : (setIo io s).remaining = s.remaining := rfl
@[simp] theorem setIo_t0 (io : IoPort) : (setIo io s).t0 = s.t0 := rfl
@[simp] theorem setIo_t1 (io : IoPort) : (setIo io s).t1 = s.t1 := rfl
@[simp] theorem setIo_draining (io : IoPort) : (setIo io s).draining = s.draining := rfl
@[simp] theorem setIo_err (io : IoPort) : (setIo io s).err = s.err := rfl
@[simp] theorem setIo_addrAck (io : IoPort) : (setIo io s).addrAck = s.addrAck := rfl
@[simp] theorem setIo_cmd (io : IoPort) : (setIo io s).cmd = s.cmd := rfl
@[simp] theorem setIo_todo (io : IoPort) : (setIo io s).todo = s.todo := rfl
@[simp] theorem setIo_retval (io : IoPort) : (setIo io s).retval = s.retval := rfl
@[simp] theorem setIo_inputs (io : IoPort) : (setIo io s).inputs = s.inputs := rfl
@[simp] theorem setIo_trace (io : IoPort) : (setIo io s).trace = s.trace := rfl
@[simp] theorem setIo_responses (io : IoPort) : (setIo io s).responses = s.responses := rfl

/-! ### `setSeq` -/

@[simp] theorem setSeq_cfg (q : Seq) : (setSeq q s).cfg = s.cfg := rfl
@[simp] theorem setSeq_bound (q : Seq) : (setSeq q s).bound = s.bound := rfl
@[simp] theorem setSeq_dev (q : Seq) : (setSeq q s).dev = s.dev := rfl
@[simp] theorem setSeq_sdaPin (q : Seq) : (setSeq q s).sdaPin = s.sdaPin := rfl
@[simp] theorem setSeq_sclPin (q : Seq) : (setSeq q s).sclPin = s.sclPin := rfl
@[simp] theorem setSeq_sdaDrv (q : Seq) : (setSeq q s).sdaDrv = s.sdaDrv := rfl
@[simp] theorem setSeq_sclDrv (q : Seq) : (setSeq q s).sclDrv = s.sclDrv := rfl
@[simp] theorem setSeq_busActive (q : Seq) : (setSeq q s).busActive = s.busActive := rfl
@[simp] theorem setSeq_lastDir (q : Seq) : (setSeq q s).lastDir = s.lastDir := rfl
@[simp] theorem setSeq_rxbuf (q : Seq) : (setSeq q s).rxbuf = s.rxbuf := rfl
@[simp] theorem setSeq_seq (q : Seq) : (setSeq q s).seq = q := rfl
@[simp] theorem setSeq_rspData (q : Seq) : (setSeq q s).rspData = s.rspData := rfl
@[simp] theorem setSeq_io (q : Seq) : (setSeq q s).io = s.io := rfl
@[simp] theorem setSeq_shreg (q : Seq) : (setSeq q s).shreg = s.shreg := rfl
@[simp] theorem setSeq_bitcnt (q : Seq) : (setSeq q s).bitcnt = s.bitcnt := rfl
@[simp] theorem setSeq_bytecnt (q : Seq) : (setSeq q s).bytecnt = s.bytecnt := rfl
@[simp] theorem setSeq_ackcnt (q : Seq) : (setSeq q s).ackcnt = s.ackcnt := rfl
@[simp] theorem setSeq_remaining (q : Seq) : (setSeq q s).remaining = s.remaining := rfl
@[simp] theorem setSeq_t0 (q : Seq) : (setSeq q s).t0 = s.t0 := rfl
@[simp] theorem setSeq_t1 (q : Seq) : (setSeq q s).t1 = s.t1 := rfl
@[simp] theorem setSeq_draining (q : Seq) : (setSeq q s).draining = s.draining := rfl
@[simp] theorem setSeq_err (q : Seq) : (setSeq q s).err = s.err := rfl
@[simp] theorem setSeq_addrAck (q : Seq) : (setSeq q s).addrAck = s.addrAck := rfl
@[simp] theorem setSeq_cmd (q : Seq) : (setSeq q s).cmd = s.cmd := rfl
@[simp] theorem setSeq_todo (q : Seq) : (setSeq q s).todo = s.todo := rfl
@[simp] theorem setSeq_retval (q : Seq) : (setSeq q s).retval = s.retval := rfl
@[simp] theorem setSeq_inputs (q : Seq) : (setSeq q s).inputs = s.inputs := rfl
@[simp] theorem setSeq_trace (q : Seq) : (setSeq q s).trace = s.trace := rfl
@[simp] theorem setSeq_responses (q : Seq) : (setSeq q s).responses = s.responses := rfl

/-! ### `setInputs` -/

@[simp] theorem setInputs_cfg (es : List Edge) : (setInputs es s).cfg = s.cfg := rfl
@[simp] theorem setInputs_bound (es : List Edge) : (setInputs es s).bound = s.bound := rfl
@[simp] theorem setInputs_dev (es : List Edge) : (setInputs es s).dev = s.dev := rfl
@[simp] theorem setInputs_sdaPin (es : List Edge) : (setInputs es s).sdaPin = s.sdaPin := rfl
@[simp] theorem setInputs_sclPin (es : List Edge) : (setInputs es s).sclPin = s.sclPin := rfl
@[simp] theorem setInputs_sdaDrv (es : List Edge) : (setInputs es s).sdaDrv = s.sdaDrv := rfl
@[simp] theorem setInputs_sclDrv (es : List Edge) : (setInputs es s).sclDrv = s.sclDrv := rfl
@[simp] theorem setInputs_busActive (es : List Edge) : (setInputs es s).busActive = s.busActive := rfl
@[simp] theorem setInputs_lastDir (es : List Edge) : (setInputs es s).lastDir = s.lastDir := rfl
@[simp] theorem setInputs_rxbuf (es : List Edge) : (setInputs es s).rxbuf = s.rxbuf := rfl
@[simp] theorem setInputs_seq (es : List Edge) : (setInputs es s).seq = s.seq := rfl
@[simp] theorem setInputs_rspData (es : List Edge) : (setInputs es s).rspData = s.rspData := rfl
@[simp] theorem setInputs_io (es : List Edge) : (setInputs es s).io = s.io := rfl
@[simp] theorem setInputs_shreg (es : List Edge) : (setInputs es s).shreg = s.shreg := rfl
@[simp] theorem setInputs_bitcnt (es : List Edge) : (setInputs es s).bitcnt = s.bitcnt := rfl
@[simp] theorem setInputs_bytecnt (es : List Edge) : (setInputs es s).bytecnt = s.bytecnt := rfl
@[simp] theorem setInputs_ackcnt (es : List Edge) : (setInputs es s).ackcnt = s.ackcnt := rfl
@[simp] theorem setInputs_remaining (es : List Edge) : (setInputs es s).remaining = s.remaining := rfl
@[simp] theorem setInputs_t0 (es : List Edge) : (setInputs es s).t0 = s.t0 := rfl
@[simp] theorem setInputs_t1 (es : List Edge) : (setInputs es s).t1 = s.t1 := rfl
@[simp] theorem setInputs_draining (es : List Edge) : (setInputs es s).draining = s.draining := rfl
@[simp] theorem setInputs_err (es : List Edge) : (setInputs es s).err = s.err := rfl
@[simp] theorem setInputs_addrAck (es : List Edge) : (setInputs es s).addrAck = s.addrAck := rfl
@[simp] theorem setInputs_cmd (es : List Edge) : (setInputs es s).cmd = s.cmd := rfl
@[simp] theorem setInputs_todo (es : List Edge) : (setInputs es s).todo = s.todo := rfl
@[simp] theorem setInputs_retval (es : List Edge) : (setInputs es s).retval = s.retval := rfl
@[simp] theorem setInputs_inputs (es : List Edge) : (setInputs es s).inputs = es := rfl
@[simp] theorem setInputs_trace (es : List Edge) : (setInputs es s).trace = s.trace := rfl
@[simp] theorem setInputs_responses (es : List Edge) : (setInputs es s).responses = s.responses := rfl

/-! ### `setRxbuf` -/

@[simp] theorem setRxbuf_cfg (bs : List Byte) : (setRxbuf bs s).cfg = s.cfg := rfl
@[simp] theorem setRxbuf_bound (bs : List Byte) : (setRxbuf bs s).bound = s.bound := rfl
@[simp] theorem setRxbuf_dev (bs : List Byte) : (setRxbuf bs s).dev = s.dev := rfl
@[simp] theorem setRxbuf_sdaPin (bs : List Byte) : (setRxbuf bs s).sdaPin = s.sdaPin := rfl
@[simp] theorem setRxbuf_sclPin (bs : List Byte) : (setRxbuf bs s).sclPin = s.sclPin := rfl
@[simp] theorem setRxbuf_sdaDrv (bs : List Byte) : (setRxbuf bs s).sdaDrv = s.sdaDrv := rfl
@[simp] theorem setRxbuf_sclDrv (bs : List Byte) : (setRxbuf bs s).sclDrv = s.sclDrv := rfl
@[simp] theorem setRxbuf_busActive (bs : List Byte) : (setRxbuf bs s).busActive = s.busActive := rfl
@[simp] theorem setRxbuf_lastDir (bs : List Byte) : (setRxbuf bs s).lastDir = s.lastDir := rfl
@[simp] theorem setRxbuf_rxbuf (bs : List Byte) : (setRxbuf bs s).rxbuf = bs := rfl
@[simp] theorem setRxbuf_seq (bs : List Byte) : (setRxbuf bs s).seq = s.seq := rfl
@[simp] theorem setRxbuf_rspData (bs : List Byte) : (setRxbuf bs s).rspData = s.rspData := rfl
@[simp] theorem setRxbuf_io (bs : List Byte) : (setRxbuf bs s).io = s.io := rfl
@[simp] theorem setRxbuf_shreg (bs : List Byte) : (setRxbuf bs s).shreg = s.shreg := rfl
@[simp] theorem setRxbuf_bitcnt (bs : List Byte) : (setRxbuf bs s).bitcnt = s.bitcnt := rfl
@[simp] theorem setRxbuf_bytecnt (bs : List Byte) : (setRxbuf bs s).bytecnt = s.bytecnt := rfl
@[simp] theorem setRxbuf_ackcnt (bs : List Byte) : (setRxbuf bs s).ackcnt = s.ackcnt := rfl
@[simp] theorem setRxbuf_remaining (bs : List Byte) : (setRxbuf bs s).remaining = s.remaining := rfl
@[simp] theorem setRxbuf_t0 (bs : List Byte) : (setRxbuf bs s).t0 = s.t0 := rfl
@[simp] theorem setRxbuf_t1 (bs : List Byte) : (setRxbuf bs s).t1 = s.t1 := rfl
@[simp] theorem setRxbuf_draining (bs : List Byte) : (setRxbuf bs s).draining = s.draining := rfl
@[simp] theorem setRxbuf_err (bs : List Byte) : (setRxbuf bs s).err = s.err := rfl
@[simp] theorem setRxbuf_addrAck (bs : List Byte) : (setRxbuf bs s).addrAck = s.addrAck := rfl
@[simp] theorem setRxbuf_cmd (bs : List Byte) : (setRxbuf bs s).cmd = s.cmd := rfl
@[simp] theorem setRxbuf_todo (bs : List Byte) : (setRxbuf bs s).todo = s.todo := rfl
@[simp] theorem setRxbuf_retval (bs : List Byte) : (setRxbuf bs s).retval = s.retval := rfl
@[simp] theorem setRxbuf_inputs (bs : List Byte) : (setRxbuf bs s).inputs = s.inputs := rfl
@[simp] theorem setRxbuf_trace (bs : List Byte) : (setRxbuf bs s).trace = s.trace := rfl
@[simp] theorem setRxbuf_responses (bs : List Byte) : (setRxbuf bs s).responses = s.responses := rfl

/-! ### `markT0` -/

@[simp] theorem markT0_cfg (now : Nat) : (markT0 now s).cfg = s.cfg := rfl
@[simp] theorem markT0_bound (now : Nat) : (markT0 now s).bound = s.bound := rfl
@[simp] theorem markT0_dev (now : Nat) : (markT0 now s).dev = s.dev := rfl
@[simp] theorem markT0_sdaPin (now : Nat) : (markT0 now s).sdaPin = s.sdaPin := rfl
@[simp] theorem markT0_sclPin (now : Nat) : (markT0 now s).sclPin = s.sclPin := rfl
@[simp] theorem markT0_sdaDrv (now : Nat) : (markT0 now s).sdaDrv = s.sdaDrv := rfl
@[simp] theorem markT0_sclDrv (now : Nat) : (markT0 now s).sclDrv = s.sclDrv := rfl
@[simp] theorem markT0_busActive (now : Nat) : (markT0 now s).busActive = s.busActive := rfl
@[simp] theorem markT0_lastDir (now : Nat) : (markT0 now s).lastDir = s.lastDir := rfl
@[simp] theorem markT0_rxbuf (now : Nat) : (markT0 now s).rxbuf = s.rxbuf := rfl
@[simp] theorem markT0_seq (now : Nat) : (markT0 now s).seq = s.seq := rfl
@[simp] theorem markT0_rspData (now : Nat) : (markT0 now s).rspData = s.rspData := rfl
@[simp] theorem markT0_io (now : Nat) : (markT0 now s).io = s.io := rfl
@[simp] theorem markT0_shreg (now : Nat) : (markT0 now s).shreg = s.shreg := rfl
@[simp] theorem markT0_bitcnt (now : Nat) : (markT0 now s).bitcnt = s.bitcnt := rfl
@[simp] theorem markT0_bytecnt (now : Nat) : (markT0 now s).bytecnt = s.bytecnt := rfl
@[simp] theorem markT0_ackcnt (now : Nat) : (markT0 now s).ackcnt = s.ackcnt := rfl
@[simp] theorem markT0_remaining (now : Nat) : (markT0 now s).remaining = s.remaining := rfl
@[simp] theorem markT0_t0 (now : Nat) : (markT0 now s).t0 = nowOf s.cfg now := rfl
@[simp] theorem markT0_t1 (now : Nat) : (markT0 now s).t1 = s.t1 := rfl
@[simp] theorem markT0_draining (now : Nat) : (markT0 now s).draining = s.draining := rfl
@[simp] theorem markT0_err (now : Nat) : (markT0 now s).err = s.err := rfl
@[simp] theorem markT0_addrAck (now : Nat) : (markT0 now s).addrAck = s.addrAck := rfl
@[simp] theorem markT0_cmd (now : Nat) : (markT0 now s).cmd = s.cmd := rfl
@[simp] theorem markT0_todo (now : Nat) : (markT0 now s).todo = s.todo := rfl
@[simp] theorem markT0_retval (now : Nat) : (markT0 now s).retval = s.retval := rfl
@[simp] theorem markT0_inputs (now : Nat) : (markT0 now s).inputs = s.inputs := rfl
@[simp] theorem markT0_trace (now : Nat) : (markT0 now s).trace = s.trace := rfl
@[simp] theorem markT0_responses (now : Nat) : (markT0 now s).responses = s.responses := rfl

/-! ### `markT1` -/

@[simp] theorem markT1_cfg (now : Nat) : (markT1 now s).cfg = s.cfg := rfl
@[simp] theorem markT1_bound (now : Nat) : (markT1 now s).bound = s.bound := rfl
@[simp] theorem markT1_dev (now : Nat) : (markT1 now s).dev = s.dev := rfl
@[simp] theorem markT1_sdaPin (now : Nat) : (markT1 now s).sdaPin = s.sdaPin := rfl
@[simp] theorem markT1_sclPin (now : Nat) : (markT1 now s).sclPin = s.sclPin := rfl
@[simp] theorem markT1_sdaDrv (now : Nat) : (markT1 now s).sdaDrv = s.sdaDrv := rfl
@[simp] theorem markT1_sclDrv (now : Nat) : (markT1 now s).sclDrv = s.sclDrv := rfl
@[simp] theorem markT1_busActive (now : Nat) : (markT1 now s).busActive = s.busActive := rfl
@[simp] theorem markT1_lastDir (now : Nat) : (markT1 now s).lastDir = s.lastDir := rfl
@[simp] theorem markT1_rxbuf (now : Nat) : (markT1 now s).rxbuf = s.rxbuf := rfl
@[simp] theorem markT1_seq (now : Nat) : (markT1 now s).seq = s.seq := rfl
@[simp] theorem markT1_rspData (now : Nat) : (markT1 now s).rspData = s.rspData := rfl
@[simp] theorem markT1_io (now : Nat) : (markT1 now s).io = s.io := rfl
@[simp] theorem markT1_shreg (now : Nat) : (markT1 now s).shreg = s.shreg := rfl
@[simp] theorem markT1_bitcnt (now : Nat) : (markT1 now s).bitcnt = s.bitcnt := rfl
@[simp] theorem markT1_bytecnt (now : Nat) : (markT1 now s).bytecnt = s.bytecnt := rfl
@[simp] theorem markT1_ackcnt (now : Nat) : (markT1 now s).ackcnt = s.ackcnt := rfl
@[simp] theorem markT1_remaining (now : Nat) : (markT1 now s).remaining = s.remaining := rfl
@[simp] theorem markT1_t0 (now : Nat) : (markT1 now s).t0 = s.t0 := rfl
@[simp] theorem markT1_t1 (now : Nat) : (markT1 now s).t1 = nowOf s.cfg now := rfl
@[simp] theorem markT1_draining (now : Nat) : (markT1 now s).draining = s.draining := rfl
@[simp] theorem markT1_err (now : Nat) : (markT1 now s).err = s.err := rfl
@[simp] theorem markT1_addrAck (now : Nat) : (markT1 now s).addrAck = s.addrAck := rfl
@[simp] theorem markT1_cmd (now : Nat) : (markT1 now s).cmd = s.cmd := rfl
@[simp] theorem markT1_todo (now : Nat) : (markT1 now s).todo = s.todo := rfl
@[simp] theorem markT1_retval (now : Nat) : (markT1 now s).retval = s.retval := rfl
@[simp] theorem markT1_inputs (now : Nat) : (markT1 now s).inputs = s.inputs := rfl
@[simp] theorem markT1_trace (now : Nat) : (markT1 now s).trace = s.trace := rfl
@[simp] theorem markT1_responses (now : Nat) : (markT1 now s).responses = s.responses := rfl

/-! ### `loadShift` -/

@[simp] theorem loadShift_cfg (v : Byte) : (loadShift v s).cfg = s.cfg := rfl
@[simp] theorem loadShift_bound (v : Byte) : (loadShift v s).bound = s.bound := rfl
@[simp] theorem loadShift_dev (v : Byte) : (loadShift v s).dev = s.dev := rfl
@[simp] theorem loadShift_sdaPin (v : Byte) : (loadShift v s).sdaPin = s.sdaPin := rfl
@[simp] theorem loadShift_sclPin (v : Byte) : (loadShift v s).sclPin = s.sclPin := rfl
@[simp] theorem loadShift_sdaDrv (v : Byte) : (loadShift v s).sdaDrv = s.sdaDrv := rfl
@[simp] theorem loadShift_sclDrv (v : Byte) : (loadShift v s).sclDrv = s.sclDrv := rfl
@[simp] theorem loadShift_busActive (v : Byte) : (loadShift v s).busActive = s.busActive := rfl
@[simp] theorem loadShift_lastDir (v : Byte) : (loadShift v s).lastDir = s.lastDir := rfl
@[simp] theorem loadShift_rxbuf (v : Byte) : (loadShift v s).rxbuf = s.rxbuf := rfl
@[simp] theorem loadShift_seq (v : Byte) : (loadShift v s).seq = s.seq := rfl
@[simp] theorem loadShift_rspData (v : Byte) : (loadShift v s).rspData = s.rspData := rfl
@[simp] theorem loadShift_io (v : Byte) : (loadShift v s).io = s.io := rfl
@[simp] theorem loadShift_shreg (v : Byte) : (loadShift v s).shreg = v := rfl
@[simp] theorem loadShift_bitcnt (v : Byte) : (loadShift v s).bitcnt = 0#4 := rfl
@[simp] theorem loadShift_bytecnt (v : Byte) : (loadShift v s).bytecnt = s.bytecnt := rfl
@[simp] theorem loadShift_ackcnt (v : Byte) : (loadShift v s).ackcnt = s.ackcnt := rfl
@[simp] theorem loadShift_remaining (v : Byte) : (loadShift v s).remaining = s.remaining := rfl
@[simp] theorem loadShift_t0 (v : Byte) : (loadShift v s).t0 = s.t0 := rfl
@[simp] theorem loadShift_t1 (v : Byte) : (loadShift v s).t1 = s.t1 := rfl
@[simp] theorem loadShift_draining (v : Byte) : (loadShift v s).draining = s.draining := rfl
@[simp] theorem loadShift_err (v : Byte) : (loadShift v s).err = s.err := rfl
@[simp] theorem loadShift_addrAck (v : Byte) : (loadShift v s).addrAck = s.addrAck := rfl
@[simp] theorem loadShift_cmd (v : Byte) : (loadShift v s).cmd = s.cmd := rfl
@[simp] theorem loadShift_todo (v : Byte) : (loadShift v s).todo = s.todo := rfl
@[simp] theorem loadShift_retval (v : Byte) : (loadShift v s).retval = s.retval := rfl
@[simp] theorem loadShift_inputs (v : Byte) : (loadShift v s).inputs = s.inputs := rfl
@[simp] theorem loadShift_trace (v : Byte) : (loadShift v s).trace = s.trace := rfl
@[simp] theorem loadShift_responses (v : Byte) : (loadShift v s).responses = s.responses := rfl

/-! ### `countBit` -/

@[simp] theorem countBit_cfg : (countBit s).cfg = s.cfg := rfl
@[simp] theorem countBit_bound : (countBit s).bound = s.bound := rfl
@[simp] theorem countBit_dev : (countBit s).dev = s.dev := rfl
@[simp] theorem countBit_sdaPin : (countBit s).sdaPin = s.sdaPin := rfl
@[simp] theorem countBit_sclPin : (countBit s).sclPin = s.sclPin := rfl
@[simp] theorem countBit_sdaDrv : (countBit s).sdaDrv = s.sdaDrv := rfl
@[simp] theorem countBit_sclDrv : (countBit s).sclDrv = s.sclDrv := rfl
@[simp] theorem countBit_busActive : (countBit s).busActive = s.busActive := rfl
@[simp] theorem countBit_lastDir : (countBit s).lastDir = s.lastDir := rfl
@[simp] theorem countBit_rxbuf : (countBit s).rxbuf = s.rxbuf := rfl
@[simp] theorem countBit_seq : (countBit s).seq = s.seq := rfl
@[simp] theorem countBit_rspData : (countBit s).rspData = s.rspData := rfl
@[simp] theorem countBit_io : (countBit s).io = s.io := rfl
@[simp] theorem countBit_shreg : (countBit s).shreg = s.shreg := rfl
@[simp] theorem countBit_bitcnt : (countBit s).bitcnt = s.bitcnt + 1#4 := rfl
@[simp] theorem countBit_bytecnt : (countBit s).bytecnt = s.bytecnt := rfl
@[simp] theorem countBit_ackcnt : (countBit s).ackcnt = s.ackcnt := rfl
@[simp] theorem countBit_remaining : (countBit s).remaining = s.remaining := rfl
@[simp] theorem countBit_t0 : (countBit s).t0 = s.t0 := rfl
@[simp] theorem countBit_t1 : (countBit s).t1 = s.t1 := rfl
@[simp] theorem countBit_draining : (countBit s).draining = s.draining := rfl
@[simp] theorem countBit_err : (countBit s).err = s.err := rfl
@[simp] theorem countBit_addrAck : (countBit s).addrAck = s.addrAck := rfl
@[simp] theorem countBit_cmd : (countBit s).cmd = s.cmd := rfl
@[simp] theorem countBit_todo : (countBit s).todo = s.todo := rfl
@[simp] theorem countBit_retval : (countBit s).retval = s.retval := rfl
@[simp] theorem countBit_inputs : (countBit s).inputs = s.inputs := rfl
@[simp] theorem countBit_trace : (countBit s).trace = s.trace := rfl
@[simp] theorem countBit_responses : (countBit s).responses = s.responses := rfl

/-! ### `shiftIn` -/

@[simp] theorem shiftIn_cfg : (shiftIn s).cfg = s.cfg := rfl
@[simp] theorem shiftIn_bound : (shiftIn s).bound = s.bound := rfl
@[simp] theorem shiftIn_dev : (shiftIn s).dev = s.dev := rfl
@[simp] theorem shiftIn_sdaPin : (shiftIn s).sdaPin = s.sdaPin := rfl
@[simp] theorem shiftIn_sclPin : (shiftIn s).sclPin = s.sclPin := rfl
@[simp] theorem shiftIn_sdaDrv : (shiftIn s).sdaDrv = s.sdaDrv := rfl
@[simp] theorem shiftIn_sclDrv : (shiftIn s).sclDrv = s.sclDrv := rfl
@[simp] theorem shiftIn_busActive : (shiftIn s).busActive = s.busActive := rfl
@[simp] theorem shiftIn_lastDir : (shiftIn s).lastDir = s.lastDir := rfl
@[simp] theorem shiftIn_rxbuf : (shiftIn s).rxbuf = s.rxbuf := rfl
@[simp] theorem shiftIn_seq : (shiftIn s).seq = s.seq := rfl
@[simp] theorem shiftIn_rspData : (shiftIn s).rspData = s.rspData := rfl
@[simp] theorem shiftIn_io : (shiftIn s).io = s.io := rfl
@[simp] theorem shiftIn_shreg : (shiftIn s).shreg = setBit s.shreg (7 - s.bitcnt.toNat) s.retval := rfl
@[simp] theorem shiftIn_bitcnt : (shiftIn s).bitcnt = s.bitcnt + 1#4 := rfl
@[simp] theorem shiftIn_bytecnt : (shiftIn s).bytecnt = s.bytecnt := rfl
@[simp] theorem shiftIn_ackcnt : (shiftIn s).ackcnt = s.ackcnt := rfl
@[simp] theorem shiftIn_remaining : (shiftIn s).remaining = s.remaining := rfl
@[simp] theorem shiftIn_t0 : (shiftIn s).t0 = s.t0 := rfl
@[simp] theorem shiftIn_t1 : (shiftIn s).t1 = s.t1 := rfl
@[simp] theorem shiftIn_draining : (shiftIn s).draining = s.draining := rfl
@[simp] theorem shiftIn_err : (shiftIn s).err = s.err := rfl
@[simp] theorem shiftIn_addrAck : (shiftIn s).addrAck = s.addrAck := rfl
@[simp] theorem shiftIn_cmd : (shiftIn s).cmd = s.cmd := rfl
@[simp] theorem shiftIn_todo : (shiftIn s).todo = s.todo := rfl
@[simp] theorem shiftIn_retval : (shiftIn s).retval = s.retval := rfl
@[simp] theorem shiftIn_inputs : (shiftIn s).inputs = s.inputs := rfl
@[simp] theorem shiftIn_trace : (shiftIn s).trace = s.trace := rfl
@[simp] theorem shiftIn_responses : (shiftIn s).responses = s.responses := rfl

/-! ### `setRetval` -/

@[simp] theorem setRetval_cfg (b : Bool) : (setRetval b s).cfg = s.cfg := rfl
@[simp] theorem setRetval_bound (b : Bool) : (setRetval b s).bound = s.bound := rfl
@[simp] theorem setRetval_dev (b : Bool) : (setRetval b s).dev = s.dev := rfl
@[simp] theorem setRetval_sdaPin (b : Bool) : (setRetval b s).sdaPin = s.sdaPin := rfl
@[simp] theorem setRetval_sclPin (b : Bool) : (setRetval b s).sclPin = s.sclPin := rfl
@[simp] theorem setRetval_sdaDrv (b : Bool) : (setRetval b s).sdaDrv = s.sdaDrv := rfl
@[simp] theorem setRetval_sclDrv (b : Bool) : (setRetval b s).sclDrv = s.sclDrv := rfl
@[simp] theorem setRetval_busActive (b : Bool) : (setRetval b s).busActive = s.busActive := rfl
@[simp] theorem setRetval_lastDir (b : Bool) : (setRetval b s).lastDir = s.lastDir := rfl
@[simp] theorem setRetval_rxbuf (b : Bool) : (setRetval b s).rxbuf = s.rxbuf := rfl
@[simp] theorem setRetval_seq (b : Bool) : (setRetval b s).seq = s.seq := rfl
@[simp] theorem setRetval_rspData (b : Bool) : (setRetval b s).rspData = s.rspData := rfl
@[simp] theorem setRetval_io (b : Bool) : (setRetval b s).io = s.io := rfl
@[simp] theorem setRetval_shreg (b : Bool) : (setRetval b s).shreg = s.shreg := rfl
@[simp] theorem setRetval_bitcnt (b : Bool) : (setRetval b s).bitcnt = s.bitcnt := rfl
@[simp] theorem setRetval_bytecnt (b : Bool) : (setRetval b s).bytecnt = s.bytecnt := rfl
@[simp] theorem setRetval_ackcnt (b : Bool) : (setRetval b s).ackcnt = s.ackcnt := rfl
@[simp] theorem setRetval_remaining (b : Bool) : (setRetval b s).remaining = s.remaining := rfl
@[simp] theorem setRetval_t0 (b : Bool) : (setRetval b s).t0 = s.t0 := rfl
@[simp] theorem setRetval_t1 (b : Bool) : (setRetval b s).t1 = s.t1 := rfl
@[simp] theorem setRetval_draining (b : Bool) : (setRetval b s).draining = s.draining := rfl
@[simp] theorem setRetval_err (b : Bool) : (setRetval b s).err = s.err := rfl
@[simp] theorem setRetval_addrAck (b : Bool) : (setRetval b s).addrAck = s.addrAck := rfl
@[simp] theorem setRetval_cmd (b : Bool) : (setRetval b s).cmd = s.cmd := rfl
@[simp] theorem setRetval_todo (b : Bool) : (setRetval b s).todo = s.todo := rfl
@[simp] theorem setRetval_retval (b : Bool) : (setRetval b s).retval = b := rfl
@[simp] theorem setRetval_inputs (b : Bool) : (setRetval b s).inputs = s.inputs := rfl
@[simp] theorem setRetval_trace (b : Bool) : (setRetval b s).trace = s.trace := rfl
@[simp] theorem setRetval_responses (b : Bool) : (setRetval b s).responses = s.responses := rfl

/-! ### `markStarted` -/

@[simp] theorem markStarted_cfg (dir : Bool) : (markStarted dir s).cfg = s.cfg := rfl
@[simp] theorem markStarted_bound (dir : Bool) : (markStarted dir s).bound = s.bound := rfl
@[simp] theorem markStarted_dev (dir : Bool) : (markStarted dir s).dev = s.dev := rfl
@[simp] theorem markStarted_sdaPin (dir : Bool) : (markStarted dir s).sdaPin = s.sdaPin := rfl
@[simp] theorem markStarted_sclPin (dir : Bool) : (markStarted dir s).sclPin = s.sclPin := rfl
@[simp] theorem markStarted_sdaDrv (dir : Bool) : (markStarted dir s).sdaDrv = s.sdaDrv := rfl
@[simp] theorem markStarted_sclDrv (dir : Bool) : (markStarted dir s).sclDrv = s.sclDrv := rfl
@[simp] theorem markStarted_busActive (dir : Bool) : (markStarted dir s).busActive = true := rfl
@[simp] theorem markStarted_lastDir (dir : Bool) : (markStarted dir s).lastDir = dir := rfl
@[simp] theorem markStarted_rxbuf (dir : Bool) : (markStarted dir s).rxbuf = s.rxbuf := rfl
@[simp] theorem markStarted_seq (dir : Bool) : (markStarted dir s).seq = s.seq := rfl
@[simp] theorem markStarted_rspData (dir : Bool) : (markStarted dir s).rspData = s.rspData := rfl
@[simp] theorem markStarted_io (dir : Bool) : (markStarted dir s).io = s.io := rfl
@[simp] theorem markStarted_shreg (dir : Bool) : (markStarted dir s).shreg = s.shreg := rfl
@[simp] theorem markStarted_bitcnt (dir : Bool) : (markStarted dir s).bitcnt = s.bitcnt := rfl
@[simp] theorem markStarted_bytecnt (dir : Bool) : (markStarted dir s).bytecnt = s.bytecnt := rfl
@[simp] theorem markStarted_ackcnt (dir : Bool) : (markStarted dir s).ackcnt = s.ackcnt := rfl
@[simp] theorem markStarted_remaining (dir : Bool) : (markStarted dir s).remaining = s.remaining := rfl
@[simp] theorem markStarted_t0 (dir : Bool) : (markStarted dir s).t0 = s.t0 := rfl
@[simp] theorem markStarted_t1 (dir : Bool) : (markStarted dir s).t1 = s.t1 := rfl
@[simp] theorem markStarted_draining (dir : Bool) : (markStarted dir s).draining = s.draining := rfl
@[simp] theorem markStarted_err (dir : Bool) : (markStarted dir s).err = s.err := rfl
@[simp] theorem markStarted_addrAck (dir : Bool) : (markStarted dir s).addrAck = s.addrAck := rfl
@[simp] theorem markStarted_cmd (dir : Bool) : (markStarted dir s).cmd = s.cmd := rfl
@[simp] theorem markStarted_todo (dir : Bool) : (markStarted dir s).todo = s.todo := rfl
@[simp] theorem markStarted_retval (dir : Bool) : (markStarted dir s).retval = s.retval := rfl
@[simp] theorem markStarted_inputs (dir : Bool) : (markStarted dir s).inputs = s.inputs := rfl
@[simp] theorem markStarted_trace (dir : Bool) : (markStarted dir s).trace = s.trace := rfl
@[simp] theorem markStarted_responses (dir : Bool) : (markStarted dir s).responses = s.responses := rfl

/-! ### `markStopped` -/

@[simp] theorem markStopped_cfg : (markStopped s).cfg = s.cfg := rfl
@[simp] theorem markStopped_bound : (markStopped s).bound = s.bound := rfl
@[simp] theorem markStopped_dev : (markStopped s).dev = s.dev := rfl
@[simp] theorem markStopped_sdaPin : (markStopped s).sdaPin = s.sdaPin := rfl
@[simp] theorem markStopped_sclPin : (markStopped s).sclPin = s.sclPin := rfl
@[simp] theorem markStopped_sdaDrv : (markStopped s).sdaDrv = s.sdaDrv := rfl
@[simp] theorem markStopped_sclDrv : (markStopped s).sclDrv = s.sclDrv := rfl
@[simp] theorem markStopped_busActive : (markStopped s).busActive = false := rfl
@[simp] theorem markStopped_lastDir : (markStopped s).lastDir = s.lastDir := rfl
@[simp] theorem markStopped_rxbuf : (markStopped s).rxbuf = s.rxbuf := rfl
@[simp] theorem markStopped_seq : (markStopped s).seq = s.seq := rfl
@[simp] theorem markStopped_rspData : (markStopped s).rspData = s.rspData := rfl
@[simp] theorem markStopped_io : (markStopped s).io = s.io := rfl
@[simp] theorem markStopped_shreg : (markStopped s).shreg = s.shreg := rfl
@[simp] theorem markStopped_bitcnt : (markStopped s).bitcnt = s.bitcnt := rfl
@[simp] theorem markStopped_bytecnt : (markStopped s).bytecnt = s.bytecnt := rfl
@[simp] theorem markStopped_ackcnt : (markStopped s).ackcnt = s.ackcnt := rfl
@[simp] theorem markStopped_remaining : (markStopped s).remaining = s.remaining := rfl
@[simp] theorem markStopped_t0 : (markStopped s).t0 = s.t0 := rfl
@[simp] theorem markStopped_t1 : (markStopped s).t1 = s.t1 := rfl
@[simp] theorem markStopped_draining : (markStopped s).draining = s.draining := rfl
@[simp] theorem markStopped_err : (markStopped s).err = s.err := rfl
@[simp] theorem markStopped_addrAck : (markStopped s).addrAck = s.addrAck := rfl
@[simp] theorem markStopped_cmd : (markStopped s).cmd = s.cmd := rfl
@[simp] theorem markStopped_todo : (markStopped s).todo = s.todo := rfl
@[simp] theorem markStopped_retval : (markStopped s).retval = s.retval := rfl
@[simp] theorem markStopped_inputs : (markStopped s).inputs = s.inputs := rfl
@[simp] theorem markStopped_trace : (markStopped s).trace = s.trace := rfl
@[simp] theorem markStopped_responses : (markStopped s).responses = s.responses := rfl

/-! ### `latchAddrAck` -/

@[simp] theorem latchAddrAck_cfg : (latchAddrAck s).cfg = s.cfg := rfl
@[simp] theorem latchAddrAck_bound : (latchAddrAck s).bound = s.bound := rfl
@[simp] theorem latchAddrAck_dev : (latchAddrAck s).dev = s.dev := rfl
@[simp] theorem latchAddrAck_sdaPin : (latchAddrAck s).sdaPin = s.sdaPin := rfl
@[simp] theorem latchAddrAck_sclPin : (latchAddrAck s).sclPin = s.sclPin := rfl
@[simp] theorem latchAddrAck_sdaDrv : (latchAddrAck s).sdaDrv = s.sdaDrv := rfl
@[simp] theorem latchAddrAck_sclDrv : (latchAddrAck s).sclDrv = s.sclDrv := rfl
@[simp] theorem latchAddrAck_busActive : (latchAddrAck s).busActive = s.busActive := rfl
@[simp] theorem latchAddrAck_lastDir : (latchAddrAck s).lastDir = s.lastDir := rfl
@[simp] theorem latchAddrAck_rxbuf : (latchAddrAck s).rxbuf = s.rxbuf := rfl
@[simp] theorem latchAddrAck_seq : (latchAddrAck s).seq = s.seq := rfl
@[simp] theorem latchAddrAck_rspData : (latchAddrAck s).rspData = s.rspData := rfl
@[simp] theorem latchAddrAck_io : (latchAddrAck s).io = s.io := rfl
@[simp] theorem latchAddrAck_shreg : (latchAddrAck s).shreg = s.shreg := rfl
@[simp] theorem latchAddrAck_bitcnt : (latchAddrAck s).bitcnt = s.bitcnt := rfl
@[simp] theorem latchAddrAck_bytecnt : (latchAddrAck s).bytecnt = s.bytecnt := rfl
@[simp] theorem latchAddrAck_ackcnt : (latchAddrAck s).ackcnt = s.ackcnt := rfl
@[simp] theorem latchAddrAck_remaining : (latchAddrAck s).remaining = s.remaining := rfl
@[simp] theorem latchAddrAck_t0 : (latchAddrAck s).t0 = s.t0 := rfl
@[simp] theorem latchAddrAck_t1 : (latchAddrAck s).t1 = s.t1 := rfl
@[simp] theorem latchAddrAck_draining : (latchAddrAck s).draining = s.draining := rfl
@[simp] theorem latchAddrAck_err : (latchAddrAck s).err = s.err := rfl
@[simp] theorem latchAddrAck_addrAck : (latchAddrAck s).addrAck = s.retval := rfl
@[simp] theorem latchAddrAck_cmd : (latchAddrAck s).cmd = s.cmd := rfl
@[simp] theorem latchAddrAck_todo : (latchAddrAck s).todo = s.todo := rfl
@[simp] theorem latchAddrAck_retval : (latchAddrAck s).retval = s.retval := rfl
@[simp] theorem latchAddrAck_inputs : (latchAddrAck s).inputs = s.inputs := rfl
@[simp] theorem latchAddrAck_trace : (latchAddrAck s).trace = s.trace := rfl
@[simp] theorem latchAddrAck_responses : (latchAddrAck s).responses = s.responses := rfl

/-! ### `addAck` -/

@[simp] theorem addAck_cfg : (addAck s).cfg = s.cfg := rfl
@[simp] theorem addAck_bound : (addAck s).bound = s.bound := rfl
@[simp] theorem addAck_dev : (addAck s).dev = s.dev := rfl
@[simp] theorem addAck_sdaPin : (addAck s).sdaPin = s.sdaPin := rfl
@[simp] theorem addAck_sclPin : (addAck s).sclPin = s.sclPin := rfl
@[simp] theorem addAck_sdaDrv : (addAck s).sdaDrv = s.sdaDrv := rfl
@[simp] theorem addAck_sclDrv : (addAck s).sclDrv = s.sclDrv := rfl
@[simp] theorem addAck_busActive : (addAck s).busActive = s.busActive := rfl
@[simp] theorem addAck_lastDir : (addAck s).lastDir = s.lastDir := rfl
@[simp] theorem addAck_rxbuf : (addAck s).rxbuf = s.rxbuf := rfl
@[simp] theorem addAck_seq : (addAck s).seq = s.seq := rfl
@[simp] theorem addAck_rspData : (addAck s).rspData = s.rspData := rfl
@[simp] theorem addAck_io : (addAck s).io = s.io := rfl
@[simp] theorem addAck_shreg : (addAck s).shreg = s.shreg := rfl
@[simp] theorem addAck_bitcnt : (addAck s).bitcnt = s.bitcnt := rfl
@[simp] theorem addAck_bytecnt : (addAck s).bytecnt = s.bytecnt := rfl
@[simp] theorem addAck_ackcnt : (addAck s).ackcnt = s.ackcnt + (BitVec.ofBool s.retval).zeroExtend 16 := rfl
@[simp] theorem addAck_remaining : (addAck s).remaining = s.remaining := rfl
@[simp] theorem addAck_t0 : (addAck s).t0 = s.t0 := rfl
@[simp] theorem addAck_t1 : (addAck s).t1 = s.t1 := rfl
@[simp] theorem addAck_draining : (addAck s).draining = s.draining := rfl
@[simp] theorem addAck_err : (addAck s).err = s.err := rfl
@[simp] theorem addAck_addrAck : (addAck s).addrAck = s.addrAck := rfl
@[simp] theorem addAck_cmd : (addAck s).cmd = s.cmd := rfl
@[simp] theorem addAck_todo : (addAck s).todo = s.todo := rfl
@[simp] theorem addAck_retval : (addAck s).retval = s.retval := rfl
@[simp] theorem addAck_inputs : (addAck s).inputs = s.inputs := rfl
@[simp] theorem addAck_trace : (addAck s).trace = s.trace := rfl
@[simp] theorem addAck_responses : (addAck s).responses = s.responses := rfl

/-! ### `countByte` -/

@[simp] theorem countByte_cfg : (countByte s).cfg = s.cfg := rfl
@[simp] theorem countByte_bound : (countByte s).bound = s.bound := rfl
@[simp] theorem countByte_dev : (countByte s).dev = s.dev := rfl
@[simp] theorem countByte_sdaPin : (countByte s).sdaPin = s.sdaPin := rfl
@[simp] theorem countByte_sclPin : (countByte s).sclPin = s.sclPin := rfl
@[simp] theorem countByte_sdaDrv : (countByte s).sdaDrv = s.sdaDrv := rfl
@[simp] theorem countByte_sclDrv : (countByte s).sclDrv = s.sclDrv := rfl
@[simp] theorem countByte_busActive : (countByte s).busActive = s.busActive := rfl
@[simp] theorem countByte_lastDir : (countByte s).lastDir = s.lastDir := rfl
@[simp] theorem countByte_rxbuf : (countByte s).rxbuf = s.rxbuf := rfl
@[simp] theorem countByte_seq : (countByte s).seq = s.seq := rfl
@[simp] theorem countByte_rspData : (countByte s).rspData = s.rspData := rfl
@[simp] theorem countByte_io : (countByte s).io = s.io := rfl
@[simp] theorem countByte_shreg : (countByte s).shreg = s.shreg := rfl
@[simp] theorem countByte_bitcnt : (countByte s).bitcnt = s.bitcnt := rfl
@[simp] theorem countByte_bytecnt : (countByte s).bytecnt = s.bytecnt + 1#8 := rfl
@[simp] theorem countByte_ackcnt : (countByte s).ackcnt = s.ackcnt := rfl
@[simp] theorem countByte_remaining : (countByte s).remaining = s.remaining := rfl
@[simp] theorem countByte_t0 : (countByte s).t0 = s.t0 := rfl
@[simp] theorem countByte_t1 : (countByte s).t1 = s.t1 := rfl
@[simp] theorem countByte_draining : (countByte s).draining = s.draining := rfl
@[simp] theorem countByte_err : (countByte s).err = s.err := rfl
@[simp] theorem countByte_addrAck : (countByte s).addrAck = s.addrAck := rfl
@[simp] theorem countByte_cmd : (countByte s).cmd = s.cmd := rfl
@[simp] theorem countByte_todo : (countByte s).todo = s.todo := rfl
@[simp] theorem countByte_retval : (countByte s).retval = s.retval := rfl
@[simp] theorem countByte_inputs : (countByte s).inputs = s.inputs := rfl
@[simp] theorem countByte_trace : (countByte s).trace = s.trace := rfl
@[simp] theorem countByte_responses : (countByte s).responses = s.responses := rfl

/-! ### `countBeat` -/

@[simp] theorem countBeat_cfg : (countBeat s).cfg = s.cfg := rfl
@[simp] theorem countBeat_bound : (countBeat s).bound = s.bound := rfl
@[simp] theorem countBeat_dev : (countBeat s).dev = s.dev := rfl
@[simp] theorem countBeat_sdaPin : (countBeat s).sdaPin = s.sdaPin := rfl
@[simp] theorem countBeat_sclPin : (countBeat s).sclPin = s.sclPin := rfl
@[simp] theorem countBeat_sdaDrv : (countBeat s).sdaDrv = s.sdaDrv := rfl
@[simp] theorem countBeat_sclDrv : (countBeat s).sclDrv = s.sclDrv := rfl
@[simp] theorem countBeat_busActive : (countBeat s).busActive = s.busActive := rfl
@[simp] theorem countBeat_lastDir : (countBeat s).lastDir = s.lastDir := rfl
@[simp] theorem countBeat_rxbuf : (countBeat s).rxbuf = s.rxbuf := rfl
@[simp] theorem countBeat_seq : (countBeat s).seq = s.seq := rfl
@[simp] theorem countBeat_rspData : (countBeat s).rspData = s.rspData := rfl
@[simp] theorem countBeat_io : (countBeat s).io = s.io := rfl
@[simp] theorem countBeat_shreg : (countBeat s).shreg = s.shreg := rfl
@[simp] theorem countBeat_bitcnt : (countBeat s).bitcnt = s.bitcnt := rfl
@[simp] theorem countBeat_bytecnt : (countBeat s).bytecnt = s.bytecnt := rfl
@[simp] theorem countBeat_ackcnt : (countBeat s).ackcnt = s.ackcnt := rfl
@[simp] theorem countBeat_remaining : (countBeat s).remaining = s.remaining - 1#8 := rfl
@[simp] theorem countBeat_t0 : (countBeat s).t0 = s.t0 := rfl
@[simp] theorem countBeat_t1 : (countBeat s).t1 = s.t1 := rfl
@[simp] theorem countBeat_draining : (countBeat s).draining = s.draining := rfl
@[simp] theorem countBeat_err : (countBeat s).err = s.err := rfl
@[simp] theorem countBeat_addrAck : (countBeat s).addrAck = s.addrAck := rfl
@[simp] theorem countBeat_cmd : (countBeat s).cmd = s.cmd := rfl
@[simp] theorem countBeat_todo : (countBeat s).todo = s.todo := rfl
@[simp] theorem countBeat_retval : (countBeat s).retval = s.retval := rfl
@[simp] theorem countBeat_inputs : (countBeat s).inputs = s.inputs := rfl
@[simp] theorem countBeat_trace : (countBeat s).trace = s.trace := rfl
@[simp] theorem countBeat_responses : (countBeat s).responses = s.responses := rfl

/-! ### `awaitNextBeat` -/

@[simp] theorem awaitNextBeat_cfg (ops : List Micro) : (awaitNextBeat ops s).cfg = s.cfg := rfl
@[simp] theorem awaitNextBeat_bound (ops : List Micro) : (awaitNextBeat ops s).bound = s.bound := rfl
@[simp] theorem awaitNextBeat_dev (ops : List Micro) : (awaitNextBeat ops s).dev = s.dev := rfl
@[simp] theorem awaitNextBeat_sdaPin (ops : List Micro) : (awaitNextBeat ops s).sdaPin = s.sdaPin := rfl
@[simp] theorem awaitNextBeat_sclPin (ops : List Micro) : (awaitNextBeat ops s).sclPin = s.sclPin := rfl
@[simp] theorem awaitNextBeat_sdaDrv (ops : List Micro) : (awaitNextBeat ops s).sdaDrv = s.sdaDrv := rfl
@[simp] theorem awaitNextBeat_sclDrv (ops : List Micro) : (awaitNextBeat ops s).sclDrv = s.sclDrv := rfl
@[simp] theorem awaitNextBeat_busActive (ops : List Micro) : (awaitNextBeat ops s).busActive = s.busActive := rfl
@[simp] theorem awaitNextBeat_lastDir (ops : List Micro) : (awaitNextBeat ops s).lastDir = s.lastDir := rfl
@[simp] theorem awaitNextBeat_rxbuf (ops : List Micro) : (awaitNextBeat ops s).rxbuf = s.rxbuf := rfl
@[simp] theorem awaitNextBeat_seq (ops : List Micro) : (awaitNextBeat ops s).seq = .beatWait := rfl
@[simp] theorem awaitNextBeat_rspData (ops : List Micro) : (awaitNextBeat ops s).rspData = s.rspData := rfl
@[simp] theorem awaitNextBeat_io (ops : List Micro) : (awaitNextBeat ops s).io = s.io := rfl
@[simp] theorem awaitNextBeat_shreg (ops : List Micro) : (awaitNextBeat ops s).shreg = s.shreg := rfl
@[simp] theorem awaitNextBeat_bitcnt (ops : List Micro) : (awaitNextBeat ops s).bitcnt = s.bitcnt := rfl
@[simp] theorem awaitNextBeat_bytecnt (ops : List Micro) : (awaitNextBeat ops s).bytecnt = s.bytecnt := rfl
@[simp] theorem awaitNextBeat_ackcnt (ops : List Micro) : (awaitNextBeat ops s).ackcnt = s.ackcnt := rfl
@[simp] theorem awaitNextBeat_remaining (ops : List Micro) : (awaitNextBeat ops s).remaining = s.remaining := rfl
@[simp] theorem awaitNextBeat_t0 (ops : List Micro) : (awaitNextBeat ops s).t0 = s.t0 := rfl
@[simp] theorem awaitNextBeat_t1 (ops : List Micro) : (awaitNextBeat ops s).t1 = s.t1 := rfl
@[simp] theorem awaitNextBeat_draining (ops : List Micro) : (awaitNextBeat ops s).draining = s.draining := rfl
@[simp] theorem awaitNextBeat_err (ops : List Micro) : (awaitNextBeat ops s).err = s.err := rfl
@[simp] theorem awaitNextBeat_addrAck (ops : List Micro) : (awaitNextBeat ops s).addrAck = s.addrAck := rfl
@[simp] theorem awaitNextBeat_cmd (ops : List Micro) : (awaitNextBeat ops s).cmd = s.cmd := rfl
@[simp] theorem awaitNextBeat_todo (ops : List Micro) : (awaitNextBeat ops s).todo = ops := rfl
@[simp] theorem awaitNextBeat_retval (ops : List Micro) : (awaitNextBeat ops s).retval = false := rfl
@[simp] theorem awaitNextBeat_inputs (ops : List Micro) : (awaitNextBeat ops s).inputs = s.inputs := rfl
@[simp] theorem awaitNextBeat_trace (ops : List Micro) : (awaitNextBeat ops s).trace = s.trace := rfl
@[simp] theorem awaitNextBeat_responses (ops : List Micro) : (awaitNextBeat ops s).responses = s.responses := rfl

/-! ### `markDraining` -/

@[simp] theorem markDraining_cfg : (markDraining s).cfg = s.cfg := rfl
@[simp] theorem markDraining_bound : (markDraining s).bound = s.bound := rfl
@[simp] theorem markDraining_dev : (markDraining s).dev = s.dev := rfl
@[simp] theorem markDraining_sdaPin : (markDraining s).sdaPin = s.sdaPin := rfl
@[simp] theorem markDraining_sclPin : (markDraining s).sclPin = s.sclPin := rfl
@[simp] theorem markDraining_sdaDrv : (markDraining s).sdaDrv = s.sdaDrv := rfl
@[simp] theorem markDraining_sclDrv : (markDraining s).sclDrv = s.sclDrv := rfl
@[simp] theorem markDraining_busActive : (markDraining s).busActive = s.busActive := rfl
@[simp] theorem markDraining_lastDir : (markDraining s).lastDir = s.lastDir := rfl
@[simp] theorem markDraining_rxbuf : (markDraining s).rxbuf = s.rxbuf := rfl
@[simp] theorem markDraining_seq : (markDraining s).seq = s.seq := rfl
@[simp] theorem markDraining_rspData : (markDraining s).rspData = s.rspData := rfl
@[simp] theorem markDraining_io : (markDraining s).io = s.io := rfl
@[simp] theorem markDraining_shreg : (markDraining s).shreg = s.shreg := rfl
@[simp] theorem markDraining_bitcnt : (markDraining s).bitcnt = s.bitcnt := rfl
@[simp] theorem markDraining_bytecnt : (markDraining s).bytecnt = s.bytecnt := rfl
@[simp] theorem markDraining_ackcnt : (markDraining s).ackcnt = s.ackcnt := rfl
@[simp] theorem markDraining_remaining : (markDraining s).remaining = s.remaining := rfl
@[simp] theorem markDraining_t0 : (markDraining s).t0 = s.t0 := rfl
@[simp] theorem markDraining_t1 : (markDraining s).t1 = s.t1 := rfl
@[simp] theorem markDraining_draining : (markDraining s).draining = true := rfl
@[simp] theorem markDraining_err : (markDraining s).err = .ioerr := rfl
@[simp] theorem markDraining_addrAck : (markDraining s).addrAck = s.addrAck := rfl
@[simp] theorem markDraining_cmd : (markDraining s).cmd = s.cmd := rfl
@[simp] theorem markDraining_todo : (markDraining s).todo = s.todo := rfl
@[simp] theorem markDraining_retval : (markDraining s).retval = s.retval := rfl
@[simp] theorem markDraining_inputs : (markDraining s).inputs = s.inputs := rfl
@[simp] theorem markDraining_trace : (markDraining s).trace = s.trace := rfl
@[simp] theorem markDraining_responses : (markDraining s).responses = s.responses := rfl

/-! ### `setRemaining` -/

@[simp] theorem setRemaining_cfg (n : Byte) : (setRemaining n s).cfg = s.cfg := rfl
@[simp] theorem setRemaining_bound (n : Byte) : (setRemaining n s).bound = s.bound := rfl
@[simp] theorem setRemaining_dev (n : Byte) : (setRemaining n s).dev = s.dev := rfl
@[simp] theorem setRemaining_sdaPin (n : Byte) : (setRemaining n s).sdaPin = s.sdaPin := rfl
@[simp] theorem setRemaining_sclPin (n : Byte) : (setRemaining n s).sclPin = s.sclPin := rfl
@[simp] theorem setRemaining_sdaDrv (n : Byte) : (setRemaining n s).sdaDrv = s.sdaDrv := rfl
@[simp] theorem setRemaining_sclDrv (n : Byte) : (setRemaining n s).sclDrv = s.sclDrv := rfl
@[simp] theorem setRemaining_busActive (n : Byte) : (setRemaining n s).busActive = s.busActive := rfl
@[simp] theorem setRemaining_lastDir (n : Byte) : (setRemaining n s).lastDir = s.lastDir := rfl
@[simp] theorem setRemaining_rxbuf (n : Byte) : (setRemaining n s).rxbuf = s.rxbuf := rfl
@[simp] theorem setRemaining_seq (n : Byte) : (setRemaining n s).seq = s.seq := rfl
@[simp] theorem setRemaining_rspData (n : Byte) : (setRemaining n s).rspData = s.rspData := rfl
@[simp] theorem setRemaining_io (n : Byte) : (setRemaining n s).io = s.io := rfl
@[simp] theorem setRemaining_shreg (n : Byte) : (setRemaining n s).shreg = s.shreg := rfl
@[simp] theorem setRemaining_bitcnt (n : Byte) : (setRemaining n s).bitcnt = s.bitcnt := rfl
@[simp] theorem setRemaining_bytecnt (n : Byte) : (setRemaining n s).bytecnt = s.bytecnt := rfl
@[simp] theorem setRemaining_ackcnt (n : Byte) : (setRemaining n s).ackcnt = s.ackcnt := rfl
@[simp] theorem setRemaining_remaining (n : Byte) : (setRemaining n s).remaining = n := rfl
@[simp] theorem setRemaining_t0 (n : Byte) : (setRemaining n s).t0 = s.t0 := rfl
@[simp] theorem setRemaining_t1 (n : Byte) : (setRemaining n s).t1 = s.t1 := rfl
@[simp] theorem setRemaining_draining (n : Byte) : (setRemaining n s).draining = s.draining := rfl
@[simp] theorem setRemaining_err (n : Byte) : (setRemaining n s).err = s.err := rfl
@[simp] theorem setRemaining_addrAck (n : Byte) : (setRemaining n s).addrAck = s.addrAck := rfl
@[simp] theorem setRemaining_cmd (n : Byte) : (setRemaining n s).cmd = s.cmd := rfl
@[simp] theorem setRemaining_todo (n : Byte) : (setRemaining n s).todo = s.todo := rfl
@[simp] theorem setRemaining_retval (n : Byte) : (setRemaining n s).retval = s.retval := rfl
@[simp] theorem setRemaining_inputs (n : Byte) : (setRemaining n s).inputs = s.inputs := rfl
@[simp] theorem setRemaining_trace (n : Byte) : (setRemaining n s).trace = s.trace := rfl
@[simp] theorem setRemaining_responses (n : Byte) : (setRemaining n s).responses = s.responses := rfl

/-! ### `openRead` -/

@[simp] theorem openRead_cfg : (openRead s).cfg = s.cfg := rfl
@[simp] theorem openRead_bound : (openRead s).bound = s.bound := rfl
@[simp] theorem openRead_dev : (openRead s).dev = s.dev := rfl
@[simp] theorem openRead_sdaPin : (openRead s).sdaPin = s.sdaPin := rfl
@[simp] theorem openRead_sclPin : (openRead s).sclPin = s.sclPin := rfl
@[simp] theorem openRead_sdaDrv : (openRead s).sdaDrv = s.sdaDrv := rfl
@[simp] theorem openRead_sclDrv : (openRead s).sclDrv = s.sclDrv := rfl
@[simp] theorem openRead_busActive : (openRead s).busActive = s.busActive := rfl
@[simp] theorem openRead_lastDir : (openRead s).lastDir = s.lastDir := rfl
@[simp] theorem openRead_rxbuf : (openRead s).rxbuf = s.rxbuf := rfl
@[simp] theorem openRead_seq : (openRead s).seq = s.seq := rfl
@[simp] theorem openRead_rspData : (openRead s).rspData = s.rspData := rfl
@[simp] theorem openRead_io : (openRead s).io = s.io := rfl
@[simp] theorem openRead_shreg : (openRead s).shreg = s.shreg := rfl
@[simp] theorem openRead_bitcnt : (openRead s).bitcnt = s.bitcnt := rfl
@[simp] theorem openRead_bytecnt : (openRead s).bytecnt = 0#8 := rfl
@[simp] theorem openRead_ackcnt : (openRead s).ackcnt = s.ackcnt := rfl
@[simp] theorem openRead_remaining : (openRead s).remaining = s.remaining := rfl
@[simp] theorem openRead_t0 : (openRead s).t0 = s.t0 := rfl
@[simp] theorem openRead_t1 : (openRead s).t1 = s.t1 := rfl
@[simp] theorem openRead_draining : (openRead s).draining = s.draining := rfl
@[simp] theorem openRead_err : (openRead s).err = s.err := rfl
@[simp] theorem openRead_addrAck : (openRead s).addrAck = false := rfl
@[simp] theorem openRead_cmd : (openRead s).cmd = s.cmd := rfl
@[simp] theorem openRead_todo : (openRead s).todo = s.todo := rfl
@[simp] theorem openRead_retval : (openRead s).retval = s.retval := rfl
@[simp] theorem openRead_inputs : (openRead s).inputs = s.inputs := rfl
@[simp] theorem openRead_trace : (openRead s).trace = s.trace := rfl
@[simp] theorem openRead_responses : (openRead s).responses = s.responses := rfl

/-! ### `respondAs` -/

@[simp] theorem respondAs_cfg (op : BitVec 4) (st : Status) (p : Payload) : (respondAs op st p s).cfg = s.cfg := rfl
@[simp] theorem respondAs_bound (op : BitVec 4) (st : Status) (p : Payload) : (respondAs op st p s).bound = s.bound := rfl
@[simp] theorem respondAs_dev (op : BitVec 4) (st : Status) (p : Payload) : (respondAs op st p s).dev = s.dev := rfl
@[simp] theorem respondAs_sdaPin (op : BitVec 4) (st : Status) (p : Payload) : (respondAs op st p s).sdaPin = s.sdaPin := rfl
@[simp] theorem respondAs_sclPin (op : BitVec 4) (st : Status) (p : Payload) : (respondAs op st p s).sclPin = s.sclPin := rfl
@[simp] theorem respondAs_sdaDrv (op : BitVec 4) (st : Status) (p : Payload) : (respondAs op st p s).sdaDrv = s.sdaDrv := rfl
@[simp] theorem respondAs_sclDrv (op : BitVec 4) (st : Status) (p : Payload) : (respondAs op st p s).sclDrv = s.sclDrv := rfl
@[simp] theorem respondAs_busActive (op : BitVec 4) (st : Status) (p : Payload) : (respondAs op st p s).busActive = s.busActive := rfl
@[simp] theorem respondAs_lastDir (op : BitVec 4) (st : Status) (p : Payload) : (respondAs op st p s).lastDir = s.lastDir := rfl
@[simp] theorem respondAs_rxbuf (op : BitVec 4) (st : Status) (p : Payload) : (respondAs op st p s).rxbuf = s.rxbuf := rfl
@[simp] theorem respondAs_seq (op : BitVec 4) (st : Status) (p : Payload) : (respondAs op st p s).seq = .resp := rfl
@[simp] theorem respondAs_rspData (op : BitVec 4) (st : Status) (p : Payload) : (respondAs op st p s).rspData = responseWord op st p := rfl
@[simp] theorem respondAs_io (op : BitVec 4) (st : Status) (p : Payload) : (respondAs op st p s).io = .idle := rfl
@[simp] theorem respondAs_shreg (op : BitVec 4) (st : Status) (p : Payload) : (respondAs op st p s).shreg = s.shreg := rfl
@[simp] theorem respondAs_bitcnt (op : BitVec 4) (st : Status) (p : Payload) : (respondAs op st p s).bitcnt = s.bitcnt := rfl
@[simp] theorem respondAs_bytecnt (op : BitVec 4) (st : Status) (p : Payload) : (respondAs op st p s).bytecnt = s.bytecnt := rfl
@[simp] theorem respondAs_ackcnt (op : BitVec 4) (st : Status) (p : Payload) : (respondAs op st p s).ackcnt = s.ackcnt := rfl
@[simp] theorem respondAs_remaining (op : BitVec 4) (st : Status) (p : Payload) : (respondAs op st p s).remaining = s.remaining := rfl
@[simp] theorem respondAs_t0 (op : BitVec 4) (st : Status) (p : Payload) : (respondAs op st p s).t0 = s.t0 := rfl
@[simp] theorem respondAs_t1 (op : BitVec 4) (st : Status) (p : Payload) : (respondAs op st p s).t1 = s.t1 := rfl
@[simp] theorem respondAs_draining (op : BitVec 4) (st : Status) (p : Payload) : (respondAs op st p s).draining = s.draining := rfl
@[simp] theorem respondAs_err (op : BitVec 4) (st : Status) (p : Payload) : (respondAs op st p s).err = s.err := rfl
@[simp] theorem respondAs_addrAck (op : BitVec 4) (st : Status) (p : Payload) : (respondAs op st p s).addrAck = s.addrAck := rfl
@[simp] theorem respondAs_cmd (op : BitVec 4) (st : Status) (p : Payload) : (respondAs op st p s).cmd = none := rfl
@[simp] theorem respondAs_todo (op : BitVec 4) (st : Status) (p : Payload) : (respondAs op st p s).todo = [] := rfl
@[simp] theorem respondAs_retval (op : BitVec 4) (st : Status) (p : Payload) : (respondAs op st p s).retval = false := rfl
@[simp] theorem respondAs_inputs (op : BitVec 4) (st : Status) (p : Payload) : (respondAs op st p s).inputs = s.inputs := rfl
@[simp] theorem respondAs_trace (op : BitVec 4) (st : Status) (p : Payload) : (respondAs op st p s).trace = s.trace := rfl
@[simp] theorem respondAs_responses (op : BitVec 4) (st : Status) (p : Payload) : (respondAs op st p s).responses = s.responses := rfl

/-! ### `respond` -/

@[simp] theorem respond_cfg (st : Status) (p : Payload) : (respond st p s).cfg = s.cfg := rfl
@[simp] theorem respond_bound (st : Status) (p : Payload) : (respond st p s).bound = s.bound := rfl
@[simp] theorem respond_dev (st : Status) (p : Payload) : (respond st p s).dev = s.dev := rfl
@[simp] theorem respond_sdaPin (st : Status) (p : Payload) : (respond st p s).sdaPin = s.sdaPin := rfl
@[simp] theorem respond_sclPin (st : Status) (p : Payload) : (respond st p s).sclPin = s.sclPin := rfl
@[simp] theorem respond_sdaDrv (st : Status) (p : Payload) : (respond st p s).sdaDrv = s.sdaDrv := rfl
@[simp] theorem respond_sclDrv (st : Status) (p : Payload) : (respond st p s).sclDrv = s.sclDrv := rfl
@[simp] theorem respond_busActive (st : Status) (p : Payload) : (respond st p s).busActive = s.busActive := rfl
@[simp] theorem respond_lastDir (st : Status) (p : Payload) : (respond st p s).lastDir = s.lastDir := rfl
@[simp] theorem respond_rxbuf (st : Status) (p : Payload) : (respond st p s).rxbuf = s.rxbuf := rfl
@[simp] theorem respond_seq (st : Status) (p : Payload) : (respond st p s).seq = .resp := rfl
@[simp] theorem respond_rspData (st : Status) (p : Payload) : (respond st p s).rspData = responseWord (cmdOp s) st p := rfl
@[simp] theorem respond_io (st : Status) (p : Payload) : (respond st p s).io = .idle := rfl
@[simp] theorem respond_shreg (st : Status) (p : Payload) : (respond st p s).shreg = s.shreg := rfl
@[simp] theorem respond_bitcnt (st : Status) (p : Payload) : (respond st p s).bitcnt = s.bitcnt := rfl
@[simp] theorem respond_bytecnt (st : Status) (p : Payload) : (respond st p s).bytecnt = s.bytecnt := rfl
@[simp] theorem respond_ackcnt (st : Status) (p : Payload) : (respond st p s).ackcnt = s.ackcnt := rfl
@[simp] theorem respond_remaining (st : Status) (p : Payload) : (respond st p s).remaining = s.remaining := rfl
@[simp] theorem respond_t0 (st : Status) (p : Payload) : (respond st p s).t0 = s.t0 := rfl
@[simp] theorem respond_t1 (st : Status) (p : Payload) : (respond st p s).t1 = s.t1 := rfl
@[simp] theorem respond_draining (st : Status) (p : Payload) : (respond st p s).draining = s.draining := rfl
@[simp] theorem respond_err (st : Status) (p : Payload) : (respond st p s).err = s.err := rfl
@[simp] theorem respond_addrAck (st : Status) (p : Payload) : (respond st p s).addrAck = s.addrAck := rfl
@[simp] theorem respond_cmd (st : Status) (p : Payload) : (respond st p s).cmd = none := rfl
@[simp] theorem respond_todo (st : Status) (p : Payload) : (respond st p s).todo = [] := rfl
@[simp] theorem respond_retval (st : Status) (p : Payload) : (respond st p s).retval = false := rfl
@[simp] theorem respond_inputs (st : Status) (p : Payload) : (respond st p s).inputs = s.inputs := rfl
@[simp] theorem respond_trace (st : Status) (p : Payload) : (respond st p s).trace = s.trace := rfl
@[simp] theorem respond_responses (st : Status) (p : Payload) : (respond st p s).responses = s.responses := rfl

/-! ### `takeResponse` -/

@[simp] theorem takeResponse_cfg : (takeResponse s).cfg = s.cfg := rfl
@[simp] theorem takeResponse_bound : (takeResponse s).bound = s.bound := rfl
@[simp] theorem takeResponse_dev : (takeResponse s).dev = s.dev := rfl
@[simp] theorem takeResponse_sdaPin : (takeResponse s).sdaPin = s.sdaPin := rfl
@[simp] theorem takeResponse_sclPin : (takeResponse s).sclPin = s.sclPin := rfl
@[simp] theorem takeResponse_sdaDrv : (takeResponse s).sdaDrv = s.sdaDrv := rfl
@[simp] theorem takeResponse_sclDrv : (takeResponse s).sclDrv = s.sclDrv := rfl
@[simp] theorem takeResponse_busActive : (takeResponse s).busActive = s.busActive := rfl
@[simp] theorem takeResponse_lastDir : (takeResponse s).lastDir = s.lastDir := rfl
@[simp] theorem takeResponse_rxbuf : (takeResponse s).rxbuf = s.rxbuf := rfl
@[simp] theorem takeResponse_seq : (takeResponse s).seq = .ready := rfl
@[simp] theorem takeResponse_rspData : (takeResponse s).rspData = s.rspData := rfl
@[simp] theorem takeResponse_io : (takeResponse s).io = s.io := rfl
@[simp] theorem takeResponse_shreg : (takeResponse s).shreg = s.shreg := rfl
@[simp] theorem takeResponse_bitcnt : (takeResponse s).bitcnt = s.bitcnt := rfl
@[simp] theorem takeResponse_bytecnt : (takeResponse s).bytecnt = s.bytecnt := rfl
@[simp] theorem takeResponse_ackcnt : (takeResponse s).ackcnt = s.ackcnt := rfl
@[simp] theorem takeResponse_remaining : (takeResponse s).remaining = s.remaining := rfl
@[simp] theorem takeResponse_t0 : (takeResponse s).t0 = s.t0 := rfl
@[simp] theorem takeResponse_t1 : (takeResponse s).t1 = s.t1 := rfl
@[simp] theorem takeResponse_draining : (takeResponse s).draining = s.draining := rfl
@[simp] theorem takeResponse_err : (takeResponse s).err = s.err := rfl
@[simp] theorem takeResponse_addrAck : (takeResponse s).addrAck = s.addrAck := rfl
@[simp] theorem takeResponse_cmd : (takeResponse s).cmd = s.cmd := rfl
@[simp] theorem takeResponse_todo : (takeResponse s).todo = s.todo := rfl
@[simp] theorem takeResponse_retval : (takeResponse s).retval = s.retval := rfl
@[simp] theorem takeResponse_inputs : (takeResponse s).inputs = s.inputs := rfl
@[simp] theorem takeResponse_trace : (takeResponse s).trace = s.trace := rfl
@[simp] theorem takeResponse_responses : (takeResponse s).responses = s.responses ++ [s.rspData] := rfl

/-! ### `applyReset` -/

@[simp] theorem applyReset_cfg : (applyReset s).cfg = s.cfg := rfl
@[simp] theorem applyReset_bound : (applyReset s).bound = State.reset.bound := rfl
@[simp] theorem applyReset_dev : (applyReset s).dev = State.reset.dev := rfl
@[simp] theorem applyReset_sdaPin : (applyReset s).sdaPin = State.reset.sdaPin := rfl
@[simp] theorem applyReset_sclPin : (applyReset s).sclPin = State.reset.sclPin := rfl
@[simp] theorem applyReset_sdaDrv : (applyReset s).sdaDrv = State.reset.sdaDrv := rfl
@[simp] theorem applyReset_sclDrv : (applyReset s).sclDrv = State.reset.sclDrv := rfl
@[simp] theorem applyReset_busActive : (applyReset s).busActive = State.reset.busActive := rfl
@[simp] theorem applyReset_lastDir : (applyReset s).lastDir = State.reset.lastDir := rfl
@[simp] theorem applyReset_rxbuf : (applyReset s).rxbuf = State.reset.rxbuf := rfl
@[simp] theorem applyReset_seq : (applyReset s).seq = State.reset.seq := rfl
@[simp] theorem applyReset_rspData : (applyReset s).rspData = State.reset.rspData := rfl
@[simp] theorem applyReset_io : (applyReset s).io = State.reset.io := rfl
@[simp] theorem applyReset_shreg : (applyReset s).shreg = State.reset.shreg := rfl
@[simp] theorem applyReset_bitcnt : (applyReset s).bitcnt = State.reset.bitcnt := rfl
@[simp] theorem applyReset_bytecnt : (applyReset s).bytecnt = State.reset.bytecnt := rfl
@[simp] theorem applyReset_ackcnt : (applyReset s).ackcnt = State.reset.ackcnt := rfl
@[simp] theorem applyReset_remaining : (applyReset s).remaining = State.reset.remaining := rfl
@[simp] theorem applyReset_t0 : (applyReset s).t0 = State.reset.t0 := rfl
@[simp] theorem applyReset_t1 : (applyReset s).t1 = State.reset.t1 := rfl
@[simp] theorem applyReset_draining : (applyReset s).draining = State.reset.draining := rfl
@[simp] theorem applyReset_err : (applyReset s).err = State.reset.err := rfl
@[simp] theorem applyReset_addrAck : (applyReset s).addrAck = State.reset.addrAck := rfl
@[simp] theorem applyReset_cmd : (applyReset s).cmd = State.reset.cmd := rfl
@[simp] theorem applyReset_todo : (applyReset s).todo = State.reset.todo := rfl
@[simp] theorem applyReset_retval : (applyReset s).retval = State.reset.retval := rfl
@[simp] theorem applyReset_inputs : (applyReset s).inputs = s.inputs := rfl
@[simp] theorem applyReset_trace : (applyReset s).trace = s.trace := rfl
@[simp] theorem applyReset_responses : (applyReset s).responses = s.responses := rfl

/-! ### `accept` -/

@[simp] theorem accept_cfg (i : Instr) : (accept i s).cfg = s.cfg := rfl
@[simp] theorem accept_bound (i : Instr) : (accept i s).bound = s.bound := rfl
@[simp] theorem accept_dev (i : Instr) : (accept i s).dev = s.dev := rfl
@[simp] theorem accept_sdaPin (i : Instr) : (accept i s).sdaPin = s.sdaPin := rfl
@[simp] theorem accept_sclPin (i : Instr) : (accept i s).sclPin = s.sclPin := rfl
@[simp] theorem accept_sdaDrv (i : Instr) : (accept i s).sdaDrv = s.sdaDrv := rfl
@[simp] theorem accept_sclDrv (i : Instr) : (accept i s).sclDrv = s.sclDrv := rfl
@[simp] theorem accept_busActive (i : Instr) : (accept i s).busActive = s.busActive := rfl
@[simp] theorem accept_lastDir (i : Instr) : (accept i s).lastDir = s.lastDir := rfl
@[simp] theorem accept_rxbuf (i : Instr) : (accept i s).rxbuf = s.rxbuf := rfl
@[simp] theorem accept_seq (i : Instr) : (accept i s).seq = s.seq := rfl
@[simp] theorem accept_rspData (i : Instr) : (accept i s).rspData = s.rspData := rfl
@[simp] theorem accept_io (i : Instr) : (accept i s).io = .idle := rfl
@[simp] theorem accept_shreg (i : Instr) : (accept i s).shreg = s.shreg := rfl
@[simp] theorem accept_bitcnt (i : Instr) : (accept i s).bitcnt = s.bitcnt := rfl
@[simp] theorem accept_bytecnt (i : Instr) : (accept i s).bytecnt = s.bytecnt := rfl
@[simp] theorem accept_ackcnt (i : Instr) : (accept i s).ackcnt = s.ackcnt := rfl
@[simp] theorem accept_remaining (i : Instr) : (accept i s).remaining = s.remaining := rfl
@[simp] theorem accept_t0 (i : Instr) : (accept i s).t0 = s.t0 := rfl
@[simp] theorem accept_t1 (i : Instr) : (accept i s).t1 = s.t1 := rfl
@[simp] theorem accept_draining (i : Instr) : (accept i s).draining = s.draining := rfl
@[simp] theorem accept_err (i : Instr) : (accept i s).err = s.err := rfl
@[simp] theorem accept_addrAck (i : Instr) : (accept i s).addrAck = s.addrAck := rfl
@[simp] theorem accept_cmd (i : Instr) : (accept i s).cmd = some i := rfl
@[simp] theorem accept_todo (i : Instr) : (accept i s).todo = [] := rfl
@[simp] theorem accept_retval (i : Instr) : (accept i s).retval = s.retval := rfl
@[simp] theorem accept_inputs (i : Instr) : (accept i s).inputs = s.inputs := rfl
@[simp] theorem accept_trace (i : Instr) : (accept i s).trace = s.trace := rfl
@[simp] theorem accept_responses (i : Instr) : (accept i s).responses = s.responses := rfl

/-! ### `emit` -/

@[simp] theorem emit_cfg (ev : Event) : (emit ev s).cfg = s.cfg := rfl
@[simp] theorem emit_bound (ev : Event) : (emit ev s).bound = s.bound := rfl
@[simp] theorem emit_dev (ev : Event) : (emit ev s).dev = s.dev := rfl
@[simp] theorem emit_sdaPin (ev : Event) : (emit ev s).sdaPin = s.sdaPin := rfl
@[simp] theorem emit_sclPin (ev : Event) : (emit ev s).sclPin = s.sclPin := rfl
@[simp] theorem emit_sdaDrv (ev : Event) : (emit ev s).sdaDrv = s.sdaDrv := rfl
@[simp] theorem emit_sclDrv (ev : Event) : (emit ev s).sclDrv = s.sclDrv := rfl
@[simp] theorem emit_busActive (ev : Event) : (emit ev s).busActive = s.busActive := rfl
@[simp] theorem emit_lastDir (ev : Event) : (emit ev s).lastDir = s.lastDir := rfl
@[simp] theorem emit_rxbuf (ev : Event) : (emit ev s).rxbuf = s.rxbuf := rfl
@[simp] theorem emit_seq (ev : Event) : (emit ev s).seq = s.seq := rfl
@[simp] theorem emit_rspData (ev : Event) : (emit ev s).rspData = s.rspData := rfl
@[simp] theorem emit_io (ev : Event) : (emit ev s).io = s.io := rfl
@[simp] theorem emit_shreg (ev : Event) : (emit ev s).shreg = s.shreg := rfl
@[simp] theorem emit_bitcnt (ev : Event) : (emit ev s).bitcnt = s.bitcnt := rfl
@[simp] theorem emit_bytecnt (ev : Event) : (emit ev s).bytecnt = s.bytecnt := rfl
@[simp] theorem emit_ackcnt (ev : Event) : (emit ev s).ackcnt = s.ackcnt := rfl
@[simp] theorem emit_remaining (ev : Event) : (emit ev s).remaining = s.remaining := rfl
@[simp] theorem emit_t0 (ev : Event) : (emit ev s).t0 = s.t0 := rfl
@[simp] theorem emit_t1 (ev : Event) : (emit ev s).t1 = s.t1 := rfl
@[simp] theorem emit_draining (ev : Event) : (emit ev s).draining = s.draining := rfl
@[simp] theorem emit_err (ev : Event) : (emit ev s).err = s.err := rfl
@[simp] theorem emit_addrAck (ev : Event) : (emit ev s).addrAck = s.addrAck := rfl
@[simp] theorem emit_cmd (ev : Event) : (emit ev s).cmd = s.cmd := rfl
@[simp] theorem emit_todo (ev : Event) : (emit ev s).todo = s.todo := rfl
@[simp] theorem emit_retval (ev : Event) : (emit ev s).retval = s.retval := rfl
@[simp] theorem emit_inputs (ev : Event) : (emit ev s).inputs = s.inputs := rfl
@[simp] theorem emit_trace (ev : Event) : (emit ev s).trace = s.trace ++ [ev] := rfl
@[simp] theorem emit_responses (ev : Event) : (emit ev s).responses = s.responses := rfl

/-! ### `bindSession` -/

@[simp] theorem bindSession_cfg (dev : Byte) (sda scl : Pin) : (bindSession dev sda scl s).cfg = s.cfg := rfl
@[simp] theorem bindSession_bound (dev : Byte) (sda scl : Pin) : (bindSession dev sda scl s).bound = true := rfl
@[simp] theorem bindSession_dev (dev : Byte) (sda scl : Pin) : (bindSession dev sda scl s).dev = dev := rfl
@[simp] theorem bindSession_sdaPin (dev : Byte) (sda scl : Pin) : (bindSession dev sda scl s).sdaPin = sda := rfl
@[simp] theorem bindSession_sclPin (dev : Byte) (sda scl : Pin) : (bindSession dev sda scl s).sclPin = scl := rfl
@[simp] theorem bindSession_sdaDrv (dev : Byte) (sda scl : Pin) : (bindSession dev sda scl s).sdaDrv = true := rfl
@[simp] theorem bindSession_sclDrv (dev : Byte) (sda scl : Pin) : (bindSession dev sda scl s).sclDrv = true := rfl
@[simp] theorem bindSession_busActive (dev : Byte) (sda scl : Pin) : (bindSession dev sda scl s).busActive = false := rfl
@[simp] theorem bindSession_lastDir (dev : Byte) (sda scl : Pin) : (bindSession dev sda scl s).lastDir = s.lastDir := rfl
@[simp] theorem bindSession_rxbuf (dev : Byte) (sda scl : Pin) : (bindSession dev sda scl s).rxbuf = s.rxbuf := rfl
@[simp] theorem bindSession_seq (dev : Byte) (sda scl : Pin) : (bindSession dev sda scl s).seq = s.seq := rfl
@[simp] theorem bindSession_rspData (dev : Byte) (sda scl : Pin) : (bindSession dev sda scl s).rspData = s.rspData := rfl
@[simp] theorem bindSession_io (dev : Byte) (sda scl : Pin) : (bindSession dev sda scl s).io = s.io := rfl
@[simp] theorem bindSession_shreg (dev : Byte) (sda scl : Pin) : (bindSession dev sda scl s).shreg = s.shreg := rfl
@[simp] theorem bindSession_bitcnt (dev : Byte) (sda scl : Pin) : (bindSession dev sda scl s).bitcnt = s.bitcnt := rfl
@[simp] theorem bindSession_bytecnt (dev : Byte) (sda scl : Pin) : (bindSession dev sda scl s).bytecnt = s.bytecnt := rfl
@[simp] theorem bindSession_ackcnt (dev : Byte) (sda scl : Pin) : (bindSession dev sda scl s).ackcnt = s.ackcnt := rfl
@[simp] theorem bindSession_remaining (dev : Byte) (sda scl : Pin) : (bindSession dev sda scl s).remaining = s.remaining := rfl
@[simp] theorem bindSession_t0 (dev : Byte) (sda scl : Pin) : (bindSession dev sda scl s).t0 = s.t0 := rfl
@[simp] theorem bindSession_t1 (dev : Byte) (sda scl : Pin) : (bindSession dev sda scl s).t1 = s.t1 := rfl
@[simp] theorem bindSession_draining (dev : Byte) (sda scl : Pin) : (bindSession dev sda scl s).draining = s.draining := rfl
@[simp] theorem bindSession_err (dev : Byte) (sda scl : Pin) : (bindSession dev sda scl s).err = s.err := rfl
@[simp] theorem bindSession_addrAck (dev : Byte) (sda scl : Pin) : (bindSession dev sda scl s).addrAck = s.addrAck := rfl
@[simp] theorem bindSession_cmd (dev : Byte) (sda scl : Pin) : (bindSession dev sda scl s).cmd = s.cmd := rfl
@[simp] theorem bindSession_todo (dev : Byte) (sda scl : Pin) : (bindSession dev sda scl s).todo = s.todo := rfl
@[simp] theorem bindSession_retval (dev : Byte) (sda scl : Pin) : (bindSession dev sda scl s).retval = s.retval := rfl
@[simp] theorem bindSession_inputs (dev : Byte) (sda scl : Pin) : (bindSession dev sda scl s).inputs = s.inputs := rfl
@[simp] theorem bindSession_trace (dev : Byte) (sda scl : Pin) : (bindSession dev sda scl s).trace = s.trace := rfl
@[simp] theorem bindSession_responses (dev : Byte) (sda scl : Pin) : (bindSession dev sda scl s).responses = s.responses := rfl

/-! ### `openBurst` -/

@[simp] theorem openBurst_cfg : (openBurst s).cfg = s.cfg := rfl
@[simp] theorem openBurst_bound : (openBurst s).bound = s.bound := rfl
@[simp] theorem openBurst_dev : (openBurst s).dev = s.dev := rfl
@[simp] theorem openBurst_sdaPin : (openBurst s).sdaPin = s.sdaPin := rfl
@[simp] theorem openBurst_sclPin : (openBurst s).sclPin = s.sclPin := rfl
@[simp] theorem openBurst_sdaDrv : (openBurst s).sdaDrv = s.sdaDrv := rfl
@[simp] theorem openBurst_sclDrv : (openBurst s).sclDrv = s.sclDrv := rfl
@[simp] theorem openBurst_busActive : (openBurst s).busActive = s.busActive := rfl
@[simp] theorem openBurst_lastDir : (openBurst s).lastDir = s.lastDir := rfl
@[simp] theorem openBurst_rxbuf : (openBurst s).rxbuf = s.rxbuf := rfl
@[simp] theorem openBurst_seq : (openBurst s).seq = s.seq := rfl
@[simp] theorem openBurst_rspData : (openBurst s).rspData = s.rspData := rfl
@[simp] theorem openBurst_io : (openBurst s).io = s.io := rfl
@[simp] theorem openBurst_shreg : (openBurst s).shreg = s.shreg := rfl
@[simp] theorem openBurst_bitcnt : (openBurst s).bitcnt = s.bitcnt := rfl
@[simp] theorem openBurst_bytecnt : (openBurst s).bytecnt = s.bytecnt := rfl
@[simp] theorem openBurst_ackcnt : (openBurst s).ackcnt = 0#16 := rfl
@[simp] theorem openBurst_remaining : (openBurst s).remaining = s.remaining := rfl
@[simp] theorem openBurst_t0 : (openBurst s).t0 = s.t0 := rfl
@[simp] theorem openBurst_t1 : (openBurst s).t1 = s.t1 := rfl
@[simp] theorem openBurst_draining : (openBurst s).draining = !s.bound := rfl
@[simp] theorem openBurst_err : (openBurst s).err = if s.bound then .ok else .unbound := rfl
@[simp] theorem openBurst_addrAck : (openBurst s).addrAck = s.addrAck := rfl
@[simp] theorem openBurst_cmd : (openBurst s).cmd = s.cmd := rfl
@[simp] theorem openBurst_todo : (openBurst s).todo = s.todo := rfl
@[simp] theorem openBurst_retval : (openBurst s).retval = s.retval := rfl
@[simp] theorem openBurst_inputs : (openBurst s).inputs = s.inputs := rfl
@[simp] theorem openBurst_trace : (openBurst s).trace = s.trace := rfl
@[simp] theorem openBurst_responses : (openBurst s).responses = s.responses := rfl

/-! ### `issue` -/

@[simp] theorem issue_cfg (w : Bool) (m : Nat) : (issue w m s).cfg = s.cfg := rfl
@[simp] theorem issue_bound (w : Bool) (m : Nat) : (issue w m s).bound = s.bound := rfl
@[simp] theorem issue_dev (w : Bool) (m : Nat) : (issue w m s).dev = s.dev := rfl
@[simp] theorem issue_sdaPin (w : Bool) (m : Nat) : (issue w m s).sdaPin = s.sdaPin := rfl
@[simp] theorem issue_sclPin (w : Bool) (m : Nat) : (issue w m s).sclPin = s.sclPin := rfl
@[simp] theorem issue_sdaDrv (w : Bool) (m : Nat) : (issue w m s).sdaDrv = s.sdaDrv := rfl
@[simp] theorem issue_sclDrv (w : Bool) (m : Nat) : (issue w m s).sclDrv = s.sclDrv := rfl
@[simp] theorem issue_busActive (w : Bool) (m : Nat) : (issue w m s).busActive = s.busActive := rfl
@[simp] theorem issue_lastDir (w : Bool) (m : Nat) : (issue w m s).lastDir = s.lastDir := rfl
@[simp] theorem issue_rxbuf (w : Bool) (m : Nat) : (issue w m s).rxbuf = s.rxbuf := rfl
@[simp] theorem issue_seq (w : Bool) (m : Nat) : (issue w m s).seq = s.seq := rfl
@[simp] theorem issue_rspData (w : Bool) (m : Nat) : (issue w m s).rspData = s.rspData := rfl
@[simp] theorem issue_io (w : Bool) (m : Nat) : (issue w m s).io = if s.cfg.tGap = 0 then .request ⟨w, s.dev, m⟩ else .gap s.cfg.tGap ⟨w, s.dev, m⟩ := rfl
@[simp] theorem issue_shreg (w : Bool) (m : Nat) : (issue w m s).shreg = s.shreg := rfl
@[simp] theorem issue_bitcnt (w : Bool) (m : Nat) : (issue w m s).bitcnt = s.bitcnt := rfl
@[simp] theorem issue_bytecnt (w : Bool) (m : Nat) : (issue w m s).bytecnt = s.bytecnt := rfl
@[simp] theorem issue_ackcnt (w : Bool) (m : Nat) : (issue w m s).ackcnt = s.ackcnt := rfl
@[simp] theorem issue_remaining (w : Bool) (m : Nat) : (issue w m s).remaining = s.remaining := rfl
@[simp] theorem issue_t0 (w : Bool) (m : Nat) : (issue w m s).t0 = s.t0 := rfl
@[simp] theorem issue_t1 (w : Bool) (m : Nat) : (issue w m s).t1 = s.t1 := rfl
@[simp] theorem issue_draining (w : Bool) (m : Nat) : (issue w m s).draining = s.draining := rfl
@[simp] theorem issue_err (w : Bool) (m : Nat) : (issue w m s).err = s.err := rfl
@[simp] theorem issue_addrAck (w : Bool) (m : Nat) : (issue w m s).addrAck = s.addrAck := rfl
@[simp] theorem issue_cmd (w : Bool) (m : Nat) : (issue w m s).cmd = s.cmd := rfl
@[simp] theorem issue_todo (w : Bool) (m : Nat) : (issue w m s).todo = s.todo := rfl
@[simp] theorem issue_retval (w : Bool) (m : Nat) : (issue w m s).retval = s.retval := rfl
@[simp] theorem issue_inputs (w : Bool) (m : Nat) : (issue w m s).inputs = s.inputs := rfl
@[simp] theorem issue_trace (w : Bool) (m : Nat) : (issue w m s).trace = s.trace := rfl
@[simp] theorem issue_responses (w : Bool) (m : Nat) : (issue w m s).responses = s.responses := rfl

/-! ### `storeDrv`, `issueLines`, `issueRead`, `setLine` -/

@[simp] theorem storeDrv_cfg (l : Line) (v : Bool) : (storeDrv l v s).cfg = s.cfg := by cases l <;> rfl
@[simp] theorem storeDrv_bound (l : Line) (v : Bool) : (storeDrv l v s).bound = s.bound := by cases l <;> rfl
@[simp] theorem storeDrv_dev (l : Line) (v : Bool) : (storeDrv l v s).dev = s.dev := by cases l <;> rfl
@[simp] theorem storeDrv_sdaPin (l : Line) (v : Bool) : (storeDrv l v s).sdaPin = s.sdaPin := by cases l <;> rfl
@[simp] theorem storeDrv_sclPin (l : Line) (v : Bool) : (storeDrv l v s).sclPin = s.sclPin := by cases l <;> rfl
@[simp] theorem storeDrv_sdaDrv (l : Line) (v : Bool) : (storeDrv l v s).sdaDrv = (if l = .sda then v else s.sdaDrv) := by cases l <;> rfl
@[simp] theorem storeDrv_sclDrv (l : Line) (v : Bool) : (storeDrv l v s).sclDrv = (if l = .scl then v else s.sclDrv) := by cases l <;> rfl
@[simp] theorem storeDrv_busActive (l : Line) (v : Bool) : (storeDrv l v s).busActive = s.busActive := by cases l <;> rfl
@[simp] theorem storeDrv_lastDir (l : Line) (v : Bool) : (storeDrv l v s).lastDir = s.lastDir := by cases l <;> rfl
@[simp] theorem storeDrv_rxbuf (l : Line) (v : Bool) : (storeDrv l v s).rxbuf = s.rxbuf := by cases l <;> rfl
@[simp] theorem storeDrv_seq (l : Line) (v : Bool) : (storeDrv l v s).seq = s.seq := by cases l <;> rfl
@[simp] theorem storeDrv_rspData (l : Line) (v : Bool) : (storeDrv l v s).rspData = s.rspData := by cases l <;> rfl
@[simp] theorem storeDrv_io (l : Line) (v : Bool) : (storeDrv l v s).io = s.io := by cases l <;> rfl
@[simp] theorem storeDrv_shreg (l : Line) (v : Bool) : (storeDrv l v s).shreg = s.shreg := by cases l <;> rfl
@[simp] theorem storeDrv_bitcnt (l : Line) (v : Bool) : (storeDrv l v s).bitcnt = s.bitcnt := by cases l <;> rfl
@[simp] theorem storeDrv_bytecnt (l : Line) (v : Bool) : (storeDrv l v s).bytecnt = s.bytecnt := by cases l <;> rfl
@[simp] theorem storeDrv_ackcnt (l : Line) (v : Bool) : (storeDrv l v s).ackcnt = s.ackcnt := by cases l <;> rfl
@[simp] theorem storeDrv_remaining (l : Line) (v : Bool) : (storeDrv l v s).remaining = s.remaining := by cases l <;> rfl
@[simp] theorem storeDrv_t0 (l : Line) (v : Bool) : (storeDrv l v s).t0 = s.t0 := by cases l <;> rfl
@[simp] theorem storeDrv_t1 (l : Line) (v : Bool) : (storeDrv l v s).t1 = s.t1 := by cases l <;> rfl
@[simp] theorem storeDrv_draining (l : Line) (v : Bool) : (storeDrv l v s).draining = s.draining := by cases l <;> rfl
@[simp] theorem storeDrv_err (l : Line) (v : Bool) : (storeDrv l v s).err = s.err := by cases l <;> rfl
@[simp] theorem storeDrv_addrAck (l : Line) (v : Bool) : (storeDrv l v s).addrAck = s.addrAck := by cases l <;> rfl
@[simp] theorem storeDrv_cmd (l : Line) (v : Bool) : (storeDrv l v s).cmd = s.cmd := by cases l <;> rfl
@[simp] theorem storeDrv_todo (l : Line) (v : Bool) : (storeDrv l v s).todo = s.todo := by cases l <;> rfl
@[simp] theorem storeDrv_retval (l : Line) (v : Bool) : (storeDrv l v s).retval = s.retval := by cases l <;> rfl
@[simp] theorem storeDrv_inputs (l : Line) (v : Bool) : (storeDrv l v s).inputs = s.inputs := by cases l <;> rfl
@[simp] theorem storeDrv_trace (l : Line) (v : Bool) : (storeDrv l v s).trace = s.trace := by cases l <;> rfl
@[simp] theorem storeDrv_responses (l : Line) (v : Bool) : (storeDrv l v s).responses = s.responses := by cases l <;> rfl

@[simp] theorem storeDrv_drv_self (l : Line) (v : Bool) : (storeDrv l v s).drv l = v := by cases l <;> rfl
@[simp] theorem storeDrv_pin (l m : Line) (v : Bool) : (storeDrv l v s).pin m = s.pin m := by cases l <;> cases m <;> rfl
@[simp] theorem issueLines_eq : issueLines s = issue true (lineMask s) s := rfl
@[simp] theorem issueRead_eq (l : Line) : issueRead l s = issue false (pinSelect s.cfg.portW (s.pin l)) s := rfl
@[simp] theorem setLine_eq (l : Line) (v : Bool) : setLine l v s = issue true (lineMask (storeDrv l v s)) (storeDrv l v s) := rfl

end Sys2Proof.Machine
end

