-- ==== Sys2Proof/Laws/Engine.lean ====
section
/-!
SUPPORT. The sequencer: one primitive served by the environment, as an equation over the rest of the program.
-/

namespace Sys2Proof.Machine

@[simp] theorem andThen_next (s : State) (k : State → Result) : Result.andThen (.next s) k = k s := rfl
@[simp] theorem andThen_fault (f : Fault) (k : State → Result) : Result.andThen (.fault f) k = .fault f := rfl
@[simp] theorem andThen_refused (f : Refusal) (k : State → Result) : Result.andThen (.refused f) k = .refused f := rfl

theorem state_idle {s : State} (h : s.io = .idle) : setIo .idle s = s := by
  cases s; cases h; rfl

theorem respondBurst_todo (x : List Micro) (s : State) : respondBurst (setTodo x s) = respondBurst s := by
  simp only [respondBurst, setTodo_err]
  cases s.err <;> rfl

theorem advance_todo (now : Nat) (ops x : List Micro) (s : State) :
    advance now ops (setTodo x s) = advance now ops s := by
  induction ops generalizing s x with
  | nil => rfl
  | cons op k ih =>
    cases op with
    | setLine l v => cases l <;> rfl
    | markStretch => exact ih x (markT0 now s)
    | settle =>
      rw [advance, advance, setTodo_cfg]
      by_cases h : s.cfg.tSettle = 0
      · rw [if_pos h, if_pos h]
        exact ih x (markT1 now s)
      · rw [if_neg h, if_neg h]
        rfl
    | loadByte v => exact ih x (loadShift v s)
    | nextBit => exact ih x (countBit s)
    | storeBit => exact ih x (shiftIn s)
    | started dir => exact ih x (markStarted dir s)
    | stopped => exact ih x (markStopped s)
    | keepAddrAck => exact ih x (latchAddrAck s)
    | pushByte =>
      simp only [advance, fifoPush, setTodo_rxbuf, setTodo_cfg, setTodo_shreg]
      by_cases h : s.rxbuf.length < s.cfg.rxcap
      · simp only [h, if_true]
        exact ih x (countByte (setRxbuf (s.rxbuf ++ [s.shreg]) s))
      · simp only [h, if_false]
    | countAck => exact ih x (addAck s)
    | countedBeat =>
      simp only [advance, setTodo_remaining, respondBurst_todo]
      split <;> rfl
    | _ => rfl

/-- The rest `ops` of a program, run over the edges `es`. -/
def runFrom (now : Nat) (ops : List Micro) (es : List Edge) (s : State) : Result :=
  (advance now ops s).andThen (run es)

theorem runFrom_todo (now : Nat) (ops x : List Micro) (es : List Edge) (s : State) :
    runFrom now ops es (setTodo x s) = runFrom now ops es s := by
  rw [runFrom, advance_todo]; rfl

theorem run_busy {s : State} (h : s.seq = .busy) (e : Edge) (es : List Edge) :
    run (e :: es) s = (commandEdge e s).andThen (run es) := by
  rw [run, h]; simp only; cases commandEdge e s <;> rfl

theorem commandEdge_busy {s : State} {e : Edge} (h : s.seq = .busy) (hr : e.rst = false) :
    commandEdge e s = busyEdge e s := by simp [commandEdge, h, hr]

theorem run_awaitCompletion {s : State} {req : IoReq} {es es' : List Edge} {e : Edge} (hseq : s.seq = .busy)
    (hio : s.io = .outstanding req) (h : awaitCompletion es = some (e, es')) :
    run es s = (completePrimitive e req s).andThen (run es') := by
  induction es with
  | nil => simp [awaitCompletion] at h
  | cons e0 es ih =>
    simp only [awaitCompletion] at h
    cases hr : e0.rst
    · rw [run_busy hseq, commandEdge_busy hseq hr, busyEdge, hio]
      cases hv : e0.ioRspValid
      · simpa using ih (by simpa [hr, hv] using h)
      · simp only [hr, hv, if_true, if_false, Bool.false_eq_true, Option.some.injEq, Prod.mk.injEq] at h
        obtain ⟨rfl, rfl⟩ := h
        rfl
    · simp [hr] at h

theorem completePrimitive_io (e : Edge) (req : IoReq) (io : IoPort) (s : State) :
    completePrimitive e req (setIo io s) = completePrimitive e req (setIo .idle s) := rfl

theorem run_awaitTransfer {s : State} {req : IoReq} {es es' : List Edge} {e : Edge} (hseq : s.seq = .busy)
    (h : awaitTransfer es = some (e, es')) :
    run es (setIo (.request req) s) = (completePrimitive e req (setIo .idle s)).andThen (run es') := by
  induction es with
  | nil => simp [awaitTransfer] at h
  | cons e0 es ih =>
    simp only [awaitTransfer] at h
    cases hr : e0.rst
    · rw [run_busy (by simpa using hseq), commandEdge_busy (by simpa using hseq) hr, busyEdge, setIo_io]
      cases hv : e0.ioReqReady
      · simpa using ih (by simpa [hr, hv] using h)
      · simp only [hr, hv, if_true, if_false, Bool.false_eq_true] at h
        exact run_awaitCompletion (s := setIo (.outstanding req) s) hseq rfl h
    · simp [hr] at h

theorem run_gap {s : State} {req : IoReq} {n : Nat} {es es' : List Edge} {e : Edge} (hseq : s.seq = .busy)
    (h : serve (n + 1) es = some (e, es')) :
    run es (setIo (.gap (n + 1) req) s) = (completePrimitive e req (setIo .idle s)).andThen (run es') := by
  induction n generalizing es with
  | zero =>
    cases es with
    | nil => simp [serve] at h
    | cons e0 es =>
      cases hr : e0.rst
      · rw [run_busy (by simpa using hseq), commandEdge_busy (by simpa using hseq) hr, busyEdge, setIo_io]
        exact run_awaitTransfer (s := s) hseq (by simpa [serve, hr] using h)
      · simp [serve, hr] at h
  | succ n ih =>
    cases es with
    | nil => simp [serve] at h
    | cons e0 es =>
      cases hr : e0.rst
      · rw [run_busy (by simpa using hseq), commandEdge_busy (by simpa using hseq) hr, busyEdge, setIo_io]
        refine ih ?_
        rw [serve] at h
        simpa [hr] using h
      · simp [serve, hr] at h

/-- A primitive just issued, served by the environment. -/
theorem run_issue {s : State} {w : Bool} {m : Nat} {es es' : List Edge} {e : Edge} (hseq : s.seq = .busy)
    (h : serve s.cfg.tGap es = some (e, es')) :
    run es (issue w m s) = (completePrimitive e ⟨w, s.dev, m⟩ (setIo .idle s)).andThen (run es') := by
  unfold issue
  split
  case isTrue hg => exact run_awaitTransfer hseq (by simpa [hg, serve] using h)
  case isFalse hg =>
    obtain ⟨n, hn⟩ := Nat.exists_eq_succ_of_ne_zero hg
    rw [hn] at h ⊢
    exact run_gap hseq h

/-- A completion without an error: one event, and on with the program. -/
theorem completePrimitive_ok {s : State} {op : Micro} {k : List Micro} {e : Edge} {req : IoReq}
    (he : e.ioRspErr = false) :
    completePrimitive e req (setIo .idle (setTodo (op :: k) s)) =
      afterPrimitive e.nowMs op e.ioRspRaw k
        (setTodo (op :: k) (setIo .idle (emit (completionEvent op req e.ioRspRaw false s) s))) := by
  rw [completePrimitive, setIo_todo, setTodo_todo]; simp only [he]; rfl

theorem setTodo_setIo_emit {s : State} (ops : List Micro) (ev : Event) (h : s.io = .idle) :
    setTodo ops (setIo .idle (emit ev s)) = setTodo ops (emit ev s) := by
  rw [state_idle]; simpa using h

/-- A primitive that writes, served without an error (R144). -/
theorem runFrom_write {now : Nat} {op : Micro} {k : List Micro} {es es' : List Edge} {e : Edge} {s u : State}
    {m : Nat} (hadv : advance now (op :: k) s = .next (issue true m (setTodo (op :: k) u)))
    (hop : ∀ now raw k s, afterPrimitive now op raw k s = advance now k s)
    (hseq : u.seq = .busy) (hio : u.io = .idle) (h : serve u.cfg.tGap es = some (e, es'))
    (he : e.ioRspErr = false) :
    runFrom now (op :: k) es s = runFrom e.nowMs k es' (emit (.wrote u.dev m false) u) := by
  rw [runFrom, hadv, andThen_next, run_issue (by simpa using hseq) (by simpa using h), completePrimitive_ok he, hop,
    setTodo_setIo_emit _ _ hio, advance_todo, runFrom]
  rfl

/-- `SetLine`, served without an error (R146). -/
theorem runFrom_setLine {now : Nat} {l : Line} {v : Bool} {k : List Micro} {es es' : List Edge} {e : Edge} {s : State}
    (hseq : s.seq = .busy) (hio : s.io = .idle) (h : serve s.cfg.tGap es = some (e, es')) (he : e.ioRspErr = false) :
    runFrom now (.setLine l v :: k) es s =
      runFrom e.nowMs k es' (emit (.wrote s.dev (lineMask (storeDrv l v s)) false) (storeDrv l v s)) := by
  have := runFrom_write (now := now) (op := .setLine l v) (k := k) (s := s) (u := storeDrv l v s) (e := e)
    (m := lineMask (storeDrv l v s)) (es := es) (es' := es')
    (by cases l <;> rfl) (fun _ _ _ _ => rfl) (by simpa using hseq) (by simpa using hio) (by simpa using h) he
  simpa using this

/-- The first write of a `BitWrite` in a `ByteWrite`, served without an error (R183, R187). -/
theorem runFrom_driveBit {now : Nat} {k : List Micro} {es es' : List Edge} {e : Edge} {s : State}
    (hseq : s.seq = .busy) (hio : s.io = .idle) (h : serve s.cfg.tGap es = some (e, es')) (he : e.ioRspErr = false) :
    runFrom now (.driveBit :: k) es s =
      runFrom e.nowMs k es' (emit (.wrote s.dev (lineMask (storeDrv .sda (currentBit s) s)) false)
        (storeDrv .sda (currentBit s) s)) := by
  have := runFrom_write (now := now) (op := .driveBit) (k := k) (s := s) (u := storeDrv .sda (currentBit s) s) (e := e)
    (m := lineMask (storeDrv .sda (currentBit s) s)) (es := es) (es' := es')
    rfl (fun _ _ _ _ => rfl) (by simpa using hseq) (by simpa using hio) (by simpa using h) he
  simpa using this

/-- `BEGIN`'s one write, served without an error (R150). -/
theorem runFrom_writeLines {now : Nat} {k : List Micro} {es es' : List Edge} {e : Edge} {s : State}
    (hseq : s.seq = .busy) (hio : s.io = .idle) (h : serve s.cfg.tGap es = some (e, es')) (he : e.ioRspErr = false) :
    runFrom now (.writeLines :: k) es s =
      runFrom e.nowMs k es' (emit (.wrote s.dev (lineMask s) false) s) :=
  runFrom_write (op := .writeLines) rfl (fun _ _ _ _ => rfl) hseq hio h he

/-- A primitive that reads, served without an error (R145, R147). -/
theorem runFrom_read {now : Nat} {op : Micro} {l : Line} {k : List Micro} {es es' : List Edge} {e : Edge} {s : State}
    (hadv : advance now (op :: k) s = .next (issueRead l (setTodo (op :: k) s))) (hl : op.readsLine = l)
    (hseq : s.seq = .busy) (hio : s.io = .idle) (h : serve s.cfg.tGap es = some (e, es'))
    (he : e.ioRspErr = false) :
    runFrom now (op :: k) es s =
      (afterPrimitive e.nowMs op e.ioRspRaw k (setTodo (op :: k)
        (emit (.sampled s.dev (pinSelect s.cfg.portW (s.pin l)) l (some (e.ioRspRaw.testBit (s.pin l).toNat))) s))).andThen
        (run es') := by
  rw [runFrom, hadv, andThen_next, issueRead_eq, run_issue (by simpa using hseq) (by simpa using h), completePrimitive_ok he,
    setTodo_setIo_emit _ _ hio, completionEvent, hl]
  rfl

/-- The sample of `AckSample`, served without an error (R185). -/
theorem runFrom_sampleAck {now : Nat} {k : List Micro} {es es' : List Edge} {e : Edge} {s : State}
    (hseq : s.seq = .busy) (hio : s.io = .idle) (h : serve s.cfg.tGap es = some (e, es')) (he : e.ioRspErr = false) :
    runFrom now (.sampleAck :: k) es s =
      runFrom e.nowMs k es' (setRetval (!e.ioRspRaw.testBit s.sdaPin.toNat)
        (emit (readEvent s .sda (e.ioRspRaw.testBit s.sdaPin.toNat)) s)) := by
  rw [runFrom_read (l := .sda) rfl rfl hseq hio h he]
  exact congrArg (Result.andThen · (run es')) (advance_todo e.nowMs k (.sampleAck :: k)
    (setRetval (!e.ioRspRaw.testBit s.sdaPin.toNat)
      (emit (readEvent s .sda (e.ioRspRaw.testBit s.sdaPin.toNat)) s)))

/-- The sample of `BitRead`, served without an error (R184). -/
theorem runFrom_sampleBit {now : Nat} {k : List Micro} {es es' : List Edge} {e : Edge} {s : State}
    (hseq : s.seq = .busy) (hio : s.io = .idle) (h : serve s.cfg.tGap es = some (e, es')) (he : e.ioRspErr = false) :
    runFrom now (.sampleBit :: k) es s =
      runFrom e.nowMs k es' (setRetval (e.ioRspRaw.testBit s.sdaPin.toNat)
        (emit (readEvent s .sda (e.ioRspRaw.testBit s.sdaPin.toNat)) s)) := by
  rw [runFrom_read (l := .sda) rfl rfl hseq hio h he]
  exact congrArg (Result.andThen · (run es')) (advance_todo e.nowMs k (.sampleBit :: k)
    (setRetval (e.ioRspRaw.testBit s.sdaPin.toNat)
      (emit (readEvent s .sda (e.ioRspRaw.testBit s.sdaPin.toNat)) s)))

/-- A poll of SCL that reads high ends the stretch wait (R184(a)). -/
theorem runFrom_pollScl_high {now : Nat} {k : List Micro} {es es' : List Edge} {e : Edge} {s : State}
    (hseq : s.seq = .busy) (hio : s.io = .idle) (h : serve s.cfg.tGap es = some (e, es')) (he : e.ioRspErr = false)
    (hl : e.ioRspRaw.testBit s.sclPin.toNat = true) :
    runFrom now (.pollScl :: k) es s = runFrom e.nowMs k es' (emit (readEvent s .scl true) s) := by
  rw [runFrom_read (l := .scl) rfl rfl hseq hio h he, afterPrimitive, afterPoll]
  simp only [setTodo_sclPin, emit_sclPin, hl, if_true, advance_todo]
  simp only [State.pin, hl]; rfl

/-- A poll of SCL that reads low within the deadline polls again (R184(b)). -/
theorem runFrom_pollScl_low {now : Nat} {k : List Micro} {es es' : List Edge} {e : Edge} {s : State}
    (hseq : s.seq = .busy) (hio : s.io = .idle) (h : serve s.cfg.tGap es = some (e, es')) (he : e.ioRspErr = false)
    (hl : e.ioRspRaw.testBit s.sclPin.toNat = false)
    (ht : ¬ s.cfg.tStretch < elapsed s.cfg (nowOf s.cfg e.nowMs) s.t0) :
    runFrom now (.pollScl :: k) es s = runFrom e.nowMs (.pollScl :: k) es' (emit (readEvent s .scl false) s) := by
  rw [runFrom_read (l := .scl) rfl rfl hseq hio h he, afterPrimitive, afterPoll]
  simp only [setTodo_sclPin, emit_sclPin, hl, setTodo_cfg, emit_cfg, setTodo_t0, emit_t0, ht, if_false, advance_todo,
    Bool.false_eq_true]
  simp only [State.pin, hl]; rfl

/-- A poll of SCL that reads low past the deadline ends the command with `TIMEOUT` (R184(b), R234). -/
theorem runFrom_pollScl_timeout {now : Nat} {k : List Micro} {es es' : List Edge} {e : Edge} {s : State}
    (hseq : s.seq = .busy) (hio : s.io = .idle) (h : serve s.cfg.tGap es = some (e, es')) (he : e.ioRspErr = false)
    (hl : e.ioRspRaw.testBit s.sclPin.toNat = false)
    (ht : s.cfg.tStretch < elapsed s.cfg (nowOf s.cfg e.nowMs) s.t0) :
    runFrom now (.pollScl :: k) es s =
      run es' (fail .timeout (countPayload s.addrAck s.bytecnt) (emit (readEvent s .scl false) s)) := by
  rw [runFrom_read (l := .scl) rfl rfl hseq hio h he, afterPrimitive, afterPoll]
  simp only [setTodo_sclPin, emit_sclPin, hl, setTodo_cfg, emit_cfg, setTodo_t0, emit_t0, ht, if_true,
    Bool.false_eq_true, if_false]
  simp only [State.pin, hl]; rfl
end Sys2Proof.Machine
end

