-- ==== Sys2Proof/Laws/Sequences.lean ====
section
/-!
SUPPORT. The line sequences of 41_bit_engine.md: what each does to the drive bits and the line trace.
-/

namespace Sys2Proof.Machine

theorem serveOk_succ {gap n : Nat} {es rest : List Edge} {cs : List Edge}
    (h : serveOk gap (n + 1) es = some (cs, rest)) :
    ∃ e es1 ds, serve gap es = some (e, es1) ∧ e.ioRspErr = false ∧ serveOk gap n es1 = some (ds, rest) ∧
      cs = e :: ds := by
  rw [serveOk] at h
  split at h
  · rename_i e es1 hs
    split at h
    · cases h
    · split at h
      · rename_i ds es2 hd
        cases h
        exact ⟨e, es1, ds, hs, by simp_all, hd, rfl⟩
      · cases h
  · cases h

theorem serveOk_zero {gap : Nat} {es rest cs : List Edge} (h : serveOk gap 0 es = some (cs, rest)) :
    cs = [] ∧ es = rest := by
  simpa [serveOk] using h

theorem serveOk_add {gap m n : Nat} {es rest cs : List Edge} (h : serveOk gap (m + n) es = some (cs, rest)) :
    ∃ c1 c2 mid, serveOk gap m es = some (c1, mid) ∧ serveOk gap n mid = some (c2, rest) ∧ cs = c1 ++ c2 ∧
      c1.length = m := by
  induction m generalizing es cs with
  | zero => exact ⟨[], cs, es, rfl, by simpa using h, rfl, rfl⟩
  | succ m ih =>
    rw [Nat.succ_add] at h
    obtain ⟨e, es1, ds, hs, he, hd, rfl⟩ := serveOk_succ h
    obtain ⟨c1, c2, mid, h1, h2, rfl, hl⟩ := ih hd
    exact ⟨e :: c1, c2, mid, by simp [serveOk, hs, he, h1], h2, rfl, by simp [hl]⟩

theorem serveOk_split {gap N : Nat} (m n : Nat) (hN : N = m + n) {es rest cs : List Edge}
    (h : serveOk gap N es = some (cs, rest)) :
    ∃ c1 c2 mid, serveOk gap m es = some (c1, mid) ∧ serveOk gap n mid = some (c2, rest) ∧ cs = c1 ++ c2 ∧
      c1.length = m := by
  subst hN; exact serveOk_add h

/-- The state `s` after the writes and reads of the events `evs`, which left the drive bits at `a`, `b`. -/
def onLines (a b : Bool) (evs : List Event) (s : State) : State :=
  { s with sdaDrv := a, sclDrv := b, trace := s.trace ++ evs }

theorem onLines_self (s : State) : onLines s.sdaDrv s.sclDrv [] s = s := by
  simp [onLines]

/-- The bits of `shreg` are done. -/
def setShift (v : Byte) (n : BitVec 4) (s : State) : State := { s with shreg := v, bitcnt := n }

theorem writeEvents_append (s : State) (ps qs : List (Bool × Bool)) :
    writeEvents s (ps ++ qs) = writeEvents s ps ++ writeEvents s qs := by simp [writeEvents]

variable {now : Nat} {k : List Micro} {es rest cs : List Edge} {e : Edge} {s : State} {a b : Bool} {evs : List Event}

theorem runFrom_setSda {v : Bool} (hseq : s.seq = .busy) (hio : s.io = .idle)
    (h : serve s.cfg.tGap es = some (e, rest)) (he : e.ioRspErr = false) :
    runFrom now (.setLine .sda v :: k) es (onLines a b evs s) =
      runFrom e.nowMs k rest (onLines v b (evs ++ writeEvents s [(v, b)]) s) := by
  rw [runFrom_setLine (s := onLines a b evs s) hseq hio h he]
  congr 1
  simp [emit, storeDrv, onLines, writeEvents, lineMask, List.append_assoc]

theorem runFrom_setScl {v : Bool} (hseq : s.seq = .busy) (hio : s.io = .idle)
    (h : serve s.cfg.tGap es = some (e, rest)) (he : e.ioRspErr = false) :
    runFrom now (.setLine .scl v :: k) es (onLines a b evs s) =
      runFrom e.nowMs k rest (onLines a v (evs ++ writeEvents s [(a, v)]) s) := by
  rw [runFrom_setLine (s := onLines a b evs s) hseq hio h he]
  congr 1
  simp [emit, storeDrv, onLines, writeEvents, lineMask, List.append_assoc]

theorem runFrom_drive (hseq : s.seq = .busy) (hio : s.io = .idle)
    (h : serve s.cfg.tGap es = some (e, rest)) (he : e.ioRspErr = false) :
    runFrom now (.driveBit :: k) es (onLines a b evs s) =
      runFrom e.nowMs k rest (onLines (currentBit s) b (evs ++ writeEvents s [(currentBit s, b)]) s) := by
  rw [runFrom_driveBit (s := onLines a b evs s) hseq hio h he]
  congr 1
  simp [emit, storeDrv, onLines, writeEvents, lineMask, currentBit, List.append_assoc]

theorem runFrom_start (hseq : s.seq = .busy) (hio : s.io = .idle)
    (h : serveOk s.cfg.tGap 4 es = some (cs, rest)) :
    ∃ now', runFrom now (startOps ++ k) es (onLines a b evs s) =
      runFrom now' k rest (onLines false false (evs ++ writeEvents s (startLevels b)) s) := by
  obtain ⟨e1, es1, ds1, h1, he1, g1, rfl⟩ := serveOk_succ h
  obtain ⟨e2, es2, ds2, h2, he2, g2, rfl⟩ := serveOk_succ g1
  obtain ⟨e3, es3, ds3, h3, he3, g3, rfl⟩ := serveOk_succ g2
  obtain ⟨e4, es4, ds4, h4, he4, g4, rfl⟩ := serveOk_succ g3
  obtain ⟨rfl, rfl⟩ := serveOk_zero g4
  refine ⟨e4.nowMs, ?_⟩
  simp only [startOps, List.cons_append, List.nil_append]
  rw [runFrom_setSda hseq hio h1 he1, runFrom_setScl hseq hio h2 he2, runFrom_setSda hseq hio h3 he3,
    runFrom_setScl hseq hio h4 he4]
  simp [startLevels, writeEvents]

theorem runFrom_stop (hseq : s.seq = .busy) (hio : s.io = .idle)
    (h : serveOk s.cfg.tGap 3 es = some (cs, rest)) :
    ∃ now', runFrom now (stopOps ++ k) es (onLines a b evs s) =
      runFrom now' k rest (onLines true true (evs ++ writeEvents s (stopLevels b)) s) := by
  obtain ⟨e1, es1, ds1, h1, he1, g1, rfl⟩ := serveOk_succ h
  obtain ⟨e2, es2, ds2, h2, he2, g2, rfl⟩ := serveOk_succ g1
  obtain ⟨e3, es3, ds3, h3, he3, g3, rfl⟩ := serveOk_succ g2
  obtain ⟨rfl, rfl⟩ := serveOk_zero g3
  refine ⟨e3.nowMs, ?_⟩
  simp only [stopOps, List.cons_append, List.nil_append]
  rw [runFrom_setSda hseq hio h1 he1, runFrom_setScl hseq hio h2 he2, runFrom_setSda hseq hio h3 he3]
  simp [stopLevels, writeEvents]

theorem runFrom_bitWrite {v : Bool} (hseq : s.seq = .busy) (hio : s.io = .idle)
    (h : serveOk s.cfg.tGap 3 es = some (cs, rest)) :
    ∃ now', runFrom now (bitWriteOps v ++ k) es (onLines a b evs s) =
      runFrom now' k rest (onLines v false (evs ++ writeEvents s (bitWriteLevels b v)) s) := by
  obtain ⟨e1, es1, ds1, h1, he1, g1, rfl⟩ := serveOk_succ h
  obtain ⟨e2, es2, ds2, h2, he2, g2, rfl⟩ := serveOk_succ g1
  obtain ⟨e3, es3, ds3, h3, he3, g3, rfl⟩ := serveOk_succ g2
  obtain ⟨rfl, rfl⟩ := serveOk_zero g3
  refine ⟨e3.nowMs, ?_⟩
  simp only [bitWriteOps, List.cons_append, List.nil_append]
  rw [runFrom_setSda hseq hio h1 he1, runFrom_setScl hseq hio h2 he2, runFrom_setScl hseq hio h3 he3]
  simp [bitWriteLevels, writeEvents]

/-- One bit of a `ByteWrite` (R183, R187). -/
theorem runFrom_shiftOut {v : Byte} {i : BitVec 4} (hseq : s.seq = .busy) (hio : s.io = .idle)
    (h : serveOk s.cfg.tGap 3 es = some (cs, rest)) :
    ∃ now', runFrom now (shiftOutOps ++ k) es (onLines a b evs (setShift v i s)) =
      runFrom now' k rest (onLines (v.getLsbD (7 - i.toNat)) false
        (evs ++ writeEvents s (bitWriteLevels b (v.getLsbD (7 - i.toNat)))) (setShift v (i + 1#4) s)) := by
  obtain ⟨e1, es1, ds1, h1, he1, g1, rfl⟩ := serveOk_succ h
  obtain ⟨e2, es2, ds2, h2, he2, g2, rfl⟩ := serveOk_succ g1
  obtain ⟨e3, es3, ds3, h3, he3, g3, rfl⟩ := serveOk_succ g2
  obtain ⟨rfl, rfl⟩ := serveOk_zero g3
  refine ⟨e3.nowMs, ?_⟩
  simp only [shiftOutOps, List.cons_append, List.nil_append]
  rw [runFrom_drive (s := setShift v i s) hseq hio h1 he1, runFrom_setScl (s := setShift v i s) hseq hio h2 he2,
    runFrom_setScl (s := setShift v i s) hseq hio h3 he3]
  simp only [bitWriteLevels, writeEvents, List.append_assoc]
  rfl

theorem runFrom_ackRead (hseq : s.seq = .busy) (hio : s.io = .idle)
    (h : serve s.cfg.tGap es = some (e, rest)) (he : e.ioRspErr = false) :
    runFrom now (.sampleAck :: k) es (onLines a b evs s) =
      runFrom e.nowMs k rest (onLines a b (evs ++ [readEvent s .sda (e.ioRspRaw.testBit s.sdaPin.toNat)])
        (setRetval (!e.ioRspRaw.testBit s.sdaPin.toNat) s)) := by
  rw [runFrom_sampleAck (s := onLines a b evs s) hseq hio h he]
  congr 1
  simp [setRetval, emit, onLines, readEvent, State.pin]

theorem runFrom_bitSample (hseq : s.seq = .busy) (hio : s.io = .idle)
    (h : serve s.cfg.tGap es = some (e, rest)) (he : e.ioRspErr = false) :
    runFrom now (.sampleBit :: k) es (onLines a b evs s) =
      runFrom e.nowMs k rest (onLines a b (evs ++ [readEvent s .sda (e.ioRspRaw.testBit s.sdaPin.toNat)])
        (setRetval (e.ioRspRaw.testBit s.sdaPin.toNat) s)) := by
  rw [runFrom_sampleBit (s := onLines a b evs s) hseq hio h he]
  congr 1
  simp [setRetval, emit, onLines, readEvent, State.pin]

theorem runFrom_ackSample (hseq : s.seq = .busy) (hio : s.io = .idle)
    (h : serveOk s.cfg.tGap 5 es = some (cs, rest)) :
    ∃ now', runFrom now (ackSampleOps ++ k) es (onLines a b evs s) =
      runFrom now' k rest (onLines false false
        (evs ++ writeEvents s [(true, b), (true, true)] ++ [readEvent s .sda (levelAt cs 2 s.sdaPin)] ++
          writeEvents s [(true, false), (false, false)]) (setRetval (!levelAt cs 2 s.sdaPin) s)) := by
  obtain ⟨e1, es1, ds1, h1, he1, g1, rfl⟩ := serveOk_succ h
  obtain ⟨e2, es2, ds2, h2, he2, g2, rfl⟩ := serveOk_succ g1
  obtain ⟨e3, es3, ds3, h3, he3, g3, rfl⟩ := serveOk_succ g2
  obtain ⟨e4, es4, ds4, h4, he4, g4, rfl⟩ := serveOk_succ g3
  obtain ⟨e5, es5, ds5, h5, he5, g5, rfl⟩ := serveOk_succ g4
  obtain ⟨rfl, rfl⟩ := serveOk_zero g5
  refine ⟨e5.nowMs, ?_⟩
  simp only [ackSampleOps, List.cons_append, List.nil_append]
  have hl : levelAt [e1, e2, e3, e4, e5] 2 s.sdaPin = e3.ioRspRaw.testBit s.sdaPin.toNat := rfl
  rw [runFrom_setSda hseq hio h1 he1, runFrom_setScl hseq hio h2 he2, runFrom_ackRead hseq hio h3 he3, hl]
  generalize e3.ioRspRaw.testBit s.sdaPin.toNat = l
  rw [runFrom_setScl (s := setRetval (!l) s) hseq hio h4 he4, runFrom_setSda (s := setRetval (!l) s) hseq hio h5 he5]
  simp [writeEvents, List.append_assoc]

/-- `ByteWrite(v)` (R187): its eight bits, its ACK window, and the ack it returns. -/
theorem runFrom_byteWrite {v : Byte} (hseq : s.seq = .busy) (hio : s.io = .idle)
    (h : serveOk s.cfg.tGap 29 es = some (cs, rest)) :
    ∃ now', runFrom now (byteWriteOps v ++ k) es (onLines a b evs s) =
      runFrom now' k rest (onLines false false (evs ++ byteWriteEvents s b v (ackOf cs s.sdaPin))
        (setRetval (ackOf cs s.sdaPin) (setShift v 8#4 s))) := by
  obtain ⟨c0, r0, m0, h0, g0, rfl, hl0⟩ := serveOk_split 3 26 rfl h
  obtain ⟨c1, r1, m1, h1, g1, rfl, hl1⟩ := serveOk_split 3 23 rfl g0
  obtain ⟨c2, r2, m2, h2, g2, rfl, hl2⟩ := serveOk_split 3 20 rfl g1
  obtain ⟨c3, r3, m3, h3, g3, rfl, hl3⟩ := serveOk_split 3 17 rfl g2
  obtain ⟨c4, r4, m4, h4, g4, rfl, hl4⟩ := serveOk_split 3 14 rfl g3
  obtain ⟨c5, r5, m5, h5, g5, rfl, hl5⟩ := serveOk_split 3 11 rfl g4
  obtain ⟨c6, r6, m6, h6, g6, rfl, hl6⟩ := serveOk_split 3 8 rfl g5
  obtain ⟨c7, r7, m7, h7, h8, rfl, hl7⟩ := serveOk_split 3 5 rfl g6
  have hack : ackOf (c0 ++ (c1 ++ (c2 ++ (c3 ++ (c4 ++ (c5 ++ (c6 ++ (c7 ++ r7)))))))) s.sdaPin =
      !levelAt r7 2 s.sdaPin := by
    simp [ackOf, levelAt, List.getElem?_append, hl0, hl1, hl2, hl3, hl4, hl5, hl6, hl7]
  have hload : runFrom now (byteWriteOps v ++ k) es (onLines a b evs s) =
      runFrom now (repeatOps 8 shiftOutOps ++ ackSampleOps ++ k) es (onLines a b evs (setShift v 0#4 s)) := by
    simp only [byteWriteOps, List.cons_append]; rfl
  rw [hload, hack]
  simp only [repeatOps, List.append_nil, List.append_assoc]
  obtain ⟨n0, e0⟩ := runFrom_shiftOut (s := s) (now := now) (i := 0#4) (v := v) (a := a) (b := b) (evs := evs)
    (k := shiftOutOps ++ (shiftOutOps ++ (shiftOutOps ++ (shiftOutOps ++ (shiftOutOps ++ (shiftOutOps ++ (shiftOutOps ++ (ackSampleOps ++ k)))))))) hseq hio h0
  rw [e0]
  obtain ⟨n1, e1⟩ := runFrom_shiftOut (s := s) (now := n0) (v := v) hseq hio h1
  rw [e1]
  obtain ⟨n2, e2⟩ := runFrom_shiftOut (s := s) (now := n1) (v := v) hseq hio h2
  rw [e2]
  obtain ⟨n3, e3⟩ := runFrom_shiftOut (s := s) (now := n2) (v := v) hseq hio h3
  rw [e3]
  obtain ⟨n4, e4⟩ := runFrom_shiftOut (s := s) (now := n3) (v := v) hseq hio h4
  rw [e4]
  obtain ⟨n5, e5⟩ := runFrom_shiftOut (s := s) (now := n4) (v := v) hseq hio h5
  rw [e5]
  obtain ⟨n6, e6⟩ := runFrom_shiftOut (s := s) (now := n5) (v := v) hseq hio h6
  rw [e6]
  obtain ⟨n7, e7⟩ := runFrom_shiftOut (s := s) (now := n6) (v := v) hseq hio h7
  rw [e7]
  obtain ⟨n8, e8⟩ := runFrom_ackSample (s := setShift v (0#4 + 1#4 + 1#4 + 1#4 + 1#4 + 1#4 + 1#4 + 1#4 + 1#4) s)
    (now := n7) (k := k) hseq hio h8
  refine ⟨n8, ?_⟩
  rw [e8]
  congr 2
  simp [byteWriteEvents, byteLevels, writeEvents, bitWriteLevels, readEvent, setShift, State.pin]

end Sys2Proof.Machine
end

