-- ==== Sys2Proof/Laws/BitReads.lean ====
section
/-!
SUPPORT. The bit-read with its stretch and settle waits (41_bit_engine.md R184, R188).
-/

namespace Sys2Proof.Machine

/-- The marks of the stretch deadline and the settle wait. -/
def setTimes (u v : Nat) (s : State) : State := { s with t0 := u, t1 := v }

variable {now : Nat} {k : List Micro} {es rest cs : List Edge} {e : Edge} {s : State} {a b : Bool} {evs : List Event}

theorem runFrom_pollHigh (hseq : s.seq = .busy) (hio : s.io = .idle)
    (h : serve s.cfg.tGap es = some (e, rest)) (he : e.ioRspErr = false)
    (hl : e.ioRspRaw.testBit s.sclPin.toNat = true) :
    runFrom now (.pollScl :: k) es (onLines a b evs s) =
      runFrom e.nowMs k rest (onLines a b (evs ++ [readEvent s .scl true]) s) := by
  rw [runFrom_pollScl_high (s := onLines a b evs s) hseq hio h he hl]
  congr 1
  simp [emit, onLines, readEvent, State.pin]

theorem runFrom_pollLow (hseq : s.seq = .busy) (hio : s.io = .idle)
    (h : serve s.cfg.tGap es = some (e, rest)) (he : e.ioRspErr = false)
    (hl : e.ioRspRaw.testBit s.sclPin.toNat = false)
    (ht : ¬ s.cfg.tStretch < elapsed s.cfg (nowOf s.cfg e.nowMs) s.t0) :
    runFrom now (.pollScl :: k) es (onLines a b evs s) =
      runFrom e.nowMs (.pollScl :: k) rest (onLines a b (evs ++ [readEvent s .scl false]) s) := by
  rw [runFrom_pollScl_low (s := onLines a b evs s) hseq hio h he hl ht]
  congr 1
  simp [emit, onLines, readEvent, State.pin]

/-- Low polls within the deadline (R184). -/
theorem runFrom_lowPolls {n : Nat} (hseq : s.seq = .busy) (hio : s.io = .idle)
    (h : serveLowPolls s.cfg s.sclPin s.t0 n es = some rest) :
    ∃ now', runFrom now (.pollScl :: k) es (onLines a b evs s) =
      runFrom now' (.pollScl :: k) rest (onLines a b (evs ++ List.replicate n (readEvent s .scl false)) s) := by
  induction n generalizing now es evs with
  | zero =>
    simp only [serveLowPolls, Option.some.injEq] at h
    subst h
    exact ⟨now, by simp⟩
  | succ n ih =>
    rw [serveLowPolls] at h
    split at h
    · rename_i e es1 hs
      split at h
      · cases h
      · rename_i hc
        simp only [Bool.or_eq_true, decide_eq_true_eq, not_or, Bool.not_eq_true] at hc
        obtain ⟨now', ih⟩ := ih (now := e.nowMs) (evs := evs ++ [readEvent s .scl false]) h
        refine ⟨now', ?_⟩
        rw [runFrom_pollLow hseq hio hs hc.1.1 hc.1.2 hc.2, ih]
        simp [List.replicate_succ]
    · cases h

theorem run_awaitSettle (hseq : s.seq = .busy) (hio : s.io = .idle) (htodo : s.todo = .settle :: k)
    (h : awaitSettle s.cfg s.t1 es = some rest) : ∃ now', run es s = runFrom now' k rest s := by
  induction es with
  | nil => simp [awaitSettle] at h
  | cons e es ih =>
    simp only [awaitSettle] at h
    cases hr : e.rst
    · rw [run_busy hseq, commandEdge_busy hseq hr, busyEdge, hio, settleEdge, htodo]
      by_cases ht : s.cfg.tSettle ≤ elapsed s.cfg (nowOf s.cfg e.nowMs) s.t1
      · simp only [hr, ht, if_true, Bool.false_eq_true, if_false, Option.some.injEq] at h
        subst h
        exact ⟨e.nowMs, by simp only [ht, if_true]; rfl⟩
      · simp only [ht, if_false, andThen_next]
        exact ih (by simpa [hr, ht] using h)
    · simp [hr] at h

/-- A whole settle wait (R149, R184). -/
theorem runFrom_settle (hseq : s.seq = .busy) (hio : s.io = .idle)
    (h : serveSettle s.cfg (nowOf s.cfg now) es = some rest) :
    ∃ now', runFrom now (.settle :: k) es s = runFrom now' k rest (markT1 now s) := by
  unfold serveSettle at h
  split at h
  · rename_i hz
    cases h
    exact ⟨now, by simp only [runFrom, advance, hz, if_true]⟩
  · rename_i hz
    obtain ⟨now', h'⟩ := run_awaitSettle (s := markT1 now (setTodo (.settle :: k) s)) (k := k) hseq hio rfl h
    refine ⟨now', ?_⟩
    simp only [runFrom, advance, hz, if_false, andThen_next]
    rw [h']
    exact congrArg (Result.andThen · (run rest)) (advance_todo now' k (.settle :: k) (markT1 now s))

/-- `BitRead()` entered with SCL low, which returns `v` after `n` low polls (R184). -/
theorem runFrom_bitRead {n : Nat} {v : Bool} (hseq : s.seq = .busy) (hio : s.io = .idle)
    (h : serveBitRead s.cfg s.sdaPin s.sclPin n es = some (v, rest)) :
    ∃ now' x y, runFrom now (bitReadOps ++ k) es (onLines a false evs s) =
      runFrom now' k rest (onLines true false (evs ++ bitReadEvents s n v) (setRetval v (setTimes x y s))) := by
  unfold serveBitRead at h
  split at h
  case h_2 => cases h
  rename_i cs es1 h1
  obtain ⟨e1, m1, d1, hs1, he1, g1, rfl⟩ := serveOk_succ h1
  obtain ⟨e2, m2, d2, hs2, he2, g2, rfl⟩ := serveOk_succ g1
  obtain ⟨rfl, rfl⟩ := serveOk_zero g2
  simp only [List.getElem?_cons_succ, List.getElem?_cons_zero] at h
  split at h
  case h_2 => cases h
  rename_i es2 h2
  split at h
  case h_2 => cases h
  rename_i e3 es3 h3
  split at h
  case isTrue => cases h
  rename_i hc
  simp only [Bool.or_eq_true, Bool.not_eq_true', not_or, Bool.not_eq_true, Bool.not_eq_false] at hc
  split at h
  case h_2 => cases h
  rename_i es4 h4
  split at h
  case h_2 => cases h
  rename_i ds es5 h5
  cases h
  obtain ⟨e5, m5, d5, hs5, he5, g5, rfl⟩ := serveOk_succ h5
  obtain ⟨e6, m6, d6, hs6, he6, g6, rfl⟩ := serveOk_succ g5
  obtain ⟨rfl, rfl⟩ := serveOk_zero g6
  have hl : levelAt [e5, e6] 0 s.sdaPin = e5.ioRspRaw.testBit s.sdaPin.toNat := rfl
  rw [hl]
  simp only [bitReadOps, List.cons_append, List.nil_append]
  rw [runFrom_setSda hseq hio hs1 he1, runFrom_setScl hseq hio hs2 he2]
  have hm : runFrom e2.nowMs (.markStretch :: .pollScl :: .settle :: .sampleBit :: .setLine .scl false :: k) m2
      (onLines true true (evs ++ writeEvents s [(true, false)] ++ writeEvents s [(true, true)]) s) =
      runFrom e2.nowMs (.pollScl :: .settle :: .sampleBit :: .setLine .scl false :: k) m2
      (onLines true true (evs ++ writeEvents s [(true, false)] ++ writeEvents s [(true, true)]) (markT0 e2.nowMs s)) := rfl
  rw [hm]
  obtain ⟨n1, p1⟩ := runFrom_lowPolls (s := markT0 e2.nowMs s) (now := e2.nowMs) (n := n)
    (k := .settle :: .sampleBit :: .setLine .scl false :: k) (a := true) (b := true)
    (evs := evs ++ writeEvents s [(true, false)] ++ writeEvents s [(true, true)]) hseq hio h2
  rw [p1, runFrom_pollHigh (s := markT0 e2.nowMs s) hseq hio h3 hc.1 hc.2]
  obtain ⟨n2, p2⟩ := runFrom_settle (now := e3.nowMs) (k := .sampleBit :: .setLine .scl false :: k)
    (s := onLines true true (evs ++ writeEvents s [(true, false)] ++ writeEvents s [(true, true)] ++
      List.replicate n (readEvent (markT0 e2.nowMs s) Line.scl false) ++ [readEvent (markT0 e2.nowMs s) Line.scl true])
      (markT0 e2.nowMs s)) hseq hio h4
  rw [p2]
  have hx : ∀ evs', markT1 e3.nowMs (onLines true true evs' (markT0 e2.nowMs s)) =
      onLines true true evs' (setTimes (nowOf s.cfg e2.nowMs) (nowOf s.cfg e3.nowMs) s) := fun _ => rfl
  rw [hx, runFrom_bitSample (s := setTimes (nowOf s.cfg e2.nowMs) (nowOf s.cfg e3.nowMs) s) hseq hio hs5 he5]
  refine ⟨e6.nowMs, nowOf s.cfg e2.nowMs, nowOf s.cfg e3.nowMs, ?_⟩
  generalize hb : e5.ioRspRaw.testBit (setTimes (nowOf s.cfg e2.nowMs) (nowOf s.cfg e3.nowMs) s).sdaPin.toNat = v
  have hb' : e5.ioRspRaw.testBit s.sdaPin.toNat = v := hb
  rw [hb', runFrom_setScl (s := setRetval v (setTimes (nowOf s.cfg e2.nowMs) (nowOf s.cfg e3.nowMs) s)) hseq hio hs6 he6]
  simp [bitReadEvents, writeEvents, readEvent, State.pin, setTimes, setRetval, markT0]

/-- `shreg` after the bits `bs` have been shifted in from bit `7 - i` down. -/
def shiftAll : Byte → BitVec 4 → List Bool → Byte
  | v, _, [] => v
  | v, i, b :: bs => shiftAll (setBit v (7 - i.toNat) b) (i + 1#4) bs

theorem shiftAll_eight (bs : List Bool) (h : bs.length = 8) : shiftAll 0#8 0#4 bs = byteOfBits bs := by
  match bs, h with
  | [b7, b6, b5, b4, b3, b2, b1, b0], _ =>
    revert b7 b6 b5 b4 b3 b2 b1 b0
    decide

theorem serveBits_length {c : Config} {p q : Pin} {ns : List Nat} {bs : List Bool}
    (h : serveBits c p q ns es = some (bs, rest)) : bs.length = ns.length := by
  induction ns generalizing es bs with
  | nil => simp [serveBits] at h; simp [h.1.symm]
  | cons n ns ih =>
    rw [serveBits] at h
    split at h
    · split at h
      · rename_i h2; cases h; simp [ih h2]
      · cases h
    · cases h

/-- `BitRead`s one after another, each bit stored (R188). -/
theorem runFrom_bits {ns : List Nat} {bs : List Bool} {v : Byte} {i : BitVec 4} {r : Bool} {x y : Nat}
    (hseq : s.seq = .busy) (hio : s.io = .idle) (h : serveBits s.cfg s.sdaPin s.sclPin ns es = some (bs, rest)) :
    ∃ now' x' y' r', runFrom now (repeatOps ns.length (bitReadOps ++ [.storeBit]) ++ k) es
        (onLines a false evs (setRetval r (setTimes x y (setShift v i s)))) =
      runFrom now' k rest (onLines (if ns = [] then a else true) false (evs ++ bitsEvents s ns bs)
        (setRetval r' (setTimes x' y' (setShift (shiftAll v i bs) (i + BitVec.ofNat 4 ns.length) s)))) := by
  induction ns generalizing es bs now v i r x y evs a with
  | nil =>
    simp [serveBits] at h
    obtain ⟨rfl, rfl⟩ := h
    exact ⟨now, x, y, r, by simp [repeatOps, bitsEvents, shiftAll]⟩
  | cons n ns ih =>
    rw [serveBits] at h
    split at h
    case h_2 => cases h
    rename_i b es1 h1
    split at h
    case h_2 => cases h
    rename_i bs' es2 h2
    cases h
    simp only [List.length_cons, repeatOps, List.append_assoc]
    obtain ⟨n1, x1, y1, p1⟩ := runFrom_bitRead (s := setRetval r (setTimes x y (setShift v i s))) (now := now) (a := a)
      (evs := evs) (k := [.storeBit] ++ (repeatOps ns.length (bitReadOps ++ [.storeBit]) ++ k)) hseq hio h1
    rw [p1]
    have hst : ∀ evs', runFrom n1 ([.storeBit] ++ (repeatOps ns.length (bitReadOps ++ [.storeBit]) ++ k)) es1
        (onLines true false evs' (setRetval b (setTimes x1 y1 (setRetval r (setTimes x y (setShift v i s)))))) =
        runFrom n1 (repeatOps ns.length (bitReadOps ++ [.storeBit]) ++ k) es1
        (onLines true false evs' (setRetval b (setTimes x1 y1 (setShift (setBit v (7 - i.toNat) b) (i + 1#4) s)))) :=
      fun _ => rfl
    rw [hst]
    obtain ⟨n2, x2, y2, r2, p2⟩ := ih (now := n1) (v := setBit v (7 - i.toNat) b) (i := i + 1#4) (r := b) (x := x1) (y := y1)
      (a := true) (evs := evs ++ bitReadEvents s n b) h2
    refine ⟨n2, x2, y2, r2, ?_⟩
    have he : bitReadEvents (setRetval r (setTimes x y (setShift v i s))) n b = bitReadEvents s n b := rfl
    rw [he, p2]
    simp only [ite_self, if_false, reduceCtorEq, bitsEvents, shiftAll, List.append_assoc]
    congr 5
    rw [BitVec.add_assoc]
    congr 1
    apply BitVec.eq_of_toNat_eq
    simp [Nat.add_comm]

end Sys2Proof.Machine
end

