-- ==== Sys2Proof/Laws/ReadBytes.lean ====
section
/-!
SUPPORT. The byte loop of `REQUEST_FROM` (41_bit_engine.md R188, 42_frame_layer.md R232).
-/

namespace Sys2Proof.Machine

variable {now : Nat} {k : List Micro} {es rest cs : List Edge} {e : Edge} {s : State} {a b : Bool} {evs : List Event}

/-- The working registers of a sequence: `shreg`, `bitcnt`, the two time marks and the value being returned. -/
def work (v : Byte) (i : BitVec 4) (x y : Nat) (r : Bool) (s : State) : State :=
  { s with shreg := v, bitcnt := i, t0 := x, t1 := y, retval := r }

theorem work_self (s : State) : work s.shreg s.bitcnt s.t0 s.t1 s.retval s = s := rfl

/-- `n` bytes received, the bytes `ds` pushed. -/
def received (ds : List Byte) (n : BitVec 8) (s : State) : State :=
  { s with rxbuf := s.rxbuf ++ ds, bytecnt := n }

theorem bitsEvents_received (ds : List Byte) (n : BitVec 8) (ns : List Nat) (bs : List Bool) :
    bitsEvents (received ds n s) ns bs = bitsEvents s ns bs := by
  induction ns generalizing bs with
  | nil => rfl
  | cons m ns ih =>
    cases bs with
    | nil => rfl
    | cons b bs => simp only [bitsEvents, ih]; rfl

/-- `ByteRead()` (R188). -/
theorem runFrom_byteRead {v : Byte} {i : BitVec 4} {x y : Nat} {r : Bool} {ns : List Nat} {bs : List Bool}
    (hseq : s.seq = .busy) (hio : s.io = .idle) (hn : ns.length = 8)
    (h : serveBits s.cfg s.sdaPin s.sclPin ns es = some (bs, rest)) :
    ∃ now' x' y' r', runFrom now (byteReadOps ++ k) es (onLines a false evs (work v i x y r s)) =
      runFrom now' k rest (onLines true false (evs ++ bitsEvents s ns bs) (work (byteOfBits bs) 8#4 x' y' r' s)) := by
  obtain ⟨n1, x1, y1, r1, p⟩ := runFrom_bits (now := now) (k := k) (a := a) (evs := evs) (v := 0#8) (i := 0#4)
    (r := r) (x := x) (y := y) hseq hio h
  refine ⟨n1, x1, y1, r1, ?_⟩
  have hl := serveBits_length h
  have hns : ns ≠ [] := by rintro rfl; simp at hn
  rw [shiftAll_eight bs (hl.trans hn), if_neg hns, hn] at p
  exact p

/-- The byte loop of `REQUEST_FROM` (R232): `nss.length` of the `total` bytes asked for. -/
theorem runFrom_readBytes {v : Byte} {i : BitVec 4} {x y : Nat} {r : Bool} {nss : List (List Nat)}
    {bss : List (List Bool)} {total : Nat} {ds : List Byte} {n : BitVec 8}
    (hseq : s.seq = .busy) (hio : s.io = .idle) (hle : nss.length ≤ total)
    (hroom : nss.length ≤ s.cfg.rxcap - (s.rxbuf.length + ds.length))
    (h : serveBytes s.cfg s.sdaPin s.sclPin nss es = some (bss, rest)) :
    ∃ now' v' i' x' y' r', runFrom now (readBytesOps s.cfg total ++ k) es
        (onLines a false evs (work v i x y r (received ds n s))) =
      runFrom now' (readBytesOps s.cfg (total - nss.length) ++ k) rest
        (onLines (if nss = [] then a else s.cfg.nackLast && decide (nss.length = total)) false
          (evs ++ bytesEvents s total nss bss)
          (work v' i' x' y' r' (received (ds ++ bss.map byteOfBits) (n + BitVec.ofNat 8 nss.length) s))) := by
  induction nss generalizing es bss now v i r x y evs a total ds n with
  | nil =>
    simp [serveBytes] at h
    obtain ⟨rfl, rfl⟩ := h
    exact ⟨now, v, i, x, y, r, by simp [bytesEvents]⟩
  | cons ns nss ih =>
    rw [serveBytes] at h
    split at h
    case isTrue => cases h
    rename_i hns
    split at h
    case h_2 => cases h
    rename_i bs es1 h1
    split at h
    case h_2 => cases h
    rename_i cs es2 h2
    split at h
    case h_2 => cases h
    rename_i bss' es3 h3
    cases h
    simp only [List.length_cons] at hle hroom
    obtain ⟨t, rfl⟩ : ∃ t, total = t + 1 := ⟨total - 1, by omega⟩
    simp only [readBytesOps, List.append_assoc]
    obtain ⟨n1, x1, y1, r1, p1⟩ := runFrom_byteRead (s := received ds n s) (now := now) (a := a) (evs := evs)
      (v := v) (i := i) (x := x) (y := y) (r := r)
      (k := [.pushByte] ++ (masterAckOps s.cfg (decide (t = 0)) ++ (readBytesOps s.cfg t ++ k))) hseq hio
      (not_not.mp hns) h1
    rw [p1, bitsEvents_received]
    have hpush : ∀ evs' k', runFrom n1 ([.pushByte] ++ k') es1
        (onLines true false evs' (work (byteOfBits bs) 8#4 x1 y1 r1 (received ds n s))) =
        runFrom n1 k' es1
          (onLines true false evs' (work (byteOfBits bs) 8#4 x1 y1 r1 (received (ds ++ [byteOfBits bs]) (n + 1#8) s))) := by
      intro evs' k'
      have hlt : (s.rxbuf ++ ds).length < s.cfg.rxcap := by rw [List.length_append]; omega
      simp only [runFrom, List.singleton_append, advance, fifoPush, onLines, work, received]
      rw [if_pos hlt]
      simp [setRxbuf, countByte, List.append_assoc]
    rw [hpush, masterAckOps]
    obtain ⟨n2, p2⟩ := runFrom_bitWrite (s := work (byteOfBits bs) 8#4 x1 y1 r1 (received (ds ++ [byteOfBits bs]) (n + 1#8) s))
      (now := n1) (a := true) (b := false) (evs := evs ++ bitsEvents s ns bs) (v := s.cfg.nackLast && decide (t = 0))
      (k := readBytesOps s.cfg t ++ k) hseq hio h2
    rw [p2]
    obtain ⟨n3, v3, i3, x3, y3, r3, p3⟩ := ih (now := n2) (a := s.cfg.nackLast && decide (t = 0))
      (evs := evs ++ bitsEvents s ns bs ++ writeEvents s (bitWriteLevels false (s.cfg.nackLast && decide (t = 0))))
      (v := byteOfBits bs) (i := 8#4) (x := x1) (y := y1) (r := r1) (total := t) (ds := ds ++ [byteOfBits bs]) (n := n + 1#8) (by omega)
      (by simp only [List.length_append, List.length_cons, List.length_nil]; omega) h3
    refine ⟨n3, v3, i3, x3, y3, r3, ?_⟩
    have hw : ∀ l, writeEvents (work (byteOfBits bs) 8#4 x1 y1 r1 (received (ds ++ [byteOfBits bs]) (n + 1#8) s)) l =
      writeEvents s l := fun _ => rfl
    rw [hw, p3]
    have hd : (n + 1#8) + BitVec.ofNat 8 nss.length = n + BitVec.ofNat 8 (nss.length + 1) := by
      rw [BitVec.add_assoc]; congr 1; apply BitVec.eq_of_toNat_eq; simp [Nat.add_comm]
    have hdec : decide (t + 1 = 1) = decide (t = 0) := by simp
    have hif : (if nss = [] then s.cfg.nackLast && decide (t = 0) else s.cfg.nackLast && decide (nss.length = t)) =
        (s.cfg.nackLast && decide ((ns :: nss).length = t + 1)) := by
      cases nss <;> simp [eq_comm]
    rw [hd, hif, if_neg (by simp)]
    simp only [bytesEvents, List.map_cons, List.append_assoc, List.length_cons, Nat.add_sub_add_right,
      Nat.add_sub_cancel, hdec, List.singleton_append]
end Sys2Proof.Machine
end

