-- ==== Sys2Proof/Laws/Bursts.lean ====
section
/-!
SUPPORT. Data beats: bursts that send them and bursts that drain them (30_encoding.md R112, 42_frame_layer.md R226, R228).
-/

namespace Sys2Proof.Machine

variable {now : Nat} {k : List Micro} {es rest cs : List Edge} {e : Edge} {s : State} {a b : Bool} {evs : List Event}

/-- At rest, a run gives the edges back. -/
theorem run_rest (h : s.seq = .ready ∨ s.seq = .resp) (es : List Edge) : run es s = .next (setInputs es s) := by
  cases es with
  | nil => rfl
  | cons e es => rw [run]; rcases h with h | h <;> rw [h]

theorem run_beatWait (h : s.seq = .beatWait) (e : Edge) (es : List Edge) :
    run (e :: es) s = (commandEdge e s).andThen (run es) := by
  rw [run, h]; simp only; cases commandEdge e s <;> rfl

/-- A data beat moves (30_encoding.md R112). -/
theorem run_awaitBeat {d : Byte} (hseq : s.seq = .beatWait) (h : awaitBeat es = some (d, rest)) :
    ∃ now, run es s = (takeBeat now d s).andThen (run rest) := by
  induction es with
  | nil => simp [awaitBeat] at h
  | cons e es ih =>
    simp only [awaitBeat] at h
    cases hr : e.rst
    · have hc : commandEdge e s = beatEdge e s := by simp [commandEdge, hseq, hr]
      rw [run_beatWait hseq, hc, beatEdge]
      cases hv : e.cmdValid
      · simpa using ih (by simpa [hr, hv] using h)
      · simp only [hr, hv, if_true, if_false, Bool.false_eq_true, Option.some.injEq, Prod.mk.injEq] at h
        obtain ⟨rfl, rfl⟩ := h
        exact ⟨e.nowMs, rfl⟩
    · simp [hr] at h

theorem setSeq_awaitNextBeat {ops : List Micro} (hseq : s.seq = .busy) :
    setSeq .busy (awaitNextBeat ops s) = setTodo ops (setRetval false s) := by
  cases s; cases hseq; rfl

theorem respondBurst_setRetval (r : Bool) : respondBurst (setRetval r s) = respondBurst s := by
  simp only [respondBurst, setRetval_err]
  rfl

/-- A beat of a counted burst that has not failed is sent (R226). -/
theorem takeBeat_counted {d : Byte} (hseq : s.seq = .busy) (herr : s.err = .ok) :
    takeBeat now d (awaitNextBeat [.countedBeat] s) =
      advance now (byteWriteOps d ++ [.countAck, .countedBeat]) (countBeat (setRetval false s)) := by
  simp only [takeBeat, awaitNextBeat_todo, awaitNextBeat_err, setSeq_awaitNextBeat hseq, herr, if_true]
  exact advance_todo now _ [.countedBeat] (countBeat (setRetval false s))

/-- A beat of a counted burst that has failed is discarded (R112). -/
theorem takeBeat_counted_drain {d : Byte} (hseq : s.seq = .busy) (herr : s.err ≠ .ok) :
    takeBeat now d (awaitNextBeat [.countedBeat] s) = advance now [.countedBeat] (countBeat (setRetval false s)) := by
  simp only [takeBeat, awaitNextBeat_todo, awaitNextBeat_err, setSeq_awaitNextBeat hseq, herr, if_false]
  exact advance_todo now _ [.countedBeat] (countBeat (setRetval false s))

/-- A beat of a text burst that has not failed is sent (R228). -/
theorem takeBeat_text {d : Byte} (hseq : s.seq = .busy) (herr : s.err = .ok) (hd : d ≠ 0x00#8) :
    takeBeat now d (awaitNextBeat [.textBeat] s) =
      advance now (byteWriteOps d ++ [.countAck, .textBeat]) (setRetval false s) := by
  simp only [takeBeat, awaitNextBeat_todo, awaitNextBeat_err, setSeq_awaitNextBeat hseq, herr, if_true, hd, if_false]
  exact advance_todo now _ [.textBeat] (setRetval false s)

/-- A beat of a text burst that has failed is discarded (R112). -/
theorem takeBeat_text_drain {d : Byte} (hseq : s.seq = .busy) (herr : s.err ≠ .ok) (hd : d ≠ 0x00#8) :
    takeBeat now d (awaitNextBeat [.textBeat] s) = advance now [.textBeat] (setRetval false s) := by
  simp only [takeBeat, awaitNextBeat_todo, awaitNextBeat_err, setSeq_awaitNextBeat hseq, herr, if_false, hd]
  exact advance_todo now _ [.textBeat] (setRetval false s)

/-- The terminator ends a text burst, failed or not (R228). -/
theorem takeBeat_text_end (hseq : s.seq = .busy) :
    takeBeat now 0x00#8 (awaitNextBeat [.textBeat] s) = .next (respondBurst s) := by
  simp only [takeBeat, awaitNextBeat_todo, setSeq_awaitNextBeat hseq, if_true, respondBurst_todo,
    respondBurst_setRetval]

/-- The registers of a burst. -/
def burstRegs (rem : BitVec 8) (ack : BitVec 16) (s : State) : State := { s with remaining := rem, ackcnt := ack }

/-- One beat of a counted burst that has not failed: the loop head, the beat, its `ByteWrite`, the count (R226). -/
theorem runFrom_countedByte {d : Byte} {rem : BitVec 8} {ack : BitVec 16} {v : Byte} {i : BitVec 4} {x y : Nat} {r : Bool}
    {es1 : List Edge} (hseq : s.seq = .busy) (hio : s.io = .idle) (herr : s.err = .ok) (hrem : rem ≠ 0#8)
    (hbeat : awaitBeat es = some (d, es1)) (h : serveOk s.cfg.tGap 29 es1 = some (cs, rest)) :
    ∃ now', runFrom now [.countedBeat] es (onLines a b evs (burstRegs rem ack (work v i x y r s))) =
      runFrom now' [.countedBeat] rest (onLines false false (evs ++ byteWriteEvents s b d (ackOf cs s.sdaPin))
        (burstRegs (rem - 1#8) (ack + (BitVec.ofBool (ackOf cs s.sdaPin)).zeroExtend 16)
          (work d 8#4 x y (ackOf cs s.sdaPin) s))) := by
  have h0 : runFrom now [.countedBeat] es (onLines a b evs (burstRegs rem ack (work v i x y r s))) =
      run es (awaitNextBeat [.countedBeat] (onLines a b evs (burstRegs rem ack (work v i x y r s)))) := by
    have hrem' : (onLines a b evs (burstRegs rem ack (work v i x y r s))).remaining ≠ 0#8 := hrem
    rw [runFrom, advance, if_neg hrem', andThen_next]
  obtain ⟨now1, h1⟩ := run_awaitBeat (s := awaitNextBeat [.countedBeat]
    (onLines a b evs (burstRegs rem ack (work v i x y r s)))) rfl hbeat
  have h2 := takeBeat_counted (now := now1) (d := d) (s := onLines a b evs (burstRegs rem ack (work v i x y r s))) hseq herr
  have h2' : countBeat (setRetval false (onLines a b evs (burstRegs rem ack (work v i x y r s)))) =
    onLines a b evs (burstRegs (rem - 1#8) ack (work v i x y false s)) := rfl
  rw [h0, h1, h2, h2']
  obtain ⟨now2, h3⟩ := runFrom_byteWrite (s := burstRegs (rem - 1#8) ack (work v i x y false s)) (now := now1) (a := a)
    (b := b) (evs := evs) (v := d) (k := [.countAck, .countedBeat]) hseq hio h
  exact ⟨now2, h3⟩

/-- One beat of a text burst that has not failed (R228). -/
theorem runFrom_textByte {d : Byte} {rem : BitVec 8} {ack : BitVec 16} {v : Byte} {i : BitVec 4} {x y : Nat} {r : Bool}
    {es1 : List Edge} (hseq : s.seq = .busy) (hio : s.io = .idle) (herr : s.err = .ok) (hd : d ≠ 0x00#8)
    (hbeat : awaitBeat es = some (d, es1)) (h : serveOk s.cfg.tGap 29 es1 = some (cs, rest)) :
    ∃ now', runFrom now [.textBeat] es (onLines a b evs (burstRegs rem ack (work v i x y r s))) =
      runFrom now' [.textBeat] rest (onLines false false (evs ++ byteWriteEvents s b d (ackOf cs s.sdaPin))
        (burstRegs rem (ack + (BitVec.ofBool (ackOf cs s.sdaPin)).zeroExtend 16)
          (work d 8#4 x y (ackOf cs s.sdaPin) s))) := by
  have h0 : runFrom now [.textBeat] es (onLines a b evs (burstRegs rem ack (work v i x y r s))) =
      run es (awaitNextBeat [.textBeat] (onLines a b evs (burstRegs rem ack (work v i x y r s)))) := rfl
  obtain ⟨now1, h1⟩ := run_awaitBeat (s := awaitNextBeat [.textBeat]
    (onLines a b evs (burstRegs rem ack (work v i x y r s)))) rfl hbeat
  have h2 := takeBeat_text (now := now1) (d := d) (s := onLines a b evs (burstRegs rem ack (work v i x y r s))) hseq herr hd
  have h2' : setRetval false (onLines a b evs (burstRegs rem ack (work v i x y r s))) =
    onLines a b evs (burstRegs rem ack (work v i x y false s)) := rfl
  rw [h0, h1, h2, h2']
  obtain ⟨now2, h3⟩ := runFrom_byteWrite (s := burstRegs rem ack (work v i x y false s)) (now := now1) (a := a)
    (b := b) (evs := evs) (v := d) (k := [.countAck, .textBeat]) hseq hio h
  exact ⟨now2, h3⟩

theorem ackCount_cons (d : Byte) (a : Bool) (ds : List (Byte × Bool)) :
    ackCount ((d, a) :: ds) = (BitVec.ofBool a).zeroExtend 16 + ackCount ds := by
  apply BitVec.eq_of_toNat_eq
  cases a <;> simp [ackCount, Nat.add_comm]

theorem byteWriteEvents_congr {s u : State} (h1 : u.dev = s.dev) (h2 : u.sdaPin = s.sdaPin) (h3 : u.sclPin = s.sclPin)
    (h4 : u.cfg = s.cfg) (b : Bool) (v : Byte) (a : Bool) : byteWriteEvents u b v a = byteWriteEvents s b v a := by
  simp [byteWriteEvents, writeEvents, readEvent, State.pin, h1, h2, h3, h4]

/-- A counted burst, `n` beats of it (R226). -/
theorem runFrom_counted {n : Nat} {ds : List (Byte × Bool)} {rem : BitVec 8} {ack : BitVec 16} {v : Byte} {i : BitVec 4}
    {x y : Nat} {r : Bool} (hseq : s.seq = .busy) (hio : s.io = .idle) (herr : s.err = .ok) (hrem : n ≤ rem.toNat)
    (h : serveBurst s.cfg.tGap s.sdaPin n es = some (ds, rest)) :
    ∃ now' v' i' r', runFrom now [.countedBeat] es (onLines a b evs (burstRegs rem ack (work v i x y r s))) =
      runFrom now' [.countedBeat] rest (onLines (a && decide (n = 0)) (b && decide (n = 0)) (evs ++ burstEvents s b ds)
        (burstRegs (rem - BitVec.ofNat 8 n) (ack + ackCount ds) (work v' i' x y r' s))) := by
  induction n generalizing es ds rem ack v i r now a b evs with
  | zero =>
    simp [serveBurst] at h
    obtain ⟨rfl, rfl⟩ := h
    exact ⟨now, v, i, r, by simp [burstEvents, ackCount]⟩
  | succ n ih =>
    rw [serveBurst] at h
    split at h
    case h_2 => cases h
    rename_i d es1 h1
    split at h
    case h_2 => cases h
    rename_i cs es2 h2
    split at h
    case h_2 => cases h
    rename_i ds' es3 h3
    cases h
    have hrem0 : rem ≠ 0#8 := by rintro rfl; simp at hrem
    obtain ⟨now1, p1⟩ := runFrom_countedByte (now := now) (a := a) (b := b) (evs := evs) (ack := ack) (v := v) (i := i) (x := x) (y := y) (r := r) hseq hio herr hrem0 h1 h2
    have hle : n ≤ (rem - 1#8).toNat := by
      have : 1 ≤ rem.toNat := by omega
      have := rem.isLt
      simp only [BitVec.toNat_sub, BitVec.toNat_ofNat]; omega
    obtain ⟨now2, v2, i2, r2, p2⟩ := ih (now := now1) (a := false) (b := false) (ack := ack + (BitVec.ofBool (ackOf cs s.sdaPin)).zeroExtend 16) (rem := rem - 1#8)
      (evs := evs ++ byteWriteEvents s b d (ackOf cs s.sdaPin)) (v := d) (i := 8#4) (r := ackOf cs s.sdaPin) hle h3
    refine ⟨now2, v2, i2, r2, ?_⟩
    rw [p1, p2, ackCount_cons, BitVec.add_assoc]
    have hr : rem - 1#8 - BitVec.ofNat 8 n = rem - BitVec.ofNat 8 (n + 1) := by
      apply BitVec.eq_of_toNat_eq
      simp only [BitVec.toNat_sub, BitVec.toNat_ofNat]
      have := rem.isLt
      omega
    rw [hr]
    simp [burstEvents]

/-- A text burst, `n` beats of it before the terminator (R228). -/
theorem runFrom_text {n : Nat} {ds : List (Byte × Bool)} {rem : BitVec 8} {ack : BitVec 16} {v : Byte} {i : BitVec 4}
    {x y : Nat} {r : Bool} (hseq : s.seq = .busy) (hio : s.io = .idle) (herr : s.err = .ok)
    (hd : ∀ d ∈ ds, d.1 ≠ 0x00#8) (h : serveBurst s.cfg.tGap s.sdaPin n es = some (ds, rest)) :
    ∃ now' v' i' r', runFrom now [.textBeat] es (onLines a b evs (burstRegs rem ack (work v i x y r s))) =
      runFrom now' [.textBeat] rest (onLines (a && decide (n = 0)) (b && decide (n = 0)) (evs ++ burstEvents s b ds)
        (burstRegs rem (ack + ackCount ds) (work v' i' x y r' s))) := by
  induction n generalizing es ds ack v i r now a b evs with
  | zero =>
    simp [serveBurst] at h
    obtain ⟨rfl, rfl⟩ := h
    exact ⟨now, v, i, r, by simp [burstEvents, ackCount]⟩
  | succ n ih =>
    rw [serveBurst] at h
    split at h
    case h_2 => cases h
    rename_i d es1 h1
    split at h
    case h_2 => cases h
    rename_i cs es2 h2
    split at h
    case h_2 => cases h
    rename_i ds' es3 h3
    cases h
    obtain ⟨now1, p1⟩ := runFrom_textByte (now := now) (a := a) (b := b) (evs := evs) (rem := rem) (ack := ack) (v := v) (i := i) (x := x) (y := y) (r := r) hseq hio herr (hd _ (List.mem_cons_self ..)) h1 h2
    obtain ⟨now2, v2, i2, r2, p2⟩ := ih (now := now1) (a := false) (b := false) (ack := ack + (BitVec.ofBool (ackOf cs s.sdaPin)).zeroExtend 16)
      (evs := evs ++ byteWriteEvents s b d (ackOf cs s.sdaPin)) (v := d) (i := 8#4) (r := ackOf cs s.sdaPin)
      (fun d' h' => hd d' (List.mem_cons_of_mem _ h')) h3
    refine ⟨now2, v2, i2, r2, ?_⟩
    rw [p1, p2, ackCount_cons, BitVec.add_assoc]
    simp [burstEvents]

/-- The beats of a counted burst that has failed (R112, R305). -/
theorem runFrom_drainCounted {n : Nat} {ds : List Byte} (hseq : s.seq = .busy) (herr : s.err ≠ .ok)
    (hrem : n ≤ s.remaining.toNat) (h : awaitBeats n es = some (ds, rest)) :
    ∃ now' r', runFrom now [.countedBeat] es s =
      runFrom now' [.countedBeat] rest { s with remaining := s.remaining - BitVec.ofNat 8 n, retval := r' } := by
  induction n generalizing es ds s now with
  | zero =>
    simp [awaitBeats] at h
    obtain ⟨rfl, rfl⟩ := h
    exact ⟨now, s.retval, by simp⟩
  | succ n ih =>
    rw [awaitBeats] at h
    split at h
    case h_2 => cases h
    rename_i d es1 h1
    split at h
    case h_2 => cases h
    rename_i ds' es2 h2
    cases h
    have hrem0 : s.remaining ≠ 0#8 := by intro h0; rw [h0] at hrem; simp at hrem
    obtain ⟨now1, p1⟩ := run_awaitBeat (s := awaitNextBeat [.countedBeat] s) rfl h1
    have hle : n ≤ (s.remaining - 1#8).toNat := by
      have : 1 ≤ s.remaining.toNat := by omega
      have := s.remaining.isLt
      simp only [BitVec.toNat_sub, BitVec.toNat_ofNat]; omega
    obtain ⟨now2, r2, p2⟩ := ih (s := { s with remaining := s.remaining - 1#8, retval := false }) (now := now1) hseq herr hle h2
    refine ⟨now2, r2, ?_⟩
    rw [runFrom, advance, if_neg hrem0, andThen_next, p1, takeBeat_counted_drain hseq herr]
    have hr : s.remaining - 1#8 - BitVec.ofNat 8 n = s.remaining - BitVec.ofNat 8 (n + 1) := by
      apply BitVec.eq_of_toNat_eq
      simp only [BitVec.toNat_sub, BitVec.toNat_ofNat]
      have := s.remaining.isLt
      omega
    rw [← hr]
    exact p2

/-- The beats of a text burst that has failed, before its terminator (R112, R305). -/
theorem runFrom_drainText {n : Nat} {ds : List Byte} (hseq : s.seq = .busy) (herr : s.err ≠ .ok)
    (hd : ∀ d ∈ ds, d ≠ 0x00#8) (h : awaitBeats n es = some (ds, rest)) :
    ∃ now' r', runFrom now [.textBeat] es s = runFrom now' [.textBeat] rest (setRetval r' s) := by
  induction n generalizing es ds s now with
  | zero =>
    simp [awaitBeats] at h
    obtain ⟨rfl, rfl⟩ := h
    exact ⟨now, s.retval, rfl⟩
  | succ n ih =>
    rw [awaitBeats] at h
    split at h
    case h_2 => cases h
    rename_i d es1 h1
    split at h
    case h_2 => cases h
    rename_i ds' es2 h2
    cases h
    obtain ⟨now1, p1⟩ := run_awaitBeat (s := awaitNextBeat [.textBeat] s) rfl h1
    obtain ⟨now2, r2, p2⟩ := ih (s := setRetval false s) (now := now1) hseq herr (fun d' h' => hd d' (List.mem_cons_of_mem _ h')) h2
    refine ⟨now2, r2, ?_⟩
    have h0 : runFrom now [.textBeat] es s = run es (awaitNextBeat [.textBeat] s) := rfl
    rw [h0, p1, takeBeat_text_drain hseq herr (hd _ (List.mem_cons_self ..))]
    exact p2

/-- The terminator ends a text burst (R228). -/
theorem runFrom_terminator (hseq : s.seq = .busy) (h : awaitBeat es = some (0x00#8, rest)) :
    runFrom now [.textBeat] es s = run rest (respondBurst s) := by
  obtain ⟨now1, p1⟩ := run_awaitBeat (s := awaitNextBeat [.textBeat] s) rfl h
  have h0 : runFrom now [.textBeat] es s = run es (awaitNextBeat [.textBeat] s) := rfl
  rw [h0, p1, takeBeat_text_end hseq, andThen_next]

theorem respondBurst_unbound (h : s.err = .unbound) : respondBurst s = respond .unbound 0#24 s := by
  simp only [respondBurst, h]

theorem respondBurst_other (h : s.err ≠ .unbound) : respondBurst s = respond s.err (ackCountPayload s.ackcnt) s := by
  simp only [respondBurst]

/-- The end of a counted burst (R226). -/
theorem runFrom_countedEnd (h : s.remaining = 0#8) : runFrom now [.countedBeat] es s = run es (respondBurst s) := by
  rw [runFrom, advance, if_pos h, andThen_next]

/-- The end of a program (30_encoding.md R115). -/
theorem runFrom_respond {p : PayloadKind} : runFrom now [.respond p] es s = .next (setInputs es (respond .ok (okPayload s p) s)) := by
  rw [runFrom, advance, andThen_next, run_rest (Or.inr rfl)]

end Sys2Proof.Machine
end

