-- ==== Sys2Proof/Laws/Commands.lean ====
section
/-!
SUPPORT. The programs of the commands: `REQUEST_FROM` up to its response or its timeout (42_frame_layer.md R232, R234).
-/

namespace Sys2Proof.Machine

variable {now : Nat} {k : List Micro} {es rest cs : List Edge} {e : Edge} {s : State} {a b : Bool} {evs : List Event}

theorem runProgram_eq (ops : List Micro) (s : State) : runProgram ops s = runFrom 0 ops s.inputs (setSeq .busy s) := rfl

theorem work_at (s : State) : onLines s.sdaDrv s.sclDrv [] (burstRegs s.remaining s.ackcnt (work s.shreg s.bitcnt s.t0 s.t1 s.retval s)) = s := by
  rw [work_self]; exact onLines_self s

/-- What `REQUEST_FROM` has done to the registers when its address byte is out. -/
def addressed (addr : SlaveAddr) (ack : Bool) (s : State) : State :=
  latchAddrAck (setRetval ack (setShift (addressByte addr true) 8#4 (markStarted true s)))

/-- The head of `REQUEST_FROM` (R232). -/
theorem runFrom_request {addr : SlaveAddr} {c1 m1 : List Edge} (hseq : s.seq = .busy) (hio : s.io = .idle)
    (h1 : serveOk s.cfg.tGap 4 es = some (c1, m1)) (h2 : serveOk s.cfg.tGap 29 m1 = some (cs, rest)) :
    ∃ now', runFrom now (startOps ++ ([.started true] ++ (byteWriteOps (addressByte addr true) ++ ([.keepAddrAck] ++ k)))) es s =
      runFrom now' k rest (onLines false false (writeEvents s (startLevels s.sclDrv) ++
        byteWriteEvents s false (addressByte addr true) (ackOf cs s.sdaPin)) (addressed addr (ackOf cs s.sdaPin) s)) := by
  obtain ⟨n1, p1⟩ := runFrom_start (s := s) (now := now) (k := [.started true] ++ (byteWriteOps (addressByte addr true) ++ ([.keepAddrAck] ++ k)))
    (a := s.sdaDrv) (b := s.sclDrv) (evs := []) hseq hio h1
  obtain ⟨n2, p2⟩ := runFrom_byteWrite (s := markStarted true s) (now := n1) (k := [.keepAddrAck] ++ k)
    (v := addressByte addr true) (a := false) (b := false) (evs := writeEvents s (startLevels s.sclDrv)) hseq hio h2
  rw [onLines_self, List.nil_append] at p1
  exact ⟨n2, p1.trans p2⟩

theorem bytesEvents_congr {s u : State} (h1 : u.dev = s.dev) (h2 : u.sdaPin = s.sdaPin) (h3 : u.sclPin = s.sclPin)
    (h4 : u.cfg = s.cfg) : bytesEvents u = bytesEvents s ∧ bitsEvents u = bitsEvents s := by
  have hbits : bitsEvents u = bitsEvents s := by
    funext x l
    induction x generalizing l with
    | nil => rfl
    | cons d x ih => cases l with
      | nil => rfl
      | cons b l => simp only [bitsEvents, ih, bitReadEvents, writeEvents, readEvent, State.pin, h1, h2, h3, h4]
  refine ⟨?_, hbits⟩
  funext n x l
  induction x generalizing l n with
  | nil => rfl
  | cons d x ih => cases l with
    | nil => rfl
    | cons b l => simp only [bytesEvents, ih, hbits, writeEvents, h1, h2, h3, h4]

/-- The start of `REQUEST_FROM` where it is not turned away (R232). -/
theorem execRequestFrom_ok {addr : SlaveAddr} {qty : Byte} (hb : s.bound = true)
    (hq : qty.toNat ≤ s.cfg.rxcap - s.rxbuf.length) :
    execRequestFrom addr qty s = runFrom 0 (startOps ++ ([.started true] ++ (byteWriteOps (addressByte addr true) ++
      ([.keepAddrAck] ++ (readBytesOps s.cfg qty.toNat ++ [.respond .count]))))) s.inputs
      (setSeq .busy (openRead (accept (.requestFrom addr qty) s))) := by
  have hb' : (accept (.requestFrom addr qty) s).bound = true := hb
  have hf : ¬ freeSpace (accept (.requestFrom addr qty) s) < qty.toNat := by
    show ¬ s.cfg.rxcap - s.rxbuf.length < qty.toNat; omega
  simp only [execRequestFrom, requireBound, hb', if_true, hf, if_false, runProgram, List.append_assoc]
  rfl

/-- The bytes of `REQUEST_FROM` after its address byte (R232). -/
theorem runFrom_addressedBytes {addr : SlaveAddr} {ack : Bool} {nss : List (List Nat)}
    {bss : List (List Bool)} {total : Nat}
    (hseq : s.seq = .busy) (hio : s.io = .idle) (hle : nss.length ≤ total) (hcnt : s.bytecnt = 0#8)
    (hroom : nss.length ≤ s.cfg.rxcap - s.rxbuf.length)
    (h : serveBytes s.cfg s.sdaPin s.sclPin nss es = some (bss, rest)) :
    ∃ now' v' i' x' y' r', runFrom now (readBytesOps s.cfg total ++ k) es
        (onLines a false evs (addressed addr ack s)) =
      runFrom now' (readBytesOps s.cfg (total - nss.length) ++ k) rest
        (onLines (if nss = [] then a else s.cfg.nackLast && decide (nss.length = total)) false
          (evs ++ bytesEvents s total nss bss)
          (work v' i' x' y' r' (received (bss.map byteOfBits) (BitVec.ofNat 8 nss.length) (addressed addr ack s)))) := by
  obtain ⟨n1, v1, i1, x1, y1, r1, p1⟩ := runFrom_readBytes (s := addressed addr ack s) (now := now) (total := total) (k := k) (v := addressByte addr true) (i := 8#4)
    (x := s.t0) (y := s.t1) (r := ack) (a := a) (evs := evs) (ds := []) (n := 0#8) hseq hio hle
      hroom h
  refine ⟨n1, v1, i1, x1, y1, r1, ?_⟩
  have hs : work (addressByte addr true) 8#4 s.t0 s.t1 ack (received [] 0#8 (addressed addr ack s)) = addressed addr ack s := by
    simp [work, received, addressed, latchAddrAck, setRetval, setShift, markStarted, ← hcnt]
  rw [hs] at p1
  rw [← (bytesEvents_congr (s := s) (u := addressed addr ack s) rfl rfl rfl rfl).1]
  refine Eq.trans p1 ?_
  simp only [List.nil_append, BitVec.zero_add]
  rfl

/-- A `BitRead` entered with SCL low that times out after `n` low polls within the deadline (R184(b), R234). -/
theorem runFrom_bitTimeout {n : Nat} {ws m5 m6 : List Edge} {w : Edge} (hseq : s.seq = .busy) (hio : s.io = .idle)
    (h1 : serveOk s.cfg.tGap 2 es = some (ws, m5)) (hw : ws[1]? = some w)
    (h2 : serveLowPolls s.cfg s.sclPin (nowOf s.cfg w.nowMs) n m5 = some m6)
    (h3 : serve s.cfg.tGap m6 = some (e, rest)) (he : e.ioRspErr = false)
    (hl : e.ioRspRaw.testBit s.sclPin.toNat = false)
    (ht : s.cfg.tStretch < elapsed s.cfg (nowOf s.cfg e.nowMs) (nowOf s.cfg w.nowMs)) :
    runFrom now (bitReadOps ++ k) es (onLines a false evs s) =
      run rest (fail .timeout (countPayload s.addrAck s.bytecnt)
        (onLines true true (evs ++ (writeEvents s [(true, false), (true, true)] ++
          List.replicate (n + 1) (readEvent s .scl false))) (markT0 w.nowMs s))) := by
  obtain ⟨e1, m1, d1, hs1, he1, g1, rfl⟩ := serveOk_succ h1
  obtain ⟨e2, m2, d2, hs2, he2, g2, rfl⟩ := serveOk_succ g1
  obtain ⟨rfl, rfl⟩ := serveOk_zero g2
  simp only [List.getElem?_cons_succ, List.getElem?_cons_zero, Option.some.injEq] at hw
  subst hw
  simp only [bitReadOps, List.cons_append, List.nil_append]
  rw [runFrom_setSda hseq hio hs1 he1, runFrom_setScl hseq hio hs2 he2]
  have hm : runFrom e2.nowMs (.markStretch :: .pollScl :: .settle :: .sampleBit :: .setLine .scl false :: k) m2
      (onLines true true (evs ++ writeEvents s [(true, false)] ++ writeEvents s [(true, true)]) s) =
      runFrom e2.nowMs (.pollScl :: .settle :: .sampleBit :: .setLine .scl false :: k) m2
      (onLines true true (evs ++ writeEvents s [(true, false)] ++ writeEvents s [(true, true)]) (markT0 e2.nowMs s)) := rfl
  rw [hm]
  obtain ⟨n1, p1⟩ := runFrom_lowPolls (s := markT0 e2.nowMs s) (now := e2.nowMs) (n := n)
    (k := .settle :: .sampleBit :: .setLine .scl false :: k) (a := true) (b := true)
    (evs := evs ++ writeEvents s [(true, false)] ++ writeEvents s [(true, true)]) hseq hio h2
  rw [p1, runFrom_pollScl_timeout (s := onLines true true (evs ++ writeEvents s [(true, false)] ++ writeEvents s [(true, true)] ++
      List.replicate n (readEvent (markT0 e2.nowMs s) Line.scl false)) (markT0 e2.nowMs s)) hseq hio h3 he hl ht]
  congr 2
  simp only [emit, onLines, List.append_assoc, writeEvents, readEvent, List.replicate_succ', State.pin, markT0, List.map_cons, List.map_nil, List.cons_append, List.nil_append]

theorem repeatOps_add (m n : Nat) (ops : List Micro) : repeatOps (m + n) ops = repeatOps m ops ++ repeatOps n ops := by
  induction m with
  | zero => simp [repeatOps]
  | succ m ih => rw [Nat.succ_add, repeatOps, repeatOps, ih, List.append_assoc]

/-- The byte of `REQUEST_FROM` whose bit after the bits `ns` times out (R234). -/
theorem runFrom_byteTimeout {ns : List Nat} {bs : List Bool} {n : Nat} {ws m4 m5 m6 : List Edge} {w : Edge}
    {v : Byte} {i : BitVec 4} {x y : Nat} {r : Bool} (hseq : s.seq = .busy) (hio : s.io = .idle) (hn : ns.length < 8)
    (h : serveBits s.cfg s.sdaPin s.sclPin ns es = some (bs, m4))
    (h1 : serveOk s.cfg.tGap 2 m4 = some (ws, m5)) (hw : ws[1]? = some w)
    (h2 : serveLowPolls s.cfg s.sclPin (nowOf s.cfg w.nowMs) n m5 = some m6)
    (h3 : serve s.cfg.tGap m6 = some (e, rest)) (he : e.ioRspErr = false)
    (hl : e.ioRspRaw.testBit s.sclPin.toNat = false)
    (ht : s.cfg.tStretch < elapsed s.cfg (nowOf s.cfg e.nowMs) (nowOf s.cfg w.nowMs)) :
    ∃ v' i' x' y' r', runFrom now (byteReadOps ++ k) es (onLines a false evs (work v i x y r s)) =
      run rest (fail .timeout (countPayload s.addrAck s.bytecnt)
        (onLines true true (evs ++ bitsEvents s ns bs ++ writeEvents s [(true, false), (true, true)] ++
          List.replicate (n + 1) (readEvent s .scl false)) (work v' i' x' y' r' s))) := by
  obtain ⟨t, ht8⟩ : ∃ t, 8 = ns.length + (t + 1) := ⟨7 - ns.length, by omega⟩
  have hops : repeatOps 8 (bitReadOps ++ [.storeBit]) = repeatOps ns.length (bitReadOps ++ [.storeBit]) ++
      (bitReadOps ++ ([.storeBit] ++ repeatOps t (bitReadOps ++ [.storeBit]))) := by
    conv_lhs => rw [ht8, repeatOps_add, repeatOps, List.append_assoc]
  obtain ⟨n1, x1, y1, r1, p1⟩ := runFrom_bits (now := now) (k := bitReadOps ++ ([.storeBit] ++ repeatOps t (bitReadOps ++ [.storeBit])) ++ k) (a := a) (evs := evs) (v := 0#8) (i := 0#4)
    (r := r) (x := x) (y := y) hseq hio h
  have p2 := runFrom_bitTimeout (s := setRetval r1 (setTimes x1 y1 (setShift (shiftAll 0#8 0#4 bs) (0#4 + BitVec.ofNat 4 ns.length) s)))
    (now := n1) (k := ([.storeBit] ++ repeatOps t (bitReadOps ++ [.storeBit])) ++ k) (a := if ns = [] then a else true)
    (evs := evs ++ bitsEvents s ns bs) hseq hio h1 hw h2 h3 he hl ht
  refine ⟨shiftAll 0#8 0#4 bs, 0#4 + BitVec.ofNat 4 ns.length, nowOf s.cfg w.nowMs, y1, r1, ?_⟩
  have hload : runFrom now (byteReadOps ++ k) es (onLines a false evs (work v i x y r s)) =
    runFrom now (repeatOps 8 (bitReadOps ++ [.storeBit]) ++ k) es (onLines a false evs (setRetval r (setTimes x y (setShift 0#8 0#4 s)))) := rfl
  rw [hload, hops]
  simp only [List.append_assoc] at p1 p2 ⊢
  rw [p1, p2]
  rfl

/-- `REQUEST_FROM` after its address byte, up to the timeout of a byte (R234). -/
theorem runFrom_readTimeout {addr : SlaveAddr} {ack : Bool} {nss : List (List Nat)} {bss : List (List Bool)} {total : Nat}
    {ns : List Nat} {bs : List Bool} {n : Nat} {ws m3 m4 m5 m6 : List Edge} {w : Edge}
    (hseq : s.seq = .busy) (hio : s.io = .idle) (hm : nss.length < total) (hcnt : s.bytecnt = 0#8)
    (hroom : total ≤ s.cfg.rxcap - s.rxbuf.length) (hn : ns.length < 8)
    (h3 : serveBytes s.cfg s.sdaPin s.sclPin nss es = some (bss, m3))
    (h4 : serveBits s.cfg s.sdaPin s.sclPin ns m3 = some (bs, m4))
    (h5 : serveOk s.cfg.tGap 2 m4 = some (ws, m5)) (hw : ws[1]? = some w)
    (h6 : serveLowPolls s.cfg s.sclPin (nowOf s.cfg w.nowMs) n m5 = some m6)
    (h7 : serve s.cfg.tGap m6 = some (e, rest)) (he : e.ioRspErr = false)
    (hl : e.ioRspRaw.testBit s.sclPin.toNat = false)
    (ht : s.cfg.tStretch < elapsed s.cfg (nowOf s.cfg e.nowMs) (nowOf s.cfg w.nowMs)) :
    ∃ v' i' x' y' r', runFrom now (readBytesOps s.cfg total ++ k) es (onLines a false evs (addressed addr ack s)) =
      run rest (fail .timeout (countPayload ack (BitVec.ofNat 8 nss.length))
        (onLines true true (evs ++ bytesEvents s total nss bss ++ bitsEvents s ns bs ++
          writeEvents s [(true, false), (true, true)] ++ List.replicate (n + 1) (readEvent s .scl false))
          (work v' i' x' y' r' (received (bss.map byteOfBits) (BitVec.ofNat 8 nss.length) (addressed addr ack s))))) := by
  obtain ⟨t, ht8⟩ : ∃ t, total - nss.length = t + 1 := ⟨total - nss.length - 1, by omega⟩
  obtain ⟨n3, v3, i3, x3, y3, r3, p3⟩ := runFrom_addressedBytes (addr := addr) (ack := ack) (now := now) (total := total) (k := k) (a := a)
    (evs := evs) hseq hio (by omega) hcnt (by omega) h3
  rw [ht8, readBytesOps] at p3
  simp only [List.append_assoc] at p3
  obtain ⟨v4, i4, x4, y4, r4, p4⟩ := runFrom_byteTimeout (s := received (bss.map byteOfBits) (BitVec.ofNat 8 nss.length)
      (addressed addr ack s)) (now := n3)
      (v := v3) (i := i3) (x := x3) (y := y3) (r := r3) (a := (if nss = [] then a else s.cfg.nackLast && decide (nss.length = total)))
      (k := [.pushByte] ++ (masterAckOps s.cfg (decide (t = 0)) ++ (readBytesOps s.cfg t ++ k)))
      (evs := evs ++ bytesEvents s total nss bss) hseq hio hn h4 h5 hw h6 h7 he hl ht
  rw [(bytesEvents_congr (s := s) (u := received (bss.map byteOfBits) (BitVec.ofNat 8 nss.length) (addressed addr ack s)) rfl rfl rfl rfl).2] at p4
  exact ⟨v4, i4, x4, y4, r4, p3.trans p4⟩

/-- One primitive served with an error. -/
theorem runFrom_writeError {u : State} {op : Micro} {m : Nat} (hadv : advance now (op :: k) s = .next (issue true m (setTodo (op :: k) u)))
    (hseq : u.seq = .busy) (hio : u.io = .idle) (h : serve u.cfg.tGap es = some (e, rest)) (he : e.ioRspErr = true) :
    runFrom now (op :: k) es s = (failIo e.nowMs (setTodo (op :: k) (emit (.wrote u.dev m true) u))).andThen (run rest) := by
  have hst : setIo .idle (setTodo (op :: k) u) = setTodo (op :: k) u := state_idle hio
  rw [runFrom, hadv, andThen_next, run_issue (by simpa using hseq) (by simpa using h), hst]
  have : (setTodo (op :: k) u).todo = op :: k := rfl
  simp only [completePrimitive, this, he, if_true, hst]
  rfl

end Sys2Proof.Machine
end

