-- ==== Sys2Proof/Laws/Decoding.lean ====
section
/-!
SUPPORT. The fields of command words and of response words (30_encoding.md R100, R103, R108, R113).
-/

namespace Sys2Proof.Machine

/-- The opcode field of a command's word (30_encoding.md R100). -/
theorem opField_encode (i : Instr) : opField (encode i) = i.opcode := by
  show (i.opcode ++ i.operandBits : BitVec (4 + 28)).extractLsb' 28 4 = i.opcode
  ext j hj
  rw [BitVec.getElem_extractLsb', BitVec.getLsbD_append, if_neg (by omega)]
  simp [BitVec.getLsbD_eq_getElem, hj]

/-- The bits below the opcode are the operand fields'. -/
theorem encode_low (i : Instr) (j : Nat) (hj : j < 28) : (encode i).getLsbD j = i.operandBits.getLsbD j := by
  show (i.opcode ++ i.operandBits : BitVec (4 + 28)).getLsbD j = _
  rw [BitVec.getLsbD_append, if_pos hj]

/-- The bits of the opcode. -/
theorem encode_high (i : Instr) (j : Nat) (hj : 28 ≤ j) : (encode i).getLsbD j = i.opcode.getLsbD (j - 28) := by
  show (i.opcode ++ i.operandBits : BitVec (4 + 28)).getLsbD j = _
  rw [BitVec.getLsbD_append, if_neg (by omega)]

/-- A word passes a row's check exactly where it matches the row (R108). -/
theorem checkRow_ok {w m b : Word} {i j : Instr} : checkRow w m b i = .ok j ↔ w &&& m = b ∧ i = j := by
  unfold checkRow
  split <;> simp_all

/-! ### Response words -/

theorem bytePayload_eq (b : Byte) : bytePayload b = 0#16 ++ b := by
  revert b; decide

theorem responseWord_status (op : BitVec 4) (st : Status) (p : Payload) :
    (responseWord op st p).extractLsb' 24 4 = st.code := by
  show ((op ++ st.code) ++ p : BitVec (4 + 4 + 24)).extractLsb' 24 4 = st.code
  generalize st.code = c
  ext j hj
  rw [BitVec.getElem_extractLsb', BitVec.getLsbD_append, if_neg (by omega), BitVec.getLsbD_append, if_pos (by omega)]
  simp [BitVec.getLsbD_eq_getElem, hj]
theorem responseWord_payload (op : BitVec 4) (st : Status) (p : Payload) :
    (responseWord op st p).extractLsb' 0 24 = p := by
  show ((op ++ st.code) ++ p : BitVec (4 + 4 + 24)).extractLsb' 0 24 = p
  ext j hj
  rw [BitVec.getElem_extractLsb', BitVec.getLsbD_append, if_pos (by omega)]
  simp [BitVec.getLsbD_eq_getElem, hj]

theorem code_le (st : Status) : st.code.toNat ≤ 7 := by cases st <;> decide

end Sys2Proof.Machine
end

