-- ==== Sys2Proof/Laws/Independence.lean ====
section
/-!
SUPPORT. What the sequencer does not look at: the edges stored in the state, `bus_active` and `last_dir`
(40_session_line_driver.md R153).
-/

namespace Sys2Proof.Machine

variable {now : Nat} {ops k : List Micro} {es rest : List Edge} {e : Edge} {s t : State} {i : Instr}

/-- A function of the next state. -/
def Result.map (f : State → State) : Result → Result
  | .next s => .next (f s)
  | .fault r => .fault r
  | .refused r => .refused r

@[simp] theorem map_next (f : State → State) (s : State) : Result.map f (.next s) = .next (f s) := rfl
@[simp] theorem map_fault (f : State → State) (r : Fault) : Result.map f (.fault r) = .fault r := rfl
@[simp] theorem map_refused (f : State → State) (r : Refusal) : Result.map f (.refused r) = .refused r := rfl

/-! ### The sequencer does not look at the edges stored in the state -/

theorem respondBurst_setInputs (x : List Edge) (s : State) :
    respondBurst (setInputs x s) = setInputs x (respondBurst s) := by
  simp only [respondBurst, setInputs_err]
  cases s.err <;> rfl

theorem advance_setInputs (x : List Edge) :
    advance now ops (setInputs x s) = (advance now ops s).map (setInputs x) := by
  induction ops generalizing s with
  | nil => rfl
  | cons op k ih =>
    cases op with
    | setLine l v => cases l <;> rfl
    | markStretch => exact ih (s := markT0 now s)
    | settle =>
      simp only [advance, setInputs_cfg]
      by_cases h : s.cfg.tSettle = 0
      · simp only [h, if_true]
        exact ih (s := markT1 now s)
      · simp only [h, if_false]
        rfl
    | loadByte v => exact ih (s := loadShift v s)
    | nextBit => exact ih (s := countBit s)
    | storeBit => exact ih (s := shiftIn s)
    | started dir => exact ih (s := markStarted dir s)
    | stopped => exact ih (s := markStopped s)
    | keepAddrAck => exact ih (s := latchAddrAck s)
    | pushByte =>
      simp only [advance, fifoPush, setInputs_rxbuf, setInputs_cfg, setInputs_shreg]
      by_cases h : s.rxbuf.length < s.cfg.rxcap
      · simp only [h, if_true]
        exact ih (s := countByte (setRxbuf (s.rxbuf ++ [s.shreg]) s))
      · simp only [h, if_false, map_fault]
    | countAck => exact ih (s := addAck s)
    | countedBeat =>
      simp only [advance, setInputs_remaining, respondBurst_setInputs]
      split <;> rfl
    | _ => rfl

theorem failIo_setInputs (x : List Edge) : failIo now (setInputs x s) = (failIo now s).map (setInputs x) := by
  simp only [failIo, setInputs_cmd]
  split
  · exact advance_setInputs (s := markDraining s) x
  · exact advance_setInputs (s := markDraining s) x
  · rename_i j _ _ _
    cases j <;> rfl
  · rfl

theorem afterPrimitive_setInputs (op : Micro) (raw : Nat) (x : List Edge) :
    afterPrimitive now op raw k (setInputs x s) = (afterPrimitive now op raw k s).map (setInputs x) := by
  cases op with
  | pollScl =>
    simp only [afterPrimitive, afterPoll, setInputs_sclPin, setInputs_cfg, setInputs_t0]
    by_cases h : raw.testBit s.sclPin.toNat = true
    · simp only [h, if_true]
      exact advance_setInputs x
    · simp only [h, Bool.false_eq_true, if_false]
      by_cases h' : s.cfg.tStretch < elapsed s.cfg (nowOf s.cfg now) s.t0
      · simp only [h', if_true]
        rfl
      · simp only [h', if_false]
        exact advance_setInputs x
  | sampleBit => exact advance_setInputs (s := setRetval _ s) x
  | sampleAck => exact advance_setInputs (s := setRetval _ s) x
  | _ => exact advance_setInputs x

theorem completePrimitive_setInputs (req : IoReq) (x : List Edge) :
    completePrimitive e req (setInputs x s) = (completePrimitive e req s).map (setInputs x) := by
  simp only [completePrimitive, setInputs_todo]
  cases s.todo with
  | nil => rfl
  | cons op k =>
    simp only
    split
    · exact failIo_setInputs (s := emit (completionEvent op req e.ioRspRaw e.ioRspErr s) (setIo .idle s)) x
    · exact afterPrimitive_setInputs (s := emit (completionEvent op req e.ioRspRaw e.ioRspErr s) (setIo .idle s)) op _ x

theorem takeBeat_setInputs (d : Byte) (x : List Edge) :
    takeBeat now d (setInputs x s) = (takeBeat now d s).map (setInputs x) := by
  have hc : countBeat (setSeq .busy (setInputs x s)) = setInputs x (countBeat (setSeq .busy s)) := rfl
  have hs : setSeq .busy (setInputs x s) = setInputs x (setSeq .busy s) := rfl
  unfold takeBeat
  rw [hc, hs]
  simp only [setInputs_todo, setInputs_err, respondBurst_setInputs, advance_setInputs]
  split
  · split <;> rfl
  · split
    · rfl
    · split <;> rfl
  · rfl

theorem commandEdge_setInputs (x : List Edge) :
    commandEdge e (setInputs x s) = (commandEdge e s).map (setInputs x) := by
  simp only [commandEdge, setInputs_seq]
  split
  · rfl
  · split
    · simp only [busyEdge, setInputs_io]
      split
      · simp only [settleEdge, setInputs_todo, setInputs_cfg, setInputs_t1]
        split
        · rename_i k _
          by_cases h : s.cfg.tSettle ≤ elapsed s.cfg (nowOf s.cfg e.nowMs) s.t1
          · simp only [h, if_true]
            exact advance_setInputs x
          · simp only [h, if_false]
            rfl
        · rfl
      · rfl
      · split <;> rfl
      · split
        · exact completePrimitive_setInputs _ x
        · rfl
    · simp only [beatEdge]
      split
      · exact takeBeat_setInputs _ x
      · rfl
    · rfl
    · rfl

theorem run_setInputs (x : List Edge) : run es (setInputs x s) = run es s := by
  induction es generalizing s with
  | nil => rfl
  | cons e es ih =>
    simp only [run, setInputs_seq, commandEdge_setInputs]
    split
    · cases commandEdge e s <;> simp [ih]
    · cases commandEdge e s <;> simp [ih]
    · rfl
    · rfl

/-! ### Two results that agree where `f` looks -/

/-- `bus_active` and `last_dir` put to one side. -/
def blankPhase (s : State) : State := { s with busActive := false, lastDir := false }

theorem advance_blankPhase :
    (advance now ops s).map blankPhase = (advance now ops (blankPhase s)).map blankPhase := by
  induction ops generalizing s with
  | nil => rfl
  | cons op k ih =>
    cases op with
    | setLine l v => cases l <;> rfl
    | markStretch => exact ih (s := markT0 now s)
    | settle =>
      have hc : (blankPhase s).cfg = s.cfg := rfl
      simp only [advance, hc]
      by_cases h : s.cfg.tSettle = 0
      · simp only [h, if_true]
        exact ih (s := markT1 now s)
      · simp only [h, if_false]
        rfl
    | loadByte v => exact ih (s := loadShift v s)
    | nextBit => exact ih (s := countBit s)
    | storeBit => exact ih (s := shiftIn s)
    | started dir => exact (ih (s := markStarted dir s)).trans (ih (s := markStarted dir (blankPhase s))).symm
    | stopped => exact (ih (s := markStopped s)).trans (ih (s := markStopped (blankPhase s))).symm
    | keepAddrAck => exact ih (s := latchAddrAck s)
    | pushByte =>
      have h1 : (blankPhase s).rxbuf = s.rxbuf := rfl
      have h2 : (blankPhase s).cfg = s.cfg := rfl
      have h3 : (blankPhase s).shreg = s.shreg := rfl
      simp only [advance, fifoPush, h1, h2, h3]
      by_cases h : s.rxbuf.length < s.cfg.rxcap
      · simp only [h, if_true]
        exact ih (s := countByte (setRxbuf (s.rxbuf ++ [s.shreg]) s))
      · simp only [h, if_false]
    | countAck => exact ih (s := addAck s)
    | countedBeat =>
      have h1 : (blankPhase s).remaining = s.remaining := rfl
      have h2 : blankPhase (respondBurst s) = blankPhase (respondBurst (blankPhase s)) := by
        have h3 : (blankPhase s).err = s.err := rfl
        simp only [respondBurst, h3]
        cases s.err <;> rfl
      simp only [advance, h1]
      split
      · simp only [map_next, h2]
      · rfl
    | _ => rfl

theorem advance_ofBlank {u : State} (h : blankPhase u = blankPhase s) :
    (advance now ops u).map blankPhase = (advance now ops s).map blankPhase := by
  rw [advance_blankPhase, h, ← advance_blankPhase]

theorem failIo_blankPhase : (failIo now (blankPhase s)).map blankPhase = (failIo now s).map blankPhase := by
  have hc : (blankPhase s).cmd = s.cmd := rfl
  simp only [failIo, hc]
  split
  · exact advance_ofBlank rfl
  · exact advance_ofBlank rfl
  · rename_i j _ _ _
    cases j <;> rfl
  · rfl

theorem afterPrimitive_blankPhase (op : Micro) (raw : Nat) :
    (afterPrimitive now op raw k (blankPhase s)).map blankPhase = (afterPrimitive now op raw k s).map blankPhase := by
  cases op with
  | pollScl =>
    have h1 : (blankPhase s).sclPin = s.sclPin := rfl
    have h2 : (blankPhase s).cfg = s.cfg := rfl
    have h3 : (blankPhase s).t0 = s.t0 := rfl
    simp only [afterPrimitive, afterPoll, h1, h2, h3]
    by_cases h : raw.testBit s.sclPin.toNat = true
    · simp only [h, if_true]
      exact advance_ofBlank rfl
    · simp only [h, Bool.false_eq_true, if_false]
      by_cases h' : s.cfg.tStretch < elapsed s.cfg (nowOf s.cfg now) s.t0
      · simp only [h', if_true]
        rfl
      · simp only [h', if_false]
        exact advance_ofBlank rfl
  | _ => exact advance_ofBlank rfl

theorem completePrimitive_blankPhase (req : IoReq) :
    (completePrimitive e req (blankPhase s)).map blankPhase = (completePrimitive e req s).map blankPhase := by
  have h1 : (blankPhase s).todo = s.todo := rfl
  simp only [completePrimitive, h1]
  cases s.todo with
  | nil => rfl
  | cons op k =>
    simp only
    split
    · exact failIo_blankPhase (s := emit (completionEvent op req e.ioRspRaw e.ioRspErr s) (setIo .idle s))
    · exact afterPrimitive_blankPhase (s := emit (completionEvent op req e.ioRspRaw e.ioRspErr s) (setIo .idle s)) op _

theorem respondBurst_blankPhase : blankPhase (respondBurst (blankPhase s)) = blankPhase (respondBurst s) := by
  have h3 : (blankPhase s).err = s.err := rfl
  simp only [respondBurst, h3]
  cases s.err <;> rfl

theorem takeBeat_blankPhase (d : Byte) :
    (takeBeat now d (blankPhase s)).map blankPhase = (takeBeat now d s).map blankPhase := by
  have h1 : (blankPhase s).todo = s.todo := rfl
  have h2 : (blankPhase s).err = s.err := rfl
  unfold takeBeat
  rw [h1]
  split
  · simp only [h2]
    by_cases h : s.err = .ok
    · simp only [h, if_true]
      exact advance_ofBlank rfl
    · simp only [h, if_false]
      exact advance_ofBlank rfl
  · simp only [h2]
    split
    · exact congrArg Host.Outcome.next (respondBurst_blankPhase (s := setSeq .busy s))
    · by_cases h : s.err = .ok
      · simp only [h, if_true]
        exact advance_ofBlank rfl
      · simp only [h, if_false]
        exact advance_ofBlank rfl
  · rfl

theorem commandEdge_blankPhase :
    (commandEdge e (blankPhase s)).map blankPhase = (commandEdge e s).map blankPhase := by
  have h1 : (blankPhase s).seq = s.seq := rfl
  have h2 : (blankPhase s).io = s.io := rfl
  have h3 : (blankPhase s).todo = s.todo := rfl
  have h4 : (blankPhase s).cfg = s.cfg := rfl
  have h5 : (blankPhase s).t1 = s.t1 := rfl
  simp only [commandEdge, h1]
  split
  · rfl
  · split
    · simp only [busyEdge, h2]
      split
      · simp only [settleEdge, h3, h4, h5]
        split
        · rename_i k _
          by_cases h : s.cfg.tSettle ≤ elapsed s.cfg (nowOf s.cfg e.nowMs) s.t1
          · simp only [h, if_true]
            exact advance_ofBlank rfl
          · simp only [h, if_false]
            rfl
        · rfl
      · rfl
      · split <;> rfl
      · split
        · exact completePrimitive_blankPhase _
        · rfl
    · simp only [beatEdge]
      split
      · exact takeBeat_blankPhase _
      · rfl
    · rfl
    · rfl

theorem run_blankPhase : (run es (blankPhase s)).map blankPhase = (run es s).map blankPhase := by
  induction es generalizing s with
  | nil => rfl
  | cons e es ih =>
    have h1 : (blankPhase s).seq = s.seq := rfl
    have h := commandEdge_blankPhase (e := e) (s := s)
    have hgo : ∀ r r' : Result, r.map blankPhase = r'.map blankPhase →
        (r.andThen (run es)).map blankPhase = (r'.andThen (run es)).map blankPhase := by
      intro r r' hr
      cases r <;> cases r' <;> simp_all [Result.map, Result.andThen]
      rename_i x y
      have := ih (s := x)
      rw [hr, ih] at this
      exact this.symm
    have hs : ∀ u : State, u.seq = .busy ∨ u.seq = .beatWait →
        run (e :: es) u = (commandEdge e u).andThen (run es) := by
      intro u hu
      rcases hu with hu | hu
      · exact run_busy hu e es
      · exact run_beatWait hu e es
    cases hq : s.seq
    · rw [run_rest (Or.inl hq), run_rest (Or.inl (h1.trans hq))]; rfl
    · rw [hs s (Or.inl hq), hs _ (Or.inl (h1.trans hq))]; exact hgo _ _ h
    · rw [hs s (Or.inr hq), hs _ (Or.inr (h1.trans hq))]; exact hgo _ _ h
    · rw [run_rest (Or.inr hq), run_rest (Or.inr (h1.trans hq))]; rfl

end Sys2Proof.Machine
end

