-- ==== Sys2Proof/Laws/Frames.lean ====
section
/-!
SUPPORT. What one edge of a command in progress can change, and what only some lines of a program can.
-/

namespace Sys2Proof.Machine

variable {now : Nat} {ops k : List Micro} {es rest : List Edge} {e : Edge} {s t : State} {i : Instr}

/-- What no command in progress changes: the parameters, the session, the edges stored and the responses taken. -/
def anchor (s : State) : Config × Bool × Byte × Pin × Pin × List Edge × List Word :=
  (s.cfg, s.bound, s.dev, s.sdaPin, s.sclPin, s.inputs, s.responses)

/-- Everything `advance` can do to the fields that only some lines of a program write. -/
structure Advanced (ops : List Micro) (s t : State) : Prop where
  anchor : anchor t = anchor s
  trace : t.trace = s.trace
  todo : t.todo <:+ ops
  rxbuf : .pushByte ∉ ops → t.rxbuf = s.rxbuf
  busActive : (∀ d, .started d ∉ ops) → .stopped ∉ ops → t.busActive = s.busActive
  lastDir : (∀ d, .started d ∉ ops) → t.lastDir = s.lastDir

theorem Advanced.cons {op : Micro} {u : State} (h : Advanced k u t) (h1 : Machine.anchor u = Machine.anchor s) (h2 : u.trace = s.trace)
    (h3 : op ≠ .pushByte → u.rxbuf = s.rxbuf)
    (h4 : (∀ d, op ≠ .started d) → op ≠ .stopped → u.busActive = s.busActive)
    (h5 : (∀ d, op ≠ .started d) → u.lastDir = s.lastDir) : Advanced (op :: k) s t where
  anchor := h.anchor.trans h1
  trace := h.trace.trans h2
  todo := h.todo.trans (List.suffix_cons op k)
  rxbuf hn := by
    simp only [List.mem_cons, not_or] at hn
    exact (h.rxbuf hn.2).trans (h3 (Ne.symm hn.1))
  busActive hn hm := by
    simp only [List.mem_cons, not_or] at hn hm
    exact (h.busActive (fun d => (hn d).2) hm.2).trans (h4 (fun d => Ne.symm (hn d).1) (Ne.symm hm.1))
  lastDir hn := by
    simp only [List.mem_cons, not_or] at hn
    exact (h.lastDir (fun d => (hn d).2)).trans (h5 (fun d => Ne.symm (hn d).1))

theorem Advanced.stay (h1 : Machine.anchor t = Machine.anchor s) (h2 : t.trace = s.trace) (h3 : t.todo <:+ ops) (h4 : t.rxbuf = s.rxbuf)
    (h5 : t.busActive = s.busActive) (h6 : t.lastDir = s.lastDir) : Advanced ops s t :=
  ⟨h1, h2, h3, fun _ => h4, fun _ _ => h5, fun _ => h6⟩

theorem respondBurst_eq (s : State) :
    ∃ st p, respondBurst s = respond st p s := by
  simp only [respondBurst]; split <;> exact ⟨_, _, rfl⟩

theorem advance_frame (h : advance now ops s = .next t) : Advanced ops s t := by
  induction ops generalizing s with
  | nil => cases h; exact .stay rfl rfl (List.suffix_refl _) rfl rfl rfl
  | cons op k ih =>
    cases op with
    | writeLines => cases h; exact .stay rfl rfl (List.suffix_refl _) rfl rfl rfl
    | setLine l v => cases l <;> cases h <;> exact .stay rfl rfl (List.suffix_refl _) rfl rfl rfl
    | driveBit => cases h; exact .stay rfl rfl (List.suffix_refl _) rfl rfl rfl
    | markStretch => exact (ih (s := markT0 now s) h).cons rfl rfl (fun _ => rfl) (fun _ _ => rfl) (fun _ => rfl)
    | pollScl => cases h; exact .stay rfl rfl (List.suffix_refl _) rfl rfl rfl
    | settle =>
      rw [advance] at h
      split at h
      · exact (ih (s := markT1 now s) h).cons rfl rfl (fun _ => rfl) (fun _ _ => rfl) (fun _ => rfl)
      · cases h; exact .stay rfl rfl (List.suffix_refl _) rfl rfl rfl
    | sampleBit => cases h; exact .stay rfl rfl (List.suffix_refl _) rfl rfl rfl
    | sampleAck => cases h; exact .stay rfl rfl (List.suffix_refl _) rfl rfl rfl
    | loadByte v => exact (ih (s := loadShift v s) h).cons rfl rfl (fun _ => rfl) (fun _ _ => rfl) (fun _ => rfl)
    | nextBit => exact (ih (s := countBit s) h).cons rfl rfl (fun _ => rfl) (fun _ _ => rfl) (fun _ => rfl)
    | storeBit => exact (ih (s := shiftIn s) h).cons rfl rfl (fun _ => rfl) (fun _ _ => rfl) (fun _ => rfl)
    | started dir =>
      exact (ih (s := markStarted dir s) h).cons rfl rfl (fun _ => rfl) (fun hn _ => absurd rfl (hn dir))
        (fun hn => absurd rfl (hn dir))
    | stopped =>
      exact (ih (s := markStopped s) h).cons rfl rfl (fun _ => rfl) (fun _ hn => absurd rfl hn) (fun _ => rfl)
    | keepAddrAck => exact (ih (s := latchAddrAck s) h).cons rfl rfl (fun _ => rfl) (fun _ _ => rfl) (fun _ => rfl)
    | pushByte =>
      rw [advance, fifoPush] at h
      by_cases hr : s.rxbuf.length < s.cfg.rxcap
      · simp only [hr, if_true] at h
        exact (ih (s := countByte (setRxbuf (s.rxbuf ++ [s.shreg]) s)) h).cons rfl rfl (fun hn => absurd rfl hn)
          (fun _ _ => rfl) (fun _ => rfl)
      · simp [hr] at h
    | countAck => exact (ih (s := addAck s) h).cons rfl rfl (fun _ => rfl) (fun _ _ => rfl) (fun _ => rfl)
    | countedBeat =>
      rw [advance] at h
      split at h
      · cases h
        obtain ⟨st, p, hb⟩ := respondBurst_eq s
        rw [hb]
        exact .stay rfl rfl (List.nil_suffix) rfl rfl rfl
      · cases h; exact .stay rfl rfl (List.suffix_refl _) rfl rfl rfl
    | textBeat => cases h; exact .stay rfl rfl (List.suffix_refl _) rfl rfl rfl
    | respond p => cases h; exact .stay rfl rfl (List.nil_suffix) rfl rfl rfl

/-! ### One edge of a command -/

/-- A line of a program that neither pushes a byte nor marks the bus phase; every line of a burst is one. -/
def Micro.neutral : Micro → Bool
  | .pushByte | .started _ | .stopped => false
  | _ => true

theorem byteWriteOps_neutral (d : Byte) : ∀ op ∈ byteWriteOps d, op.neutral = true := by
  simp [byteWriteOps, repeatOps, shiftOutOps, ackSampleOps, Micro.neutral]

/-- The line trace of `t` is that of `s`, or one event longer: the completion of the primitive outstanding in `s`. -/
def Grown (s t : State) : Prop :=
  t.trace = s.trace ∨ ∃ op k req raw err, s.todo = op :: k ∧ s.io = .outstanding req ∧
    t.trace = s.trace ++ [completionEvent op req raw err s]

/-- Everything one edge without a reset can do to the same fields while a command is in progress: the events are one at
most, and the program that is left holds no line that the program before did not hold, but for neutral ones. -/
structure Edged (s t : State) : Prop where
  anchor : anchor t = anchor s
  trace : Grown s t
  todo : ∀ op ∈ t.todo, op.neutral = true ∨ op ∈ s.todo
  rxbuf : .pushByte ∉ s.todo → t.rxbuf = s.rxbuf
  busActive : (∀ d, .started d ∉ s.todo) → .stopped ∉ s.todo → t.busActive = s.busActive
  lastDir : (∀ d, .started d ∉ s.todo) → t.lastDir = s.lastDir

/-- An edge that goes on with lines that are neutral or of the program before, from a state that agrees with `s`. -/
theorem Advanced.edged {u : State} (h : Advanced ops u t) (hops : ∀ op ∈ ops, op.neutral = true ∨ op ∈ s.todo)
    (h1 : Machine.anchor u = Machine.anchor s)
    (h2 : Grown s u)
    (h3 : u.rxbuf = s.rxbuf) (h4 : u.busActive = s.busActive) (h5 : u.lastDir = s.lastDir) : Edged s t where
  anchor := h.anchor.trans h1
  trace := by simpa only [Grown, h.trace] using h2
  todo op hop := hops op (h.todo.mem hop)
  rxbuf hn := (h.rxbuf (fun hm => (hops _ hm).elim (by simp [Micro.neutral]) hn)).trans h3
  busActive hn hm := (h.busActive (fun d hd => (hops _ hd).elim (by simp [Micro.neutral]) (hn d))
    (fun hd => (hops _ hd).elim (by simp [Micro.neutral]) hm)).trans h4
  lastDir hn := (h.lastDir (fun d hd => (hops _ hd).elim (by simp [Micro.neutral]) (hn d))).trans h5

theorem Edged.stay (h1 : Machine.anchor t = Machine.anchor s) (h2 : Grown s t)
    (h3 : t.todo = s.todo ∨ t.todo = []) (h4 : t.rxbuf = s.rxbuf)
    (h5 : t.busActive = s.busActive) (h6 : t.lastDir = s.lastDir) : Edged s t where
  anchor := h1
  trace := h2
  todo op hop := by rcases h3 with h | h <;> simp_all
  rxbuf _ := h4
  busActive _ _ := h5
  lastDir _ := h6

theorem failIo_frame {u : State} (h : failIo now u = .next t)
    (h1 : Machine.anchor u = Machine.anchor s)
    (h2 : Grown s u)
    (h3 : u.rxbuf = s.rxbuf) (h4 : u.busActive = s.busActive) (h5 : u.lastDir = s.lastDir) : Edged s t := by
  unfold failIo at h
  split at h
  · exact (advance_frame h).edged (by simp [Micro.neutral]) h1 h2 h3 h4 h5
  · exact (advance_frame h).edged (by simp [Micro.neutral]) h1 h2 h3 h4 h5
  · cases h; exact .stay h1 h2 (Or.inr rfl) h3 h4 h5
  · cases h; exact .stay h1 h2 (Or.inr rfl) h3 h4 h5

theorem afterPrimitive_frame {op : Micro} {raw : Nat} {u : State} (h : afterPrimitive now op raw k u = .next t)
    (hu : s.todo = op :: k) (h1 : Machine.anchor u = Machine.anchor s)
    (h2 : Grown s u)
    (h3 : u.rxbuf = s.rxbuf) (h4 : u.busActive = s.busActive) (h5 : u.lastDir = s.lastDir) : Edged s t := by
  have hk : ∀ op' ∈ k, op'.neutral = true ∨ op' ∈ s.todo := fun op' h => Or.inr (by rw [hu]; exact List.mem_cons_of_mem _ h)
  cases op with
  | pollScl =>
    simp only [afterPrimitive, afterPoll] at h
    split at h
    · exact (advance_frame h).edged hk h1 h2 h3 h4 h5
    · split at h
      · cases h; exact .stay h1 h2 (Or.inr rfl) h3 h4 h5
      · exact (advance_frame h).edged (by rw [hu]; exact fun _ h => Or.inr h) h1 h2 h3 h4 h5
  | sampleBit => exact (advance_frame h).edged hk h1 h2 h3 h4 h5
  | sampleAck => exact (advance_frame h).edged hk h1 h2 h3 h4 h5
  | _ => exact (advance_frame h).edged hk h1 h2 h3 h4 h5

theorem takeBeat_frame {d : Byte} (h : takeBeat now d s = .next t) : Edged s t := by
  unfold takeBeat at h
  split at h
  · rename_i k hk
    have hsub : ∀ op ∈ Micro.countedBeat :: k, op.neutral = true ∨ op ∈ s.todo := fun op h => Or.inr (by rw [hk]; exact h)
    have hall : ∀ op ∈ byteWriteOps d ++ Micro.countAck :: Micro.countedBeat :: k, op.neutral = true ∨ op ∈ s.todo := by
      intro op hop
      rcases List.mem_append.mp hop with hop | hop
      · exact Or.inl (byteWriteOps_neutral d op hop)
      · rcases List.mem_cons.mp hop with rfl | hop
        · exact Or.inl rfl
        · exact hsub op hop
    simp only at h
    split at h
    · exact (advance_frame h).edged hall rfl (Or.inl rfl) rfl rfl rfl
    · exact (advance_frame h).edged hsub rfl (Or.inl rfl) rfl rfl rfl
  · rename_i k hk
    have hsub : ∀ op ∈ Micro.textBeat :: k, op.neutral = true ∨ op ∈ s.todo := fun op h => Or.inr (by rw [hk]; exact h)
    have hall : ∀ op ∈ byteWriteOps d ++ Micro.countAck :: Micro.textBeat :: k, op.neutral = true ∨ op ∈ s.todo := by
      intro op hop
      rcases List.mem_append.mp hop with hop | hop
      · exact Or.inl (byteWriteOps_neutral d op hop)
      · rcases List.mem_cons.mp hop with rfl | hop
        · exact Or.inl rfl
        · exact hsub op hop
    simp only at h
    split at h
    · cases h
      obtain ⟨st, p, hb⟩ := respondBurst_eq (setSeq .busy s)
      rw [hb]
      exact .stay rfl (Or.inl rfl) (Or.inr rfl) rfl rfl rfl
    · split at h
      · exact (advance_frame h).edged hall rfl (Or.inl rfl) rfl rfl rfl
      · exact (advance_frame h).edged hsub rfl (Or.inl rfl) rfl rfl rfl
  · cases h; exact .stay rfl (Or.inl rfl) (Or.inl rfl) rfl rfl rfl

theorem commandEdge_frame (hr : e.rst = false) (h : commandEdge e s = .next t) : Edged s t := by
  simp only [commandEdge, hr, Bool.false_eq_true, if_false] at h
  split at h
  · unfold busyEdge at h
    split at h
    · unfold settleEdge at h
      split at h
      · rename_i k hk
        split at h
        · exact (advance_frame h).edged (by rw [hk]; exact fun _ h => Or.inr (List.mem_cons_of_mem _ h)) rfl (Or.inl rfl) rfl rfl rfl
        · cases h; exact .stay rfl (Or.inl rfl) (Or.inl rfl) rfl rfl rfl
      · cases h; exact .stay rfl (Or.inl rfl) (Or.inl rfl) rfl rfl rfl
    · cases h; exact .stay rfl (Or.inl rfl) (Or.inl rfl) rfl rfl rfl
    · cases h
      split <;> exact .stay rfl (Or.inl rfl) (Or.inl rfl) rfl rfl rfl
    · rename_i req hio
      split at h
      · unfold completePrimitive at h
        split at h
        · cases h; exact .stay rfl (Or.inl rfl) (Or.inl rfl) rfl rfl rfl
        · rename_i op k hk
          simp only at h
          have h2 : Grown s (emit (completionEvent op req e.ioRspRaw e.ioRspErr s) (setIo .idle s)) :=
            Or.inr ⟨op, k, req, e.ioRspRaw, e.ioRspErr, hk, hio, by simp⟩
          split at h
          · exact failIo_frame h rfl h2 rfl rfl rfl
          · exact afterPrimitive_frame h hk rfl h2 rfl rfl rfl
      · cases h; exact .stay rfl (Or.inl rfl) (Or.inl rfl) rfl rfl rfl
  · unfold beatEdge at h
    split at h
    · exact takeBeat_frame h
    · cases h; exact .stay rfl (Or.inl rfl) (Or.inl rfl) rfl rfl rfl
  · cases h; exact .stay rfl (Or.inl rfl) (Or.inl rfl) rfl rfl rfl
  · cases h; exact .stay rfl (Or.inl rfl) (Or.inl rfl) rfl rfl rfl

end Sys2Proof.Machine
end

