-- ==== Sys2Proof/Laws/Runs.lean ====
section
/-!
SUPPORT. From one edge of a command to its whole run.
-/

namespace Sys2Proof.Machine

variable {now : Nat} {ops k : List Micro} {es rest : List Edge} {e : Edge} {s t : State} {i : Instr}

/-- What every edge of a command keeps, the whole run keeps; the run ends where the edges or the command end. -/
theorem run_keeps (P : State → Prop)
    (hstep : ∀ e ∈ es, ∀ u v, u.seq = .busy ∨ u.seq = .beatWait → P u → commandEdge e u = .next v → P v)
    (hs : P s) (h : run es s = .next t) :
    ∃ u rest, P u ∧ rest <:+ es ∧ t = setInputs rest u ∧ (rest = [] ∨ u.seq = .ready ∨ u.seq = .resp) := by
  induction es generalizing s with
  | nil => cases h; exact ⟨s, [], hs, List.suffix_refl _, rfl, Or.inl rfl⟩
  | cons e es ih =>
    have go : s.seq = .busy ∨ s.seq = .beatWait → run (e :: es) s = (commandEdge e s).andThen (run es) →
        ∃ u rest, P u ∧ rest <:+ e :: es ∧ t = setInputs rest u ∧ (rest = [] ∨ u.seq = .ready ∨ u.seq = .resp) := by
      intro hq hr
      rw [hr] at h
      cases hc : commandEdge e s with
      | next v =>
        rw [hc] at h
        obtain ⟨u, rest, hu, hsuf, rfl, hrest⟩ := ih (fun e' he' => hstep e' (List.mem_cons_of_mem _ he'))
          (hstep e (List.mem_cons_self ..) s v hq hs hc) h
        exact ⟨u, rest, hu, hsuf.trans (List.suffix_cons e es), rfl, hrest⟩
      | fault f => rw [hc] at h; cases h
      | refused f => rw [hc] at h; cases h
    cases hq : s.seq
    · rw [run_rest (Or.inl hq)] at h; cases h; exact ⟨s, _, hs, List.suffix_refl _, rfl, Or.inr (Or.inl hq)⟩
    · exact go (Or.inl hq) (run_busy hq e es)
    · exact go (Or.inr hq) (run_beatWait hq e es)
    · rw [run_rest (Or.inr hq)] at h; cases h; exact ⟨s, _, hs, List.suffix_refl _, rfl, Or.inr (Or.inr hq)⟩

/-- Where every edge of a command goes on, so does the whole run. -/
theorem run_goesOn (P : State → Prop)
    (hstep : ∀ e u, u.seq = .busy ∨ u.seq = .beatWait → P u → ∃ v, commandEdge e u = .next v ∧ P v)
    (hs : P s) : ∃ t, run es s = .next t := by
  induction es generalizing s with
  | nil => exact ⟨_, rfl⟩
  | cons e es ih =>
    cases hq : s.seq
    · exact ⟨_, run_rest (Or.inl hq) _⟩
    · obtain ⟨v, hv, hp⟩ := hstep e s (Or.inl hq) hs
      rw [run_busy hq, hv]; exact ih hp
    · obtain ⟨v, hv, hp⟩ := hstep e s (Or.inr hq) hs
      rw [run_beatWait hq, hv]; exact ih hp
    · exact ⟨_, run_rest (Or.inr hq) _⟩

/-- Everything a command's program can do to the same fields, whatever the environment does short of a reset. -/
structure Ran (ops : List Micro) (s t : State) : Prop where
  cfg : t.cfg = s.cfg
  bound : t.bound = s.bound
  dev : t.dev = s.dev
  sdaPin : t.sdaPin = s.sdaPin
  sclPin : t.sclPin = s.sclPin
  responses : t.responses = s.responses
  trace : s.trace <+: t.trace
  todo : ∀ op ∈ t.todo, op.neutral = true ∨ op ∈ ops
  rxbuf : .pushByte ∉ ops → t.rxbuf = s.rxbuf
  busActive : (∀ d, .started d ∉ ops) → .stopped ∉ ops → t.busActive = s.busActive
  lastDir : (∀ d, .started d ∉ ops) → t.lastDir = s.lastDir

theorem Advanced.ran (h : Advanced ops s t) : Ran ops s t := by
  have ha := h.anchor
  simp only [Machine.anchor, Prod.mk.injEq] at ha
  obtain ⟨h1, h2, h3, h4, h5, -, h6⟩ := ha
  exact ⟨h1, h2, h3, h4, h5, h6, by rw [h.trace], fun op ho => Or.inr (h.todo.mem ho), h.rxbuf, h.busActive, h.lastDir⟩

theorem Ran.ofBusy (h : Ran ops (setSeq .busy s) t) : Ran ops s t :=
  ⟨h.cfg, h.bound, h.dev, h.sdaPin, h.sclPin, h.responses, h.trace, h.todo, h.rxbuf, h.busActive, h.lastDir⟩

theorem Ran.edge {u : State} (h : Ran ops s t) (he : Edged t u) : Ran ops s u := by
  have ha := he.anchor
  simp only [Machine.anchor, Prod.mk.injEq] at ha
  obtain ⟨h1, h2, h3, h4, h5, -, h6⟩ := ha
  have htodo : ∀ op ∈ t.todo, op.neutral = true ∨ op ∈ ops := h.todo
  refine ⟨h1.trans h.cfg, h2.trans h.bound, h3.trans h.dev, h4.trans h.sdaPin, h5.trans h.sclPin, h6.trans h.responses, ?_, ?_, ?_, ?_, ?_⟩
  · rcases he.trace with h' | ⟨op, k, req, raw, err, -, -, h'⟩ <;> rw [h']
    · exact h.trace
    · exact h.trace.trans (List.prefix_append _ _)
  · intro op ho
    rcases he.todo op ho with h' | h'
    · exact Or.inl h'
    · exact htodo op h'
  · intro hn
    exact (he.rxbuf (fun hm => (htodo _ hm).elim (by simp [Micro.neutral]) hn)).trans (h.rxbuf hn)
  · intro hn hm
    exact (he.busActive (fun d hd => (htodo _ hd).elim (by simp [Micro.neutral]) (hn d))
      (fun hd => (htodo _ hd).elim (by simp [Micro.neutral]) hm)).trans (h.busActive hn hm)
  · intro hn
    exact (he.lastDir (fun d hd => (htodo _ hd).elim (by simp [Micro.neutral]) (hn d))).trans (h.lastDir hn)

theorem runProgram_frame (hn : noReset s.inputs) (h : runProgram ops s = .next t) : Ran ops s t := by
  unfold runProgram at h
  cases ha : advance 0 ops (setSeq .busy s) with
  | fault f => rw [ha] at h; cases h
  | refused f => rw [ha] at h; cases h
  | next u =>
    rw [ha, andThen_next] at h
    have hu : Ran ops s u := (advance_frame ha).ran.ofBusy
    obtain ⟨v, rest, hv, -, rfl, -⟩ := run_keeps (Ran ops s)
      (fun e he u v _ hu hv => hu.edge (commandEdge_frame (hn e he) hv)) hu h
    exact ⟨hv.cfg, hv.bound, hv.dev, hv.sdaPin, hv.sclPin, hv.responses, hv.trace, hv.todo, hv.rxbuf, hv.busActive, hv.lastDir⟩

theorem run_grows (h : run es s = .next t) : t.cfg = s.cfg ∧ s.trace <+: t.trace ∧ t.responses = s.responses ∧ t.inputs <:+ es := by
  obtain ⟨u, rest, hu, hs, rfl, -⟩ := run_keeps (fun u => u.cfg = s.cfg ∧ s.trace <+: u.trace ∧ u.responses = s.responses) (fun e he u v _ hu hv => by
    cases hr : e.rst
    · have hed := commandEdge_frame hr hv
      have ha := hed.anchor
      simp only [anchor, Prod.mk.injEq] at ha
      refine ⟨ha.1.trans hu.1, ?_, ha.2.2.2.2.2.2.trans hu.2.2⟩
      rcases hed.trace with h' | ⟨op, k, req, raw, err, -, -, h'⟩ <;> rw [h']
      · exact hu.2.1
      · exact hu.2.1.trans (List.prefix_append _ _)
    · have : commandEdge e u = .next (applyReset u) := by simp [commandEdge, hr]
      rw [this] at hv; cases hv
      exact hu) ⟨rfl, List.prefix_refl _, rfl⟩ h
  exact ⟨hu.1, hu.2.1, hu.2.2, hs⟩

end Sys2Proof.Machine
end

