-- ==== Sys2Proof/Laws/Flow.lean ====
section
/-!
SUPPORT. Phase, I/O port and program agree, and every edge of a command keeps that (10_state.md R40, 20_memory.md R72, R82).
-/

namespace Sys2Proof.Machine

variable {now : Nat} {ops k : List Micro} {es rest : List Edge} {e : Edge} {s t : State} {i : Instr}

/-! ### Programs -/

theorem isProgram_tail {op : Micro} (h : isProgram i (op :: k)) (hop : op.goesOn = true) : isProgram i k := by
  obtain ⟨front, last, heq, hf, hl⟩ := h
  cases front with
  | nil =>
    simp only [List.nil_append, List.cons.injEq] at heq
    obtain ⟨rfl, rfl⟩ := heq
    cases op <;> simp_all [Micro.goesOn, Micro.ends]
  | cons x front =>
    simp only [List.cons_append, List.cons.injEq] at heq
    obtain ⟨rfl, rfl⟩ := heq
    exact ⟨front, last, rfl, fun o ho => hf o (List.mem_cons_of_mem _ ho), hl⟩

theorem isProgram_last {op : Micro} (h : isProgram i (op :: k)) (hop : op.goesOn = false) : k = [] ∧ op.ends i = true := by
  obtain ⟨front, last, heq, hf, hl⟩ := h
  cases front with
  | nil =>
    simp only [List.nil_append, List.cons.injEq] at heq
    obtain ⟨rfl, rfl⟩ := heq
    exact ⟨rfl, hl⟩
  | cons x front =>
    simp only [List.cons_append, List.cons.injEq] at heq
    obtain ⟨rfl, rfl⟩ := heq
    have := hf op (List.mem_cons_self ..)
    rw [hop] at this; cases this

theorem isProgram_ne_nil (h : isProgram i []) : False := by
  obtain ⟨front, last, heq, _⟩ := h
  simp at heq

theorem isProgram_append {front : List Micro} (hf : ∀ op ∈ front, op.goesOn = true) (h : isProgram i ops) :
    isProgram i (front ++ ops) := by
  obtain ⟨f, last, rfl, hf', hl⟩ := h
  refine ⟨front ++ f, last, by simp, ?_, hl⟩
  intro op hop
  rcases List.mem_append.mp hop with h | h
  · exact hf op h
  · exact hf' op h

theorem isProgram_single {op : Micro} (h : op.ends i = true) : isProgram i [op] := ⟨[], op, rfl, by simp, h⟩

/-! ### Phase, port and program agree -/

/-- The part of the invariant that says that phase, port and program agree. -/
structure Flow (s : State) : Prop where
  atRest : s.seq = .ready ∨ s.seq = .resp → s.io = .idle ∧ s.cmd = none ∧ s.todo = []
  inProgress : s.seq = .busy ∨ s.seq = .beatWait → ∃ i, s.cmd = some i ∧ isProgram i s.todo
  beat : s.seq = .beatWait → s.io = .idle ∧ ((s.todo = [.countedBeat] ∧ s.remaining ≠ 0#8) ∨ s.todo = [.textBeat])
  unsampled : s.seq ≠ .busy → s.retval = false
  busy : s.seq = .busy → waitsFor s
  status : s.seq = .resp → (s.rspData.extractLsb' 24 4).toNat ≤ 7

theorem flow_respondAs (op : BitVec 4) (st : Status) (p : Payload) (s : State) : Flow (respondAs op st p s) where
  atRest _ := ⟨rfl, rfl, rfl⟩
  inProgress h := by rcases h with h | h <;> cases h
  beat h := by cases h
  unsampled _ := rfl
  busy h := by cases h
  status _ := by
    show ((responseWord op st p).extractLsb' 24 4).toNat ≤ 7
    rw [responseWord_status]; exact code_le st

theorem flow_respondBurst (s : State) : Flow (respondBurst s) := by
  obtain ⟨st, p, h⟩ := respondBurst_eq s
  rw [h]; exact flow_respondAs _ _ _ _

theorem flow_issue {w : Bool} {m : Nat} {op : Micro} (hcmd : s.cmd = some i) (hp : isProgram i (op :: k)) (hq : s.seq = .busy)
    (ht : s.todo = op :: k) (hr : Micro.request s op = some ⟨w, s.dev, m⟩) : Flow (issue w m s) := by
  have hq' : (issue w m s).seq = .busy := hq
  have hr' : ∀ io, (setIo io s).todo.head?.bind (Micro.request (setIo io s)) = some ⟨w, s.dev, m⟩ := by
    intro io
    rw [setIo_todo, ht]
    cases op <;> exact hr
  refine ⟨?_, fun _ => ⟨i, hcmd, ?_⟩, ?_, fun h => absurd hq' h, ?_, ?_⟩
  · rintro (h | h) <;> rw [hq'] at h <;> cases h
  · show isProgram i s.todo; rw [ht]; exact hp
  · intro h; rw [hq'] at h; cases h
  · intro _
    unfold issue
    by_cases hg : s.cfg.tGap = 0
    · rw [if_pos hg]
      exact hr' _
    · rw [if_neg hg]
      exact ⟨hg, hr' _⟩
  · intro h; rw [hq'] at h; cases h

theorem advance_flow (hcmd : s.cmd = some i) (hp : isProgram i ops) (hq : s.seq = .busy) (hio : s.io = .idle)
    (h : advance now ops s = .next t) : Flow t := by
  induction ops generalizing s with
  | nil => exact (isProgram_ne_nil hp).elim
  | cons op k ih =>
    cases op with
    | writeLines => cases h; exact flow_issue (s := setTodo (.writeLines :: k) s) hcmd hp hq rfl rfl
    | setLine l v =>
      cases h
      cases l
      · exact flow_issue (s := storeDrv .sda v (setTodo (.setLine .sda v :: k) s)) hcmd hp hq rfl rfl
      · exact flow_issue (s := storeDrv .scl v (setTodo (.setLine .scl v :: k) s)) hcmd hp hq rfl rfl
    | driveBit =>
      cases h; exact flow_issue (s := storeDrv .sda (currentBit s) (setTodo (.driveBit :: k) s)) hcmd hp hq rfl rfl
    | markStretch => exact ih (s := markT0 now s) hcmd (isProgram_tail hp rfl) hq hio h
    | pollScl => cases h; exact flow_issue (s := setTodo (.pollScl :: k) s) hcmd hp hq rfl rfl
    | settle =>
      rw [advance] at h
      split at h
      · exact ih (s := markT1 now s) hcmd (isProgram_tail hp rfl) hq hio h
      · rename_i hs
        cases h
        refine ⟨?_, fun _ => ⟨i, hcmd, hp⟩, ?_, fun h => absurd hq h, ?_, ?_⟩
        · rintro (h | h) <;> simp [hq] at h
        · intro h; simp [hq] at h
        · intro _
          unfold waitsFor
          have : (markT1 now (setTodo (.settle :: k) s)).io = .idle := hio
          rw [this]
          exact ⟨rfl, hs⟩
        · intro h; simp [hq] at h
    | sampleBit => cases h; exact flow_issue (s := setTodo (.sampleBit :: k) s) hcmd hp hq rfl rfl
    | sampleAck => cases h; exact flow_issue (s := setTodo (.sampleAck :: k) s) hcmd hp hq rfl rfl
    | loadByte v => exact ih (s := loadShift v s) hcmd (isProgram_tail hp rfl) hq hio h
    | nextBit => exact ih (s := countBit s) hcmd (isProgram_tail hp rfl) hq hio h
    | storeBit => exact ih (s := shiftIn s) hcmd (isProgram_tail hp rfl) hq hio h
    | started dir => exact ih (s := markStarted dir s) hcmd (isProgram_tail hp rfl) hq hio h
    | stopped => exact ih (s := markStopped s) hcmd (isProgram_tail hp rfl) hq hio h
    | keepAddrAck => exact ih (s := latchAddrAck s) hcmd (isProgram_tail hp rfl) hq hio h
    | pushByte =>
      rw [advance, fifoPush] at h
      by_cases hr : s.rxbuf.length < s.cfg.rxcap
      · simp only [hr, if_true] at h
        exact ih (s := countByte (setRxbuf (s.rxbuf ++ [s.shreg]) s)) hcmd (isProgram_tail hp rfl) hq hio h
      · simp [hr] at h
    | countAck => exact ih (s := addAck s) hcmd (isProgram_tail hp rfl) hq hio h
    | countedBeat =>
      obtain ⟨rfl, he⟩ := isProgram_last hp rfl
      rw [advance] at h
      split at h
      · cases h; exact flow_respondBurst s
      · rename_i hr
        cases h
        refine ⟨?_, fun _ => ⟨i, hcmd, hp⟩, fun _ => ⟨hio, Or.inl ⟨rfl, hr⟩⟩, fun _ => rfl, ?_, ?_⟩
        · rintro (h | h) <;> cases h
        · intro h; cases h
        · intro h; cases h
    | textBeat =>
      obtain ⟨rfl, he⟩ := isProgram_last hp rfl
      cases h
      refine ⟨?_, fun _ => ⟨i, hcmd, hp⟩, fun _ => ⟨hio, Or.inr rfl⟩, fun _ => rfl, ?_, ?_⟩
      · rintro (h | h) <;> cases h
      · intro h; cases h
      · intro h; cases h
    | respond p => cases h; exact flow_respondAs _ _ _ _

theorem byteWriteOps_goesOn (d : Byte) : ∀ op ∈ byteWriteOps d, op.goesOn = true := by
  simp [byteWriteOps, repeatOps, shiftOutOps, ackSampleOps, Micro.goesOn]

theorem Flow.setIo (hf : Flow s) (hq : s.seq = .busy) {io : IoPort} (hw : waitsFor (Machine.setIo io s)) :
    Flow (Machine.setIo io s) := by
  refine ⟨?_, hf.inProgress, ?_, fun h => absurd hq h, fun _ => hw, ?_⟩
  · rintro (h | h) <;> simp [hq] at h
  · intro h; simp [hq] at h
  · intro h; simp [hq] at h

theorem failIo_flow (hcmd : s.cmd = some i) (hq : s.seq = .busy) (hio : s.io = .idle) (h : failIo now s = .next t) : Flow t := by
  rw [failIo, hcmd] at h
  split at h
  · rename_i n heq
    cases heq
    exact advance_flow (s := markDraining s) hcmd (isProgram_single rfl) hq hio h
  · rename_i heq
    cases heq
    exact advance_flow (s := markDraining s) hcmd (isProgram_single rfl) hq hio h
  · cases h; exact flow_respondAs _ _ _ _
  · cases h; exact flow_respondAs _ _ _ _

theorem afterPrimitive_flow {op : Micro} {raw : Nat} (hcmd : s.cmd = some i) (hp : isProgram i (op :: k))
    (hop : op.goesOn = true) (hq : s.seq = .busy) (hio : s.io = .idle) (h : afterPrimitive now op raw k s = .next t) : Flow t := by
  have hk := isProgram_tail hp hop
  cases op with
  | pollScl =>
    simp only [afterPrimitive, afterPoll] at h
    split at h
    · exact advance_flow hcmd hk hq hio h
    · split at h
      · cases h; exact flow_respondAs _ _ _ _
      · exact advance_flow hcmd hp hq hio h
  | sampleBit => exact advance_flow (s := setRetval (raw.testBit s.sdaPin.toNat) s) hcmd hk hq hio h
  | sampleAck => exact advance_flow (s := setRetval (!raw.testBit s.sdaPin.toNat) s) hcmd hk hq hio h
  | _ => exact advance_flow hcmd hk hq hio h

theorem request_goesOn {op : Micro} {req : IoReq} (h : Micro.request s op = some req) : op.goesOn = true := by
  cases op <;> first | rfl | (simp [Micro.request] at h)

theorem takeBeat_flow {d : Byte} (hf : Flow s) (hq : s.seq = .beatWait) (h : takeBeat now d s = .next t) : Flow t := by
  obtain ⟨i, hcmd, hp⟩ := hf.inProgress (Or.inr hq)
  obtain ⟨hio, ht⟩ := hf.beat hq
  have hsend : ∀ op : Micro, isProgram i [op] → isProgram i (byteWriteOps d ++ [.countAck, op]) := fun op ho =>
    isProgram_append (byteWriteOps_goesOn d) (isProgram_append (front := [.countAck]) (by simp [Micro.goesOn]) ho)
  rcases ht with ⟨ht, hr⟩ | ht
  · rw [ht] at hp
    simp only [takeBeat, ht] at h
    split at h
    · exact advance_flow (s := countBeat (setSeq .busy s)) hcmd (hsend _ hp) rfl hio h
    · exact advance_flow (s := countBeat (setSeq .busy s)) hcmd hp rfl hio h
  · rw [ht] at hp
    simp only [takeBeat, ht] at h
    split at h
    · cases h; exact flow_respondBurst _
    · split at h
      · exact advance_flow (s := setSeq .busy s) hcmd (hsend _ hp) rfl hio h
      · exact advance_flow (s := setSeq .busy s) hcmd hp rfl hio h

theorem flow_reset (s : State) : Flow (applyReset s) := by
  refine ⟨fun _ => ⟨rfl, rfl, rfl⟩, ?_, ?_, fun _ => rfl, ?_, ?_⟩
  · rintro (h | h) <;> cases h
  · intro h; cases h
  · intro h; cases h
  · intro h; cases h

theorem commandEdge_flow (hf : Flow s) (h : commandEdge e s = .next t) : Flow t := by
  unfold commandEdge at h
  split at h
  · cases h; exact flow_reset s
  · split at h
    · rename_i hq
      obtain ⟨i, hcmd, hp⟩ := hf.inProgress (Or.inl hq)
      have hw := hf.busy hq
      unfold waitsFor at hw
      unfold busyEdge at h
      split at h
      · rename_i hio
        rw [hio] at hw
        unfold settleEdge at h
        split at h
        · rename_i k hk
          rw [hk] at hp
          split at h
          · exact advance_flow hcmd (isProgram_tail hp rfl) hq hio h
          · cases h; exact hf
        · cases h; exact hf
      · rename_i n req hio
        rw [hio] at hw
        cases h
        refine hf.setIo hq ?_
        unfold waitsFor
        have hreq : (Machine.setIo (if n ≤ 1 then .request req else .gap (n - 1) req) s).todo.head?.bind
            (Micro.request (Machine.setIo (if n ≤ 1 then .request req else .gap (n - 1) req) s)) = some req := by
          rw [setIo_todo]
          rw [← hw.2]
          congr 1
        rw [setIo_io]
        split
        · rename_i heq; split at heq <;> cases heq
        · rename_i n' req' heq
          split at heq
          · cases heq
          · cases heq; exact ⟨by omega, hreq⟩
        · rename_i req' heq
          split at heq
          · cases heq; exact hreq
          · cases heq
        · rename_i heq; split at heq <;> cases heq
      · rename_i req hio
        rw [hio] at hw
        cases h
        split
        · refine hf.setIo hq ?_
          unfold waitsFor
          rw [setIo_io]
          show (setIo _ s).todo.head?.bind (Micro.request (setIo _ s)) = some req
          rw [setIo_todo, ← hw]
          congr 1
        · exact hf
      · rename_i req hio
        rw [hio] at hw
        split at h
        · unfold completePrimitive at h
          split at h
          · rename_i ht; rw [ht] at hp; exact (isProgram_ne_nil hp).elim
          · rename_i op k ht
            rw [ht] at hp hw
            simp only at h
            split at h
            · exact failIo_flow (s := emit (completionEvent op req e.ioRspRaw e.ioRspErr s) (setIo .idle s)) hcmd hq rfl h
            · exact afterPrimitive_flow (s := emit (completionEvent op req e.ioRspRaw e.ioRspErr s) (setIo .idle s)) hcmd hp
                (request_goesOn (s := s) (by simpa using hw)) hq rfl h
        · cases h; exact hf
    · rename_i hq
      unfold beatEdge at h
      split at h
      · exact takeBeat_flow hf hq h
      · cases h; exact hf
    · cases h; exact hf
    · cases h; exact hf

end Sys2Proof.Machine
end

