-- ==== Sys2Proof/Laws/Invariant.lean ====
section
/-!
SUPPORT. The receive buffer always has room for what a command still pushes (43_receive_buffer.md R270), and a command's run
keeps the invariant of the block.
-/

namespace Sys2Proof.Machine

variable {now : Nat} {ops k : List Micro} {es rest : List Edge} {e : Edge} {s t : State} {i : Instr}

theorem pushesIn_cons (op : Micro) (k : List Micro) :
    pushesIn (op :: k) = pushesIn k + if op = .pushByte then 1 else 0 := by
  simp [pushesIn, List.countP_cons]

theorem pushesIn_append (a b : List Micro) : pushesIn (a ++ b) = pushesIn a + pushesIn b := by
  simp [pushesIn]

/-- Room for what the program still pushes (10_state.md R34). -/
def Room (s : State) : Prop := s.rxbuf.length + pushesIn s.todo ≤ s.cfg.rxcap

/-- With room for its pushes, a program goes on (43_receive_buffer.md R270). -/
theorem advance_room (h : s.rxbuf.length + pushesIn ops ≤ s.cfg.rxcap) : ∃ t, advance now ops s = .next t ∧ Room t := by
  induction ops generalizing s with
  | nil => exact ⟨_, rfl, h⟩
  | cons op k ih =>
    have hk : s.rxbuf.length + pushesIn k ≤ s.cfg.rxcap := by rw [pushesIn_cons] at h; omega
    cases op with
    | writeLines => exact ⟨_, rfl, h⟩
    | setLine l v => cases l <;> exact ⟨_, rfl, h⟩
    | driveBit => exact ⟨_, rfl, h⟩
    | markStretch => exact ih (s := markT0 now s) hk
    | pollScl => exact ⟨_, rfl, h⟩
    | settle =>
      rw [advance]
      split
      · exact ih (s := markT1 now s) hk
      · exact ⟨_, rfl, h⟩
    | sampleBit => exact ⟨_, rfl, h⟩
    | sampleAck => exact ⟨_, rfl, h⟩
    | loadByte v => exact ih (s := loadShift v s) hk
    | nextBit => exact ih (s := countBit s) hk
    | storeBit => exact ih (s := shiftIn s) hk
    | started dir => exact ih (s := markStarted dir s) hk
    | stopped => exact ih (s := markStopped s) hk
    | keepAddrAck => exact ih (s := latchAddrAck s) hk
    | pushByte =>
      rw [pushesIn_cons, if_pos rfl] at h
      have hlt : s.rxbuf.length < s.cfg.rxcap := by omega
      simp only [advance, fifoPush, hlt, if_true]
      refine ih (s := countByte (setRxbuf (s.rxbuf ++ [s.shreg]) s)) ?_
      show (s.rxbuf ++ [s.shreg]).length + pushesIn k ≤ s.cfg.rxcap
      rw [List.length_append, List.length_singleton]; omega
    | countAck => exact ih (s := addAck s) hk
    | countedBeat =>
      rw [advance]
      split
      · obtain ⟨st, p, hb⟩ := respondBurst_eq s
        refine ⟨_, rfl, ?_⟩
        rw [hb]
        show s.rxbuf.length + 0 ≤ s.cfg.rxcap; omega
      · exact ⟨_, rfl, h⟩
    | textBeat => exact ⟨_, rfl, h⟩
    | respond p => refine ⟨_, rfl, ?_⟩; show s.rxbuf.length + 0 ≤ s.cfg.rxcap; omega

theorem failIo_room (h : Room s) : ∃ t, failIo now s = .next t ∧ Room t := by
  have h0 : s.rxbuf.length + 0 ≤ s.cfg.rxcap := by unfold Room at h; omega
  unfold failIo
  split
  · exact advance_room (s := markDraining s) h0
  · exact advance_room (s := markDraining s) h0
  · exact ⟨_, rfl, h0⟩
  · exact ⟨_, rfl, h0⟩

theorem afterPrimitive_room {op : Micro} {raw : Nat} (h : s.rxbuf.length + pushesIn (op :: k) ≤ s.cfg.rxcap) :
    ∃ t, afterPrimitive now op raw k s = .next t ∧ Room t := by
  have hk : s.rxbuf.length + pushesIn k ≤ s.cfg.rxcap := by rw [pushesIn_cons] at h; omega
  cases op with
  | pollScl =>
    simp only [afterPrimitive, afterPoll]
    split
    · exact advance_room hk
    · split
      · refine ⟨_, rfl, ?_⟩; show s.rxbuf.length + 0 ≤ s.cfg.rxcap; omega
      · exact advance_room h
  | sampleBit => exact advance_room (s := setRetval (raw.testBit s.sdaPin.toNat) s) hk
  | sampleAck => exact advance_room (s := setRetval (!raw.testBit s.sdaPin.toNat) s) hk
  | _ => exact advance_room hk

theorem pushesIn_byteWriteOps (d : Byte) : pushesIn (byteWriteOps d) = 0 := by
  simp [pushesIn, byteWriteOps, repeatOps, shiftOutOps, ackSampleOps]

theorem takeBeat_room {d : Byte} (h : Room s) : ∃ t, takeBeat now d s = .next t ∧ Room t := by
  unfold Room at h
  unfold takeBeat
  split
  · rename_i k hk
    rw [hk] at h
    simp only
    split
    · refine advance_room (s := countBeat (setSeq .busy s)) ?_
      show s.rxbuf.length + _ ≤ s.cfg.rxcap
      rw [pushesIn_append, pushesIn_byteWriteOps, pushesIn_cons]; simpa using h
    · exact advance_room (s := countBeat (setSeq .busy s)) h
  · rename_i k hk
    rw [hk] at h
    simp only
    split
    · obtain ⟨st, p, hb⟩ := respondBurst_eq (setSeq .busy s)
      refine ⟨_, rfl, ?_⟩
      rw [hb]
      show s.rxbuf.length + 0 ≤ s.cfg.rxcap; omega
    · split
      · refine advance_room (s := setSeq .busy s) ?_
        show s.rxbuf.length + _ ≤ s.cfg.rxcap
        rw [pushesIn_append, pushesIn_byteWriteOps, pushesIn_cons]; simpa using h
      · exact advance_room (s := setSeq .busy s) h
  · exact ⟨_, rfl, h⟩

/-- With room for its pushes, every edge of a command goes on and keeps the room. -/
theorem commandEdge_room (h : Room s) : ∃ t, commandEdge e s = .next t ∧ Room t := by
  unfold commandEdge
  split
  · exact ⟨_, rfl, Nat.zero_le _⟩
  · split
    · unfold busyEdge
      split
      · unfold settleEdge
        split
        · rename_i k hk
          split
          · refine advance_room ?_
            unfold Room at h
            rw [hk, pushesIn_cons] at h; omega
          · exact ⟨_, rfl, h⟩
        · exact ⟨_, rfl, h⟩
      · exact ⟨_, rfl, h⟩
      · split <;> exact ⟨_, rfl, h⟩
      · rename_i req _
        split
        · unfold completePrimitive
          split
          · exact ⟨_, rfl, h⟩
          · rename_i op k hk
            simp only
            split
            · exact failIo_room (s := emit (completionEvent op req e.ioRspRaw e.ioRspErr s) (setIo .idle s)) h
            · refine afterPrimitive_room (s := emit (completionEvent op req e.ioRspRaw e.ioRspErr s) (setIo .idle s)) ?_
              unfold Room at h
              rw [hk] at h; exact h
        · exact ⟨_, rfl, h⟩
    · unfold beatEdge
      split
      · exact takeBeat_room h
      · exact ⟨_, rfl, h⟩
    · exact ⟨_, rfl, h⟩
    · exact ⟨_, rfl, h⟩

/-! ### The invariant -/

theorem inv_iff : s.Inv ↔ Flow s ∧ Room s ∧ s.cfg.legal = true ∧ (s.bound = true → s.sdaPin ≠ s.sclPin) :=
  ⟨fun h => ⟨⟨h.atRest, h.inProgress, h.beat, h.unsampled, h.busy, h.status⟩, h.room, h.legal, h.pins⟩,
   fun ⟨h1, h2, h3, h4⟩ => ⟨h3, h4, h2, h1.atRest, h1.inProgress, h1.beat, h1.unsampled, h1.busy, h1.status⟩⟩

theorem commandEdge_session (h : commandEdge e s = .next t) :
    t.cfg = s.cfg ∧ ((s.bound = true → s.sdaPin ≠ s.sclPin) → t.bound = true → t.sdaPin ≠ t.sclPin) := by
  cases hr : e.rst
  · have ha := (commandEdge_frame hr h).anchor
    simp only [anchor, Prod.mk.injEq] at ha
    obtain ⟨h1, h2, -, h3, h4, -⟩ := ha
    exact ⟨h1, by rw [h2, h3, h4]; exact id⟩
  · have : commandEdge e s = .next (applyReset s) := by simp [commandEdge, hr]
    rw [this] at h; cases h
    exact ⟨rfl, fun _ hb => by cases hb⟩

theorem commandEdge_inv (h : s.Inv) : ∃ t, commandEdge e s = .next t ∧ t.Inv := by
  obtain ⟨hf, hr, hl, hp⟩ := inv_iff.mp h
  obtain ⟨t, ht, hrt⟩ := commandEdge_room (e := e) hr
  obtain ⟨hc, hp'⟩ := commandEdge_session ht
  exact ⟨t, ht, inv_iff.mpr ⟨commandEdge_flow hf ht, hrt, by rw [hc]; exact hl, hp' hp⟩⟩

theorem inv_setInputs (h : s.Inv) (es : List Edge) : (setInputs es s).Inv := by
  obtain ⟨hf, hr, hl, hp⟩ := inv_iff.mp h
  exact inv_iff.mpr ⟨⟨hf.atRest, hf.inProgress, hf.beat, hf.unsampled, fun hq => by
    have := hf.busy hq
    unfold waitsFor at this ⊢
    have hreq : Micro.request (setInputs es s) = Micro.request s := by funext op; cases op <;> rfl
    simpa [hreq] using this, hf.status⟩, hr, hl, hp⟩

theorem run_inv (h : s.Inv) : ∃ t, run es s = .next t ∧ t.Inv := by
  obtain ⟨t, ht⟩ := run_goesOn (es := es) State.Inv (fun e u _ hu => commandEdge_inv hu) h
  refine ⟨t, ht, ?_⟩
  obtain ⟨u, rest, hu, -, rfl, -⟩ := run_keeps State.Inv (fun e _ u v _ hu hv => by
    obtain ⟨v', hv', hi⟩ := commandEdge_inv (e := e) hu
    rw [hv] at hv'; cases hv'; exact hi) h ht
  exact inv_setInputs hu rest

/-- A command's program started in a state that meets the invariant but for the program itself. -/
theorem runProgram_inv (hcmd : s.cmd = some i) (hp : isProgram i ops) (hio : s.io = .idle)
    (hr : s.rxbuf.length + pushesIn ops ≤ s.cfg.rxcap) (hl : s.cfg.legal = true)
    (hb : s.bound = true → s.sdaPin ≠ s.sclPin) : ∃ t, runProgram ops s = .next t ∧ t.Inv := by
  obtain ⟨u, hu, hru⟩ := advance_room (now := 0) (s := setSeq .busy s) hr
  have hf := advance_flow (s := setSeq .busy s) hcmd hp rfl hio hu
  have ha := (advance_frame hu).anchor
  simp only [anchor, Prod.mk.injEq] at ha
  obtain ⟨h1, h2, -, h3, h4, -⟩ := ha
  have hi : u.Inv := inv_iff.mpr ⟨hf, hru, by rw [h1]; exact hl, by rw [h2, h3, h4]; exact hb⟩
  obtain ⟨t, ht, hti⟩ := run_inv (es := s.inputs) hi
  exact ⟨t, by rw [runProgram, hu, andThen_next, ht], hti⟩

theorem respondAs_inv (op : BitVec 4) (st : Status) (p : Payload) (hr : s.rxbuf.length ≤ s.cfg.rxcap) (hl : s.cfg.legal = true)
    (hb : s.bound = true → s.sdaPin ≠ s.sclPin) : (respondAs op st p s).Inv :=
  inv_iff.mpr ⟨flow_respondAs _ _ _ _, hr, hl, hb⟩

theorem startOps_goesOn : ∀ op ∈ startOps, op.goesOn = true := by simp [startOps, Micro.goesOn]
theorem stopOps_goesOn : ∀ op ∈ stopOps, op.goesOn = true := by simp [stopOps, Micro.goesOn]

theorem repeatOps_all (p : Micro → Bool) (n : Nat) (h : ∀ op ∈ ops, p op = true) : ∀ op ∈ repeatOps n ops, p op = true := by
  induction n with
  | zero => simp [repeatOps]
  | succ n ih =>
    intro op hop
    rcases List.mem_append.mp hop with h' | h'
    · exact h op h'
    · exact ih op h'

theorem readBytesOps_goesOn (c : Config) (n : Nat) : ∀ op ∈ readBytesOps c n, op.goesOn = true := by
  induction n with
  | zero => simp [readBytesOps]
  | succ n ih =>
    intro op hop
    simp only [readBytesOps, List.mem_append] at hop
    rcases hop with ((h | h) | h) | h
    · have : ∀ op ∈ byteReadOps, op.goesOn = true := by simp [byteReadOps, repeatOps, bitReadOps, Micro.goesOn]
      exact this op h
    · simp at h; subst h; rfl
    · have : ∀ op ∈ masterAckOps c (decide (n = 0)), op.goesOn = true := by simp [masterAckOps, bitWriteOps, Micro.goesOn]
      exact this op h
    · exact ih op h

theorem pushesIn_readBytesOps (c : Config) (n : Nat) : pushesIn (readBytesOps c n) = n := by
  induction n with
  | zero => rfl
  | succ n ih =>
    have h1 : pushesIn byteReadOps = 0 := by simp [pushesIn, byteReadOps, repeatOps, bitReadOps]
    have h2 : pushesIn (masterAckOps c (decide (n = 0))) = 0 := by simp [pushesIn, masterAckOps, bitWriteOps]
    have h3 : pushesIn [Micro.pushByte] = 1 := rfl
    rw [readBytesOps, pushesIn_append, pushesIn_append, pushesIn_append, ih, h1, h2, h3]; omega

end Sys2Proof.Machine
end

