-- ==== Sys2Proof/Laws/Events.lean ====
section
/-!
SUPPORT. The events of a command's run are primitives of the session (20_memory.md R79, 40_session_line_driver.md R144, R147).
-/

namespace Sys2Proof.Machine

variable {now : Nat} {ops k : List Micro} {es rest : List Edge} {e : Edge} {s t : State} {i : Instr}

/-! ### Events -/

theorem runProgram_events {P : Event → Prop} (hn : noReset s.inputs) (h : runProgram ops s = .next t)
    (hcmd : s.cmd = some i) (hp : isProgram i ops) (hio : s.io = .idle)
    (hP : ∀ sda scl err, P (.wrote s.dev (maskOf s.cfg.portW s.cfg.otherBits s.sdaPin s.sclPin sda scl) err))
    (hR : ∀ l level, P (.sampled s.dev (pinSelect s.cfg.portW (s.pin l)) l level)) :
    ∃ evs, t.trace = s.trace ++ evs ∧ ∀ ev ∈ evs, P ev := by
  unfold runProgram at h
  cases ha : advance 0 ops (setSeq .busy s) with
  | fault f => rw [ha] at h; cases h
  | refused f => rw [ha] at h; cases h
  | next u =>
    rw [ha, andThen_next] at h
    let Q : State → Prop := fun v => Flow v ∧ Ran ops s v ∧ ∃ evs, v.trace = s.trace ++ evs ∧ ∀ ev ∈ evs, P ev
    have hu : Q u := ⟨advance_flow (s := setSeq .busy s) hcmd hp rfl hio ha, (advance_frame ha).ran.ofBusy, [], by simpa using (advance_frame ha).trace, by simp⟩
    obtain ⟨v, rest, ⟨-, -, hv⟩, -, rfl, -⟩ := run_keeps Q (fun e he u v hq hu hv => by
      obtain ⟨hf, hr, evs, hevs, hall⟩ := hu
      have hed := commandEdge_frame (hn e he) hv
      refine ⟨commandEdge_flow hf hv, hr.edge hed, ?_⟩
      rcases hed.trace with h' | ⟨op, k, req, raw, err, hk, hout, h'⟩
      · exact ⟨evs, by rw [h', hevs], hall⟩
      · refine ⟨evs ++ [completionEvent op req raw err u], by rw [h', hevs, List.append_assoc], ?_⟩
        intro ev hev
        rcases List.mem_append.mp hev with hev | hev
        · exact hall ev hev
        · rw [List.mem_singleton] at hev
          subst hev
          have hb : u.seq = .busy := by
            rcases hq with hq | hq
            · exact hq
            · have := (hf.beat hq).1; rw [hout] at this; cases this
          have hw := hf.busy hb
          unfold waitsFor at hw
          rw [hout, hk] at hw
          have hw' : Micro.request u op = some req := by simpa using hw
          have hm : lineMask u = maskOf s.cfg.portW s.cfg.otherBits s.sdaPin s.sclPin u.sdaDrv u.sclDrv := by
            simp only [lineMask, hr.cfg, hr.sdaPin, hr.sclPin]
          have hsda : pinSelect s.cfg.portW u.sdaPin = pinSelect s.cfg.portW (s.pin .sda) := by simp only [State.pin, hr.sdaPin]
          have hscl : pinSelect s.cfg.portW u.sclPin = pinSelect s.cfg.portW (s.pin .scl) := by simp only [State.pin, hr.sclPin]
          cases op <;> simp only [Micro.request, Option.some.injEq, reduceCtorEq] at hw' <;> subst hw' <;>
            simp only [completionEvent, Micro.readsLine, if_true, Bool.false_eq_true, if_false, hr.cfg, hr.dev, hm, hsda, hscl]
          all_goals first | exact hP _ _ _ | exact hR _ _) hu h
    exact hv

end Sys2Proof.Machine
end

