-- ==== Sys2Proof/Laws/Masks.lean ====
section
/-!
SUPPORT. Port bits on a port of any width (00_scope.md R7, R10; 40_session_line_driver.md R147).
-/

namespace Sys2Proof.Machine

/-- A port bit stands at its pin alone, if the port has that pin. -/
@[simp] theorem portBit_getLsbD (w : Nat) (p : Pin) (b : Bool) (i : Nat) :
    (portBit w p b).getLsbD i = (decide (i < w) && decide (i = p.toNat) && b) := by
  simp only [portBit, BitVec.getLsbD_shiftLeft, BitVec.truncate_eq_setWidth, BitVec.getLsbD_setWidth, BitVec.getLsbD_ofBool]
  by_cases h : i = p.toNat
  · subst h
    by_cases hw : p.toNat < w
    · simp [hw, Nat.zero_lt_of_lt hw]
    · simp [hw]
  · by_cases h2 : i < p.toNat
    · simp [h, h2]
    · have : i - p.toNat ≠ 0 := by omega
      simp [h, this]

/-- A select is of the width of the port and holds its own pin alone (R147). -/
@[simp] theorem pinSelect_testBit (w : Nat) (p : Pin) (i : Nat) :
    (pinSelect w p).testBit i = (decide (i < w) && decide (i = p.toNat)) := by
  rw [pinSelect, BitVec.testBit_toNat, portBit_getLsbD, Bool.and_true]

end Sys2Proof.Machine
end

