-- ==== Sys2Proof/Laws/PerInstr.lean ====
section
/-!
SUPPORT. Statements about every command, one lemma per constructor of `Instr`: the opcode field of its word, and the row
of the opcode table its word matches.
-/

namespace Sys2Proof.Laws

open Sys2Proof.Machine

/-! ### The opcode field -/

/-- The opcode field of the command's word is the command's (30_encoding.md R100, R102). -/
def OpcodeField.Statement (i : Instr) : Prop := opField (encode i) = i.opcode

theorem OpcodeField.beginSession (dev : Byte) (sda scl : Pin) : OpcodeField.Statement (.beginSession dev sda scl) := opField_encode _
theorem OpcodeField.beginTx (addr : SlaveAddr) (dir : Bool) : OpcodeField.Statement (.beginTx addr dir) := opField_encode _
theorem OpcodeField.endTx : OpcodeField.Statement .endTx := opField_encode _
theorem OpcodeField.write (v : Byte) : OpcodeField.Statement (.write v) := opField_encode _
theorem OpcodeField.writeBytes (n : Byte) : OpcodeField.Statement (.writeBytes n) := opField_encode _
theorem OpcodeField.writeStr : OpcodeField.Statement .writeStr := opField_encode _
theorem OpcodeField.requestFrom (addr : SlaveAddr) (qty : Byte) : OpcodeField.Statement (.requestFrom addr qty) := opField_encode _
theorem OpcodeField.available : OpcodeField.Statement .available := opField_encode _
theorem OpcodeField.read : OpcodeField.Statement .read := opField_encode _
theorem OpcodeField.status : OpcodeField.Statement .status := opField_encode _

/-! ### The reserved bits -/

/-- The mask of the command's row in the opcode table (30_encoding.md R102). -/
def rowMask : Instr → Word
  | .beginSession _ _ _ => 0xFF00FFC0#32
  | .beginTx _ _ => 0xFFFFFE80#32
  | .write _ | .writeBytes _ => 0xFFFFFF00#32
  | .requestFrom _ _ => 0xFFFF0080#32
  | .endTx | .writeStr | .available | .read | .status => 0xFFFFFFFF#32

/-- Outside its operand fields the command's word is its opcode and zeros (R101, R103, R111). -/
def ReservedBits.Statement (i : Instr) : Prop := encode i &&& rowMask i = i.opcode ++ 0#28

theorem reserved_of_low {i : Instr} (h : ∀ j, j < 28 → ((encode i).getLsbD j && (rowMask i).getLsbD j) = false)
    (hm : ∀ j, j < 4 → (rowMask i).getLsbD (28 + j) = true) : encode i &&& rowMask i = i.opcode ++ 0#28 := by
  apply BitVec.eq_of_getLsbD_eq
  intro j hj
  show _ = (i.opcode ++ 0#28 : BitVec (4 + 28)).getLsbD j
  rw [BitVec.getLsbD_and, BitVec.getLsbD_append]
  by_cases hlow : j < 28
  · rw [h j hlow, if_pos hlow]; simp
  · have := hm (j - 28) (by omega)
    rw [Nat.add_sub_cancel' (by omega)] at this
    rw [if_neg hlow, encode_high _ _ (by omega), this, Bool.and_true]

theorem ReservedBits.beginSession (dev : Byte) (sda scl : Pin) : ReservedBits.Statement (.beginSession dev sda scl) := by
  refine reserved_of_low (fun j hj => ?_) (fun j hj => by interval_cases j <;> simp [rowMask])
  rw [encode_low _ _ hj]
  show ((0#4 ++ dev ++ 0#10 ++ scl ++ sda : BitVec (4 + 8 + 10 + 3 + 3)).getLsbD j && (0xFF00FFC0#32).getLsbD j) = false
  simp only [BitVec.getLsbD_append]
  interval_cases j <;> simp

theorem ReservedBits.beginTx (addr : SlaveAddr) (dir : Bool) : ReservedBits.Statement (.beginTx addr dir) := by
  refine reserved_of_low (fun j hj => ?_) (fun j hj => by interval_cases j <;> simp [rowMask])
  rw [encode_low _ _ hj]
  show ((0#19 ++ BitVec.ofBool dir ++ 0#1 ++ addr : BitVec (19 + 1 + 1 + 7)).getLsbD j && (0xFFFFFE80#32).getLsbD j) = false
  simp only [BitVec.getLsbD_append]
  interval_cases j <;> simp

theorem ReservedBits.endTx : ReservedBits.Statement .endTx := by unfold ReservedBits.Statement; decide

theorem ReservedBits.write (v : Byte) : ReservedBits.Statement (.write v) := by
  refine reserved_of_low (fun j hj => ?_) (fun j hj => by interval_cases j <;> simp [rowMask])
  rw [encode_low _ _ hj]
  show ((0#20 ++ v : BitVec (20 + 8)).getLsbD j && (0xFFFFFF00#32).getLsbD j) = false
  simp only [BitVec.getLsbD_append]
  interval_cases j <;> simp

theorem ReservedBits.writeBytes (n : Byte) : ReservedBits.Statement (.writeBytes n) := by
  refine reserved_of_low (fun j hj => ?_) (fun j hj => by interval_cases j <;> simp [rowMask])
  rw [encode_low _ _ hj]
  show ((0#20 ++ n : BitVec (20 + 8)).getLsbD j && (0xFFFFFF00#32).getLsbD j) = false
  simp only [BitVec.getLsbD_append]
  interval_cases j <;> simp

theorem ReservedBits.writeStr : ReservedBits.Statement .writeStr := by unfold ReservedBits.Statement; decide

theorem ReservedBits.requestFrom (addr : SlaveAddr) (qty : Byte) : ReservedBits.Statement (.requestFrom addr qty) := by
  refine reserved_of_low (fun j hj => ?_) (fun j hj => by interval_cases j <;> simp [rowMask])
  rw [encode_low _ _ hj]
  show ((0#12 ++ qty ++ 0#1 ++ addr : BitVec (12 + 8 + 1 + 7)).getLsbD j && (0xFFFF0080#32).getLsbD j) = false
  simp only [BitVec.getLsbD_append]
  interval_cases j <;> simp

theorem ReservedBits.available : ReservedBits.Statement .available := by unfold ReservedBits.Statement; decide
theorem ReservedBits.read : ReservedBits.Statement .read := by unfold ReservedBits.Statement; decide
theorem ReservedBits.status : ReservedBits.Statement .status := by unfold ReservedBits.Statement; decide

end Sys2Proof.Laws
end

