-- ==== Sys2Proof/Tests/Slice0.lean ====
section
/-!
SUPPORT. Tests: the assembler's checks refuse ill-formed lines, the decoder reads words written out bit by bit, each
command's meaning on small cases of 95_test_vectors.md, and for every statement with hypotheses a case that meets them.
-/

namespace Sys2Proof.Tests

open Sys2Proof.Machine

/-! ### Helpers -/

/-- An edge at which nothing is driven. -/
def quiet : Edge :=
  { rst := false, cmdValid := false, cmdData := 0#32, rspReady := false, ioReqReady := false, ioRspValid := false,
    ioRspRaw := 0x00, ioRspErr := false, nowMs := 0 }

/-- The transfer and the completion of one primitive that samples `raw` at time `now`. -/
def prim (raw : Nat) (now : Nat) : List Edge :=
  [{ quiet with ioReqReady := true, nowMs := now }, { quiet with ioRspValid := true, ioRspRaw := raw, nowMs := now }]

/-- `n` primitives that sample `raw`. -/
def prims (n : Nat) (raw : Nat) : List Edge := (List.replicate n (prim raw 0)).flatten

/-- One primitive that fails. -/
def primErr : List Edge := [{ quiet with ioReqReady := true }, { quiet with ioRspValid := true, ioRspErr := true }]

/-- One data beat. -/
def beat (w : Word) : Edge := { quiet with cmdValid := true, cmdData := w }

/-- A `ByteWrite` whose acknowledge window samples `raw`. -/
def byteEdges (raw : Nat) : List Edge := prims 26 0xFF ++ prim raw 0 ++ prims 2 0xFF

/-- A `BitRead` that is not stretched and samples `raw`, its settle wait ended at 2 ms. -/
def bitEdges (raw : Nat) : List Edge :=
  prims 2 0xFF ++ prim 0xFF 0 ++ [{ quiet with nowMs := 2 }] ++ prim raw 0 ++ prim 0xFF 0

/-- A block with the session of `BEGIN 0, 0, 1`, in `READY`, with the edges `es` to come. -/
def bench (es : List Edge) : State := { State.reset with bound := true, sclPin := 1#3, inputs := es }

/-- The response a result holds, if the block is in `RESP`. -/
def response (r : Result) : Option Word :=
  match r with
  | .next t => if t.seq = .resp then some t.rspData else none
  | .fault _ => none
  | .refused _ => none

/-- The masks written, in order. -/
def masks (r : Result) : List Nat :=
  match r with
  | .next t => t.trace.filterMap fun ev =>
    match ev with
    | .wrote _ m _ => some m
    | .sampled _ _ _ _ => none
  | .fault _ => []
  | .refused _ => []

/-- A property of the next state. -/
def holds (r : Result) (p : State → Bool) : Bool :=
  match r with
  | .next t => p t
  | .fault _ => false
  | .refused _ => false

theorem next_of_holds {r : Result} (h : holds r (fun _ => true) = true) : ∃ t, r = .next t := by
  cases r with
  | next t => exact ⟨t, rfl⟩
  | fault f => cases h
  | refused f => cases h

/-! ### The assembler refuses (30_encoding.md R120, R121) -/

theorem test_refuses_dev : AsmLine.wellFormed (.beginSession 256 0 1) = false := by decide
theorem test_refuses_sda : AsmLine.wellFormed (.beginSession 0 8 1) = false := by decide
theorem test_refuses_scl : AsmLine.wellFormed (.beginSession 0 0 8) = false := by decide
theorem test_refuses_one_pin : AsmLine.wellFormed (.beginSession 0 3 3) = false := by decide
theorem test_refuses_address : AsmLine.wellFormed (.beginTx 128 none) = false := by decide
theorem test_refuses_byte : AsmLine.wellFormed (.write 256) = false := by decide
theorem test_refuses_count : AsmLine.wellFormed (.writeBytes 256) = false := by decide
theorem test_refuses_request :
    AsmLine.wellFormed (.requestFrom 128 0) = false ∧ AsmLine.wellFormed (.requestFrom 0 256) = false := by decide
theorem test_refuses_beat : AsmLine.wellFormed (.beat 256) = false := by decide
theorem test_refuses_buffer : AsmLine.wellFormed (.writeBuf [1, 256]) = false ∧
    AsmLine.wellFormed (.writeBuf (List.replicate 256 0)) = false := by decide +kernel
theorem test_refuses_text : AsmLine.wellFormed (.writeText [0x41, 0]) = false ∧
    AsmLine.wellFormed (.writeText [256]) = false := by decide
theorem test_refuses_tx : AsmLine.wellFormed (.tx 128 []) = false ∧ AsmLine.wellFormed (.tx 0 [256]) = false ∧
    AsmLine.wellFormed (.tx 0 (List.replicate 256 0)) = false := by decide +kernel
theorem test_refuses_rx : AsmLine.wellFormed (.rx 128 1) = false ∧ AsmLine.wellFormed (.rx 0 256) = false := by decide
theorem test_refuses_missing_beat : assemble [.writeBytes 2, .beat 1] = none := by decide
theorem test_refuses_early_command : assemble [.writeBytes 1, .endTx, .beat 1] = none := by decide
theorem test_refuses_unterminated_text : assemble [.writeStr, .beat 0x41] = none := by decide
theorem test_refuses_stray_beat : assemble [.beat 1] = none := by decide
theorem test_refuses_extra_beat : assemble [.writeBytes 1, .beat 1, .beat 2] = none := by decide
/-- The words of L3, Program 4's `WRITE_BUF 0x01, 0x02`. -/
theorem test_assembles : assemble [.writeBuf [1, 2], .status] =
    some [0x50000002#32, 0x00000001#32, 0x00000002#32, 0xA0000000#32] := by decide

/-! ### Decoding (30_encoding.md R103; 95_test_vectors.md V-D) -/

theorem test_decode_begin : decode 0b00010000000001010000000000011010#32 = .ok (.beginSession 5#8 2#3 3#3) := by decide
theorem test_decode_begin_tx : decode 0b00100000000000000000000100011110#32 = .ok (.beginTx 0x1E#7 true) := by decide
theorem test_decode_end_tx : decode 0b00110000000000000000000000000000#32 = .ok .endTx := by decide
theorem test_decode_write : decode 0b01000000000000000000000011111111#32 = .ok (.write 0xFF#8) := by decide
theorem test_decode_write_bytes : decode 0b01010000000000000000000000000010#32 = .ok (.writeBytes 2#8) := by decide
theorem test_decode_write_str : decode 0b01100000000000000000000000000000#32 = .ok .writeStr := by decide
theorem test_decode_request_from :
    decode 0b01110000000000000000011000011110#32 = .ok (.requestFrom 0x1E#7 6#8) := by decide
theorem test_decode_available : decode 0b10000000000000000000000000000000#32 = .ok .available := by decide
theorem test_decode_read : decode 0b10010000000000000000000000000000#32 = .ok .read := by decide
theorem test_decode_status : decode 0b10100000000000000000000000000000#32 = .ok .status := by decide
theorem test_illegal_words : decode 0x10000040#32 = .error .reservedBits ∧ decode 0x1F000008#32 = .error .reservedBits ∧
    decode 0x20000080#32 = .error .reservedBits ∧ decode 0x40000100#32 = .error .reservedBits ∧
    decode 0x00000000#32 = .error .reservedOpcode ∧ decode 0xFFFFFFFF#32 = .error .reservedOpcode := by decide
theorem test_table_word : decodeTableWord 32 0x7000061E = some (.requestFrom 0x1E#7 6#8) := by decide

/-! ### The commands (95_test_vectors.md) -/

/-- V-D, 0x1005001A. -/
theorem test_begin : response (exec (.beginSession 5#8 2#3 3#3) { State.reset with inputs := prims 1 0xFF }) =
      some 0x10000000#32 ∧
    masks (exec (.beginSession 5#8 2#3 3#3) { State.reset with inputs := prims 1 0xFF }) = [0x0C] := by decide +kernel
/-- V-D, 0x1000001B. -/
theorem test_begin_one_pin : response (exec (.beginSession 0#8 3#3 3#3) State.reset) = some 0x16000000#32 := by decide
/-- V-F1. -/
theorem test_begin_tx : response (exec (.beginTx 0x1E#7 false) (bench (prims 4 0xFF ++ byteEdges 0x02))) =
      some 0x20000001#32 ∧
    masks (exec (.beginTx 0x1E#7 false) (bench (prims 4 0xFF ++ byteEdges 0x02))) =
      [3, 3, 2, 0, 0, 2, 0, 0, 2, 0, 1, 3, 1, 1, 3, 1, 1, 3, 1, 1, 3, 1, 0, 2, 0, 0, 2, 0, 1, 3, 1, 0] := by
  decide +kernel
/-- V-F2, `BEGIN_TX` I/O error. -/
theorem test_begin_tx_error :
    response (exec (.beginTx 0x1E#7 false) (bench (prims 2 0xFF ++ primErr))) = some 0x22000000#32 ∧
    holds (exec (.beginTx 0x1E#7 false) (bench (prims 2 0xFF ++ primErr)))
      (fun t => !t.sdaDrv && t.sclDrv && !t.busActive) = true := by decide +kernel
/-- V-F2, `END_TX` with `bus_active` = 0. -/
theorem test_end_tx : response (exec .endTx (bench (prims 3 0xFF))) = some 0x30000000#32 ∧
    masks (exec .endTx (bench (prims 3 0xFF))) = [2, 2, 3] := by decide +kernel
/-- L1-4: an ACK and a NACK. -/
theorem test_write : response (exec (.write 0x02#8) (bench (byteEdges 0x02))) = some 0x40000001#32 ∧
    response (exec (.write 0x02#8) (bench (byteEdges 0x03))) = some 0x40000000#32 := by decide +kernel
/-- V-F2, beat with upper bits set: byte 0x41. -/
theorem test_write_bytes :
    response (exec (.writeBytes 1#8) (bench (beat 0xDEADBE41#32 :: byteEdges 0x02))) = some 0x50000001#32 ∧
    masks (exec (.writeBytes 1#8) { bench (beat 0xDEADBE41#32 :: byteEdges 0x02) with sdaDrv := false, sclDrv := false }) =
      [0, 2, 0, 1, 3, 1, 0, 2, 0, 0, 2, 0, 0, 2, 0, 0, 2, 0, 0, 2, 0, 1, 3, 1, 1, 3, 1, 0] := by decide +kernel
/-- V-F2, I/O error in byte 2: the third beat is taken. -/
theorem test_write_bytes_error :
    response (exec (.writeBytes 3#8) (bench (beat 0x01#32 :: byteEdges 0x02 ++ beat 0x02#32 :: primErr ++ [beat 0x03#32]))) =
      some 0x52000001#32 := by decide +kernel
/-- V-F2, `WRITE_STR` "AB". -/
theorem test_write_str : response (exec .writeStr
    (bench (beat 0x41#32 :: byteEdges 0x02 ++ beat 0x42#32 :: byteEdges 0x02 ++ [beat 0x00#32]))) =
      some 0x60000002#32 := by decide +kernel
/-- V-F2, `REQUEST_FROM` address NACK, absent slave. -/
theorem test_request_from : response (exec (.requestFrom 0x1E#7 1#8) (bench (prims 4 0xFF ++ byteEdges 0xFF ++
      (List.replicate 8 (bitEdges 0xFF)).flatten ++ prims 3 0xFF))) = some 0x70000001#32 ∧
    holds (exec (.requestFrom 0x1E#7 1#8) (bench (prims 4 0xFF ++ byteEdges 0xFF ++
      (List.replicate 8 (bitEdges 0xFF)).flatten ++ prims 3 0xFF))) (fun t => decide (t.rxbuf = [0xFF#8])) = true := by
  decide +kernel
/-- V-F2, timeout at byte 0, bit 0. -/
theorem test_request_from_timeout : response (exec (.requestFrom 0x1E#7 1#8) (bench (prims 4 0xFF ++
      byteEdges 0x02 ++ prims 2 0xFF ++ prim 0x01 1000 ++ prim 0x01 1001))) = some 0x71000100#32 := by
  decide +kernel
/-- V-R: 32 bytes. -/
theorem test_available : response (exec .available { State.reset with rxbuf := List.replicate 32 0x00#8 }) =
    some 0x80000020#32 := by decide
/-- V-R: the oldest byte. -/
theorem test_read : response (exec .read { State.reset with rxbuf := [0x01#8, 0x02#8] }) = some 0x90000001#32 ∧
    holds (exec .read { State.reset with rxbuf := [0x01#8, 0x02#8] }) (fun t => decide (t.rxbuf = [0x02#8])) = true := by
  decide
/-- V-C: after V-F1, and after a `REQUEST_FROM 0x1E, 6`. -/
theorem test_status : response (exec .status { bench [] with sdaDrv := false, sclDrv := false, busActive := true }) =
      some 0xA000C800#32 ∧
    response (exec .status { bench [] with
      sdaDrv := false, sclDrv := false, busActive := true, lastDir := true, rxbuf := List.replicate 6 0x00#8 }) =
      some 0xA004C806#32 := by decide
/-- `step` runs a word placed where it takes its next one. -/
theorem test_fetch : response (step (State.reset.withFetchWord 32 0xA0000000)) = some 0xA0030000#32 ∧
    response (step (State.reset.withFetchWord 32 0xB0000000)) = some 0xB7000000#32 := by decide

/-- 10_state.md R42: no sampled ack is left after a command, nor while a burst waits for its next beat. -/
theorem test_no_sample_kept : holds (exec (.write 0x02#8) (bench (byteEdges 0x02))) (fun t => !t.retval) = true ∧
    holds (exec (.writeBytes 2#8) (bench (beat 0x41#32 :: byteEdges 0x02)))
      (fun t => decide (t.seq = .beatWait) && !t.retval) = true := by decide +kernel
/-- A port of 16 pins, `OTHER_BITS` of 16 bits, and pin fields of 4 bits (00_scope.md R7, R8). -/
def widePort : Config := { Config.reference with portW := 16, pinW := 4, otherBits := 0xA5F0 }
/-- 40_session_line_driver.md R143 by hand on the wide port: `BEGIN` on pins 2 and 3 writes 0xA5FC, the first two writes of
`END_TX` clear pin 2 alone, and the select of pin 7 is 0x0080. -/
theorem test_wide_port : widePort.legal = true ∧
    masks (step { bench (beat 0x1005001A#32 :: prims 1 0xFF) with cfg := widePort }) = [0xA5FC] ∧
    masks (exec .endTx { bench (prims 3 0xFF) with cfg := widePort, sdaPin := 2#3, sclPin := 3#3 }) =
      [0xA5F8, 0xA5F8, 0xA5FC] ∧ pinSelect 16 7#3 = 0x0080 := by decide +kernel
/-- A word of 16 bits, or a device field of 4, cannot hold what 30_encoding.md R100, R101 put there. -/
theorem test_width_refused : ∀ c ∈ [{ Config.reference with cmdW := 16 }, { Config.reference with devW := 4 }],
    step { bench [quiet] with cfg := c } = .refused .illegalConfig := by
  intro c hc
  simp only [List.mem_cons, List.not_mem_nil, or_false] at hc
  rcases hc with rfl | rfl <;> rfl

/-! ### Every statement's hypotheses can be met -/

/-- `o` has a value that passes `p`. -/
def sat {α : Type} (o : Option α) (p : α → Bool) : Bool :=
  match o with
  | some a => p a
  | none => false

theorem exists_of_sat {α : Type} {o : Option α} {p : α → Bool} (h : sat o p = true) : ∃ a, o = some a ∧ p a = true := by
  cases o with
  | none => cases h
  | some a => exact ⟨a, rfl, h⟩

theorem pair_of_sat {α β : Type} {o : Option (α × β)} {p : α × β → Bool} (h : sat o p = true) :
    ∃ a b, o = some (a, b) ∧ p (a, b) = true :=
  let ⟨(a, b), h⟩ := exists_of_sat h
  ⟨a, b, h⟩

theorem noReset_of {es : List Edge} (h : es.all (fun e => !e.rst) = true) : noReset es := by
  intro e he
  simpa using List.all_eq_true.mp h e he

theorem witness_EncodeOfDecodeIsTheWord : ∃ (w : Word) (i : Instr), decode w = .ok i :=
  ⟨0x7000FF7F#32, .requestFrom 0x7F#7 255#8, by decide⟩

theorem witness_TransmissionAssembles : ∃ (addr : Nat) (bytes : List Nat),
    addr < 128 ∧ bytes.length < 256 ∧ (∀ b ∈ bytes, b < 256) :=
  ⟨127, List.replicate 255 255, by decide, by decide +kernel, by decide +kernel⟩

theorem witness_LineMaskCarriesBothDriveBits : ∀ n ∈ [0, 1, 8], ∃ (w : Nat) (p q : Pin) (i : Nat), w = 9 ∧ p = 0#3 ∧
    q = 7#3 ∧ i = n ∧ i < w := fun n hn =>
  ⟨9, 0#3, 7#3, n, rfl, rfl, rfl, rfl, by
    simp only [List.mem_cons, List.not_mem_nil, or_false] at hn; omega⟩

theorem witness_StepRunsTheDecodedCommand : ∃ (s : State) (e : Edge) (es : List Edge) (i : Instr),
    s.cfg.legal = true ∧ s.seq = .ready ∧ s.inputs = e :: es ∧ e.rst = false ∧ e.cmdValid = true ∧
      decode e.cmdData = .ok i :=
  ⟨bench [beat 0x40000002#32], beat 0x40000002#32, [], .write 2#8, by decide, rfl, rfl, rfl, rfl, by decide⟩

theorem no_row_matches : ∀ r ∈ opcodeRows, (0x30000001#32 : Word) &&& r.1 ≠ r.2 := by simp [opcodeRows]

theorem witness_IllegalWordOnlyResponds : ∃ (s : State) (e : Edge) (es : List Edge),
    s.cfg.legal = true ∧ s.seq = .ready ∧ s.inputs = e :: es ∧ e.rst = false ∧ e.cmdValid = true ∧
      ∀ r ∈ opcodeRows, e.cmdData &&& r.1 ≠ r.2 :=
  ⟨bench [beat 0x30000001#32], beat 0x30000001#32, [], by decide, rfl, rfl, rfl, rfl, no_row_matches⟩

theorem witness_ResponseIsHeldUntilTaken : ∃ (s : State) (e : Edge) (es : List Edge),
    s.cfg.legal = true ∧ s.seq = .resp ∧ s.inputs = e :: es ∧ e.rst = false ∧ e.rspReady = true :=
  ⟨{ bench [{ quiet with rspReady := true }] with seq := .resp }, { quiet with rspReady := true }, [], by decide, rfl, rfl,
    rfl, rfl⟩

theorem witness_ReadyWaitsForAWord : ∃ (s : State) (e : Edge) (es : List Edge),
    s.cfg.legal = true ∧ s.seq = .ready ∧ s.inputs = e :: es ∧ e.rst = false ∧ e.cmdValid = false :=
  ⟨bench [quiet], quiet, [], by decide, rfl, rfl, rfl, rfl⟩

theorem witness_ResetInEveryPhase : ∀ q : Seq, ∃ (s : State) (e : Edge) (es : List Edge),
    s.seq = q ∧ s.cfg.legal = true ∧ s.inputs = e :: es ∧ e.rst = true := fun q =>
  ⟨{ bench [{ quiet with rst := true }, quiet] with seq := q }, { quiet with rst := true }, [quiet], rfl, by
    cases q <;> decide, rfl, rfl⟩

/-- Each bound of 00_scope.md R8 is missed by one. -/
theorem witness_ConfigurationOutsideTheRangesIsRefused : ∀ c ∈ [{ Config.reference with rxcap := 0 },
    { Config.reference with rxcap := 256 }, { Config.reference with tStretch := 2 ^ 32 - 1 },
    { Config.reference with tSettle := 2 ^ 32 }, { Config.reference with otherBits := 0x80, portW := 7 }],
    ¬ (1 ≤ c.rxcap ∧ c.rxcap ≤ 255 ∧ c.tStretch < 2 ^ c.timeW - 1 ∧ c.tSettle < 2 ^ c.timeW ∧
      c.otherBits < 2 ^ c.portW) := by decide

theorem witness_PrimitiveHandshake : ∀ (q : Seq) (io : IoPort), ∃ (s : State) (e : Edge),
    s.seq = q ∧ e.rst = false ∧ e.ioRspValid = true ∧ s.io = io := fun q io =>
  ⟨{ bench [] with seq := q, io := io }, { quiet with ioRspValid := true }, rfl, rfl, rfl, rfl⟩

theorem witness_BeatUpperBitsAreIgnored : ∃ (s : State) (e : Edge) (w : Word), s.seq = .beatWait ∧ e.cmdValid = true ∧
    w ≠ e.cmdData ∧ w.extractLsb' 0 8 = e.cmdData.extractLsb' 0 8 :=
  ⟨{ bench [] with seq := .beatWait, todo := [.textBeat] }, beat 0x00000041#32, 0xDEADBE41#32, by decide⟩

theorem witness_BeginBindsTheSession : ∃ (s : State) (sda scl : Pin) (cs rest : List Edge), sda ≠ scl ∧
    serveOk s.cfg.tGap 1 s.inputs = some (cs, rest) :=
  ⟨bench (prims 1 0xFF), 0#3, 1#3, _, _, by decide, rfl⟩

theorem witness_BeginKeepsItsBindingOnError : ∃ (s : State) (sda scl : Pin) (e : Edge) (rest : List Edge), sda ≠ scl ∧
    serve s.cfg.tGap s.inputs = some (e, rest) ∧ e.ioRspErr = true :=
  ⟨bench primErr, 0#3, 1#3, _, _, by decide, rfl, rfl⟩

theorem witness_UnboundCommandsOnlyRespond : ∀ i ∈ [Instr.beginTx 0#7 true, .endTx, .write 0#8, .requestFrom 0#7 255#8],
    ∃ s : State, s.bound = false ∧
      ((∃ a d, i = .beginTx a d) ∨ i = .endTx ∨ (∃ v, i = .write v) ∨ (∃ a q, i = .requestFrom a q)) := by
  intro i hi
  refine ⟨State.reset, rfl, ?_⟩
  simp only [List.mem_cons, List.not_mem_nil, or_false] at hi
  rcases hi with rfl | rfl | rfl | rfl <;> simp

/-- No beat before the end, and some. -/
theorem witness_UnboundBurstsConsumeTheirBeats :
    (∀ n ∈ [0#8, 2#8], ∃ (s : State) (ds : List Byte) (rest : List Edge), s.bound = false ∧
      awaitBeats (BitVec.toNat n) s.inputs = some (ds, rest)) ∧
    (∀ n ∈ [0, 1], ∃ (s : State) (ds : List Byte) (es1 rest : List Edge), s.bound = false ∧
      awaitBeats n s.inputs = some (ds, es1) ∧ (∀ d ∈ ds, d ≠ 0x00#8) ∧ awaitBeat es1 = some (0x00#8, rest)) := by
  refine ⟨fun n hn => ?_, fun n hn => ?_⟩ <;> simp only [List.mem_cons, List.not_mem_nil, or_false] at hn <;>
    rcases hn with rfl | rfl
  · exact ⟨{ State.reset with inputs := [quiet] }, _, _, rfl, rfl⟩
  · exact ⟨{ State.reset with inputs := [beat 0xAA#32, quiet, beat 0xBB#32] }, _, _, rfl, rfl⟩
  · exact ⟨{ State.reset with inputs := [beat 0x00#32] }, _, _, _, rfl, rfl, by simp, rfl⟩
  · exact ⟨{ State.reset with inputs := [beat 0x41#32, beat 0x00#32] }, _, _, _, rfl, rfl, by decide, rfl⟩

theorem witness_BeginTxSendsStartAndAddress : ∃ (s : State) (c1 cs mid rest : List Edge), s.bound = true ∧
    serveOk s.cfg.tGap 4 s.inputs = some (c1, mid) ∧ serveOk s.cfg.tGap 29 mid = some (cs, rest) := by
  have h : sat (serveOk 0 4 (prims 33 0xFF)) (fun p => sat (serveOk 0 29 p.2) (fun _ => true)) = true := by
    decide +kernel
  obtain ⟨c1, mid, h1, h⟩ := pair_of_sat h
  obtain ⟨cs, rest, h2, -⟩ := pair_of_sat h
  exact ⟨bench (prims 33 0xFF), c1, cs, mid, rest, rfl, h1, h2⟩

theorem witness_EndTxSendsStop : ∃ (s : State) (cs rest : List Edge), s.bound = true ∧
    serveOk s.cfg.tGap 3 s.inputs = some (cs, rest) :=
  ⟨bench (prims 3 0xFF), _, _, rfl, rfl⟩

theorem byte_served : ∃ cs rest, serveOk 0 29 (byteEdges 0x02) = some (cs, rest) :=
  let ⟨cs, rest, h, _⟩ := pair_of_sat (o := serveOk 0 29 (byteEdges 0x02)) (p := fun _ => true) (by decide +kernel)
  ⟨cs, rest, h⟩

theorem witness_WriteSendsTheByte : ∃ (s : State) (cs rest : List Edge), s.bound = true ∧
    serveOk s.cfg.tGap 29 s.inputs = some (cs, rest) :=
  let ⟨cs, rest, h⟩ := byte_served
  ⟨bench (byteEdges 0x02), cs, rest, rfl, h⟩

theorem witness_WriteBytesCountsTheAcks : ∀ n ∈ [0#8, 2#8], ∃ (s : State) (ds : List (Byte × Bool)) (rest : List Edge),
    s.bound = true ∧ serveBurst s.cfg.tGap s.sdaPin n.toNat s.inputs = some (ds, rest) := by
  have h : ∀ n ∈ [0#8, 2#8], sat (serveBurst 0 0#3 n.toNat
      (beat 0x02#32 :: byteEdges 0x02 ++ beat 0x00#32 :: byteEdges 0x03)) (fun _ => true) = true := by decide +kernel
  intro n hn
  obtain ⟨ds, rest, h1, -⟩ := pair_of_sat (h n hn)
  exact ⟨bench _, ds, rest, rfl, h1⟩

theorem witness_WriteStrSendsUpToTheTerminator : ∃ (s : State) (n : Nat) (ds : List (Byte × Bool)) (es1 rest : List Edge),
    s.bound = true ∧ n = 1 ∧ serveBurst s.cfg.tGap s.sdaPin n s.inputs = some (ds, es1) ∧ (∀ d ∈ ds, d.1 ≠ 0x00#8) ∧
      awaitBeat es1 = some (0x00#8, rest) := by
  have h : sat (serveBurst 0 0#3 1 (beat 0x41#32 :: byteEdges 0x02 ++ [beat 0x00#32])) (fun p =>
      p.1.all (fun d => d.1 != 0x00#8) && sat (awaitBeat p.2) (fun q => q.1 == 0x00#8)) = true := by decide +kernel
  obtain ⟨ds, es1, h1, h⟩ := pair_of_sat h
  obtain ⟨h2, h3⟩ := Bool.and_eq_true_iff.mp h
  obtain ⟨b, rest, h4, h5⟩ := pair_of_sat h3
  obtain rfl : b = 0x00#8 := by simpa using h5
  exact ⟨bench _, 1, ds, es1, rest, rfl, rfl, h1, by simpa using h2, h4⟩

theorem witness_RequestFromOverflowOnlyResponds : ∃ (s : State) (qty : Byte), s.bound = true ∧
    s.cfg.rxcap - s.rxbuf.length < qty.toNat :=
  ⟨{ bench [] with rxbuf := List.replicate 30 0x00#8 }, 3#8, by decide⟩

theorem witness_RequestFromReadsEveryByte : ∀ q ∈ [(0#8, []), (1#8, [List.replicate 8 0])],
    ∃ (s : State) (qty : Byte) (c1 cs m1 m2 rest : List Edge) (nss : List (List Nat)) (bss : List (List Bool)),
      s.bound = true ∧ qty = q.1 ∧ nss = q.2 ∧ qty.toNat ≤ s.cfg.rxcap - s.rxbuf.length ∧ nss.length = qty.toNat ∧
      serveOk s.cfg.tGap 4 s.inputs = some (c1, m1) ∧ serveOk s.cfg.tGap 29 m1 = some (cs, m2) ∧
      serveBytes s.cfg s.sdaPin s.sclPin nss m2 = some (bss, rest) := by
  have h : ∀ q ∈ [((0#8 : Byte), ([] : List (List Nat))), (1#8, [List.replicate 8 0])],
      (decide (q.1.toNat ≤ 32) && decide (q.2.length = q.1.toNat) && sat (serveOk 0 4
      (prims 33 0xFF ++ (List.replicate 8 (bitEdges 0xFF)).flatten ++ prims 3 0xFF)) (fun p =>
        sat (serveOk 0 29 p.2) (fun p2 => sat (serveBytes Config.reference 0#3 1#3 q.2 p2.2) (fun _ => true)))) = true := by
    decide +kernel
  intro q hq
  have h := h q hq
  simp only [Bool.and_eq_true, decide_eq_true_eq] at h
  obtain ⟨⟨hle, hlen⟩, h⟩ := h
  obtain ⟨c1, m1, h1, h⟩ := pair_of_sat h
  obtain ⟨cs, m2, h2, h⟩ := pair_of_sat h
  obtain ⟨bss, rest, h3, -⟩ := pair_of_sat h
  exact ⟨bench _, q.1, c1, cs, m1, m2, rest, q.2, bss, rfl, rfl, rfl, hle, hlen, h1, h2, h3⟩

theorem witness_RequestFromTimesOut : ∃ (s : State) (qty : Byte) (c1 cs ws m1 m2 m3 m4 m5 m6 rest : List Edge)
    (nss : List (List Nat)) (bss : List (List Bool)) (ns : List Nat) (bs : List Bool) (n : Nat) (w e : Edge),
    s.bound = true ∧ qty.toNat ≤ s.cfg.rxcap - s.rxbuf.length ∧ nss.length < qty.toNat ∧ ns.length < 8 ∧
    serveOk s.cfg.tGap 4 s.inputs = some (c1, m1) ∧ serveOk s.cfg.tGap 29 m1 = some (cs, m2) ∧
    serveBytes s.cfg s.sdaPin s.sclPin nss m2 = some (bss, m3) ∧
    serveBits s.cfg s.sdaPin s.sclPin ns m3 = some (bs, m4) ∧
    serveOk s.cfg.tGap 2 m4 = some (ws, m5) ∧ ws[1]? = some w ∧
    serveLowPolls s.cfg s.sclPin (nowOf s.cfg w.nowMs) n m5 = some m6 ∧
    serve s.cfg.tGap m6 = some (e, rest) ∧ e.ioRspErr = false ∧ e.ioRspRaw.testBit s.sclPin.toNat = false ∧
    s.cfg.tStretch < elapsed s.cfg (nowOf s.cfg e.nowMs) (nowOf s.cfg w.nowMs) := by
  have h : sat (serveOk 0 4 (prims 33 0xFF ++ bitEdges 0xFF ++ prims 2 0xFF ++ prim 0x01 1000 ++ prim 0x01 1001))
      (fun p1 => sat (serveOk 0 29 p1.2) (fun p2 => sat (serveBytes Config.reference 0#3 1#3 [] p2.2) (fun p3 =>
        sat (serveBits Config.reference 0#3 1#3 [0] p3.2) (fun p4 => sat (serveOk 0 2 p4.2) (fun p5 =>
          sat p5.1[1]? (fun w => sat (serveLowPolls Config.reference 1#3 (nowOf Config.reference w.nowMs) 1 p5.2) (fun m6 =>
            sat (serve 0 m6) (fun p7 => !p7.1.ioRspErr && !p7.1.ioRspRaw.testBit 1 &&
              decide (1000 < elapsed Config.reference (nowOf Config.reference p7.1.nowMs)
                (nowOf Config.reference w.nowMs)))))))))) = true := by decide +kernel
  obtain ⟨c1, m1, h1, h⟩ := pair_of_sat h
  obtain ⟨cs, m2, h2, h⟩ := pair_of_sat h
  obtain ⟨bss, m3, h3, h⟩ := pair_of_sat h
  obtain ⟨bs, m4, h4, h⟩ := pair_of_sat h
  obtain ⟨ws, m5, h5, h⟩ := pair_of_sat h
  obtain ⟨w, h6, h⟩ := exists_of_sat h
  obtain ⟨m6, h7, h⟩ := exists_of_sat h
  obtain ⟨e, rest, h8, h⟩ := pair_of_sat h
  simp only [Bool.and_eq_true, Bool.not_eq_true', decide_eq_true_eq] at h
  exact ⟨bench _, 32#8, c1, cs, ws, m1, m2, m3, m4, m5, m6, rest, [], bss, [0], bs, 1, w, e, rfl, by decide, by decide,
    by decide, h1, h2, h3, h4, h5, h6, h7, h8, h.1.1, h.1.2, h.2⟩

theorem witness_RequestFromCountsWhatItPushes : ∃ (s t : State) (qty : Byte), s.cfg.rxcap ≤ 255 ∧
    s.rxbuf.length ≤ s.cfg.rxcap ∧ noReset s.inputs ∧ qty = 1#8 ∧ exec (.requestFrom 0x1E#7 qty) s = .next t := by
  obtain ⟨t, ht⟩ := next_of_holds (r := exec (.requestFrom 0x1E#7 1#8) (bench (prims 33 0xFF ++
    (List.replicate 8 (bitEdges 0xFF)).flatten ++ prims 3 0xFF))) (by decide +kernel)
  exact ⟨_, t, 1#8, by decide, by decide, noReset_of (by decide +kernel), rfl, ht⟩

theorem witness_ReadRemovesTheOldestByte : ∃ (s : State) (b : Byte) (bs : List Byte), s.rxbuf = b :: bs :=
  ⟨{ bench [] with rxbuf := [0x01#8, 0x02#8] }, _, _, rfl⟩

theorem witness_ReadOfAnEmptyBufferOnlyResponds : ∃ s : State, s.rxbuf = [] := ⟨State.reset, rfl⟩

theorem witness_ReadsReturnTheBytesInOrder : ∃ (s : State) (bs rest : List Byte) (e1 e2 : Edge), s.cfg.legal = true ∧
    s.seq = .ready ∧ s.rxbuf = bs ++ rest ∧ bs.length = 2 ∧ e1.rst = false ∧ e1.cmdValid = true ∧
    e1.cmdData = encode .read ∧ e2.rst = false ∧ e2.rspReady = true ∧
    s.inputs = (List.replicate bs.length [e1, e2]).flatten :=
  ⟨{ bench [beat (encode .read), { quiet with rspReady := true }, beat (encode .read), { quiet with rspReady := true }]
      with rxbuf := [0x01#8, 0x02#8, 0x03#8] }, [0x01#8, 0x02#8], [0x03#8], beat (encode .read),
    { quiet with rspReady := true }, by decide, rfl, rfl, rfl, rfl, rfl, rfl, rfl, rfl, rfl⟩

/-- A block in `BUSY` that waits for the completion of a primitive of `i`. -/
def waiting (i : Instr) (op : Micro) (req : IoReq) (k : List Micro) : State :=
  { bench [] with seq := .busy, io := .outstanding req, todo := op :: k, cmd := some i }

theorem witness_PrimitiveErrorEndsTheCommand : ∃ (s : State) (e : Edge) (req : IoReq) (op : Micro) (k : List Micro)
    (i : Instr), s.seq = .busy ∧ s.io = .outstanding req ∧ s.todo = op :: k ∧ s.cmd = some i ∧ i ≠ .writeStr ∧
    (∀ n, i ≠ .writeBytes n) ∧ e.rst = false ∧ e.ioRspValid = true ∧ e.ioRspErr = true :=
  ⟨waiting (.requestFrom 0#7 1#8) .sampleBit ⟨false, 0#8, 1⟩ [], { quiet with ioRspValid := true, ioRspErr := true },
    _, _, _, _, rfl, rfl, rfl, rfl, by decide, (fun _ h => by cases h), rfl, rfl, rfl⟩

theorem witness_FailedBurstDrainsItsBeats : ∃ (s : State) (e : Edge) (es rest : List Edge) (req : IoReq) (op : Micro)
    (k : List Micro) (n : Byte) (ds : List Byte), s.seq = .busy ∧ s.io = .outstanding req ∧ s.todo = op :: k ∧
    s.cmd = some (.writeBytes n) ∧ e.rst = false ∧ e.ioRspValid = true ∧ e.ioRspErr = true ∧ s.remaining = 1#8 ∧
    awaitBeats s.remaining.toNat es = some (ds, rest) :=
  ⟨{ waiting (.writeBytes 3#8) .driveBit ⟨true, 0#8, 0⟩ [.countedBeat] with remaining := 1#8 },
    { quiet with ioRspValid := true, ioRspErr := true }, [beat 0x03#32], _, _, _, _, _, _, rfl, rfl, rfl, rfl, rfl, rfl,
    rfl, rfl, rfl⟩

theorem witness_FailedTextDrainsToTheTerminator : ∃ (s : State) (e : Edge) (es es1 rest : List Edge) (req : IoReq)
    (op : Micro) (k : List Micro) (n : Nat) (ds : List Byte), s.seq = .busy ∧ s.io = .outstanding req ∧
    s.todo = op :: k ∧ s.cmd = some .writeStr ∧ e.rst = false ∧ e.ioRspValid = true ∧ e.ioRspErr = true ∧ n = 1 ∧
    awaitBeats n es = some (ds, es1) ∧ (∀ d ∈ ds, d ≠ 0x00#8) ∧ awaitBeat es1 = some (0x00#8, rest) :=
  ⟨waiting .writeStr .driveBit ⟨true, 0#8, 0⟩ [.textBeat], { quiet with ioRspValid := true, ioRspErr := true },
    [beat 0x43#32, beat 0x00#32], _, _, _, _, _, 1, _, rfl, rfl, rfl, rfl, rfl, rfl, rfl, rfl, rfl, by decide, rfl⟩

theorem witness_EachCommandRaisesOnlyItsErrors : ∃ (i : Instr) (s t : State), noReset s.inputs ∧ exec i s = .next t ∧
    t.seq = .resp := by
  have h : holds (exec .endTx (bench (prims 3 0xFF))) (fun t => decide (t.seq = .resp)) = true := by decide +kernel
  cases hr : exec .endTx (bench (prims 3 0xFF)) with
  | next t =>
    rw [hr] at h
    exact ⟨_, _, t, noReset_of (by decide), hr, by simpa [holds] using h⟩
  | fault f => rw [hr] at h; cases h
  | refused f => rw [hr] at h; cases h

/-- High past the deadline, low one past it, low at exactly it. -/
theorem witness_StretchDeadline : ∀ p ∈ [(0x02, 9000), (0x00, 1001), (0x00, 1000)],
    ∃ (s : State) (e : Edge) (req : IoReq) (k : List Micro) (i : Instr), s.seq = .busy ∧ s.io = .outstanding req ∧
    s.todo = .pollScl :: k ∧ req.write = false ∧ s.cmd = some i ∧ e.rst = false ∧ e.ioRspValid = true ∧
    e.ioRspErr = false ∧ e.ioRspRaw = p.1 ∧ elapsed s.cfg e.nowMs s.t0 = p.2 := by
  intro p hp
  refine ⟨waiting (.requestFrom 0#7 1#8) .pollScl ⟨false, 0#8, 2⟩ [], { quiet with
    ioRspValid := true, ioRspRaw := p.1, nowMs := p.2 }, _, _, _, rfl, rfl, rfl, rfl, rfl, rfl, rfl, rfl, rfl, ?_⟩
  simp only [List.mem_cons, List.not_mem_nil, or_false] at hp
  rcases hp with rfl | rfl | rfl <;> decide

/-- One millisecond before the end of the settle time, and at it. -/
theorem witness_SettleWait : ∀ now ∈ [1, 2], ∃ (s : State) (e : Edge) (k : List Micro), s.seq = .busy ∧ s.io = .idle ∧
    s.todo = .settle :: k ∧ e.rst = false ∧ elapsed s.cfg e.nowMs s.t1 = now := by
  intro now hn
  refine ⟨{ bench [] with seq := .busy, todo := [.settle] }, { quiet with nowMs := now }, [], rfl, rfl, rfl, rfl, ?_⟩
  simp only [List.mem_cons, List.not_mem_nil, or_false] at hn
  rcases hn with rfl | rfl <;> decide

theorem witness_TheBlockWaitsOnlyAsListed : ∃ s t : State, s.Inv ∧ step s = .next t ∧ t.inputs = [] :=
  ⟨State.reset, State.reset, inv_iff.mpr ⟨flow_reset State.reset, Nat.zero_le _, by decide, fun h => by cases h⟩, rfl, rfl⟩

theorem witness_OnlyBeginWritesTheSession : ∃ (i : Instr) (s t : State), (∀ d p q, i ≠ .beginSession d p q) ∧
    noReset s.inputs ∧ exec i s = .next t := by
  obtain ⟨t, ht⟩ := next_of_holds (r := exec .endTx (bench (prims 3 0xFF))) (by decide +kernel)
  exact ⟨.endTx, _, t, (fun _ _ _ h => by cases h), noReset_of (by decide), ht⟩

theorem witness_OnlyReadsWriteTheBuffer : ∃ (i : Instr) (s t : State), i ≠ .read ∧ (∀ a q, i ≠ .requestFrom a q) ∧
    noReset s.inputs ∧ exec i s = .next t := by
  obtain ⟨t, ht⟩ := next_of_holds (r := exec .endTx (bench (prims 3 0xFF))) (by decide +kernel)
  exact ⟨.endTx, _, t, by decide, (fun _ _ h => by cases h), noReset_of (by decide), ht⟩

theorem witness_BusPhaseIsWrittenByFourCommands : ∃ (i : Instr) (s t : State), noReset s.inputs ∧ exec i s = .next t ∧
    (∀ d p q, i ≠ .beginSession d p q) ∧ (∀ a d, i ≠ .beginTx a d) ∧ i ≠ .endTx ∧ (∀ a q, i ≠ .requestFrom a q) := by
  obtain ⟨t, ht⟩ := next_of_holds (r := exec (.write 2#8) (bench (byteEdges 0x02))) (by decide +kernel)
  exact ⟨.write 2#8, _, t, noReset_of (by decide +kernel), ht, (fun _ _ _ h => by cases h), (fun _ _ h => by cases h),
    by decide, (fun _ _ h => by cases h)⟩

theorem witness_LinesDoNotDependOnTheBusPhase : ∃ (i : Instr) (s t : State), exec i s = .next t := by
  obtain ⟨t, ht⟩ := next_of_holds (r := exec .endTx (bench (prims 3 0xFF))) (by decide +kernel)
  exact ⟨_, _, t, ht⟩

theorem witness_EveryPrimitiveIsOfTheSession : ∃ (i : Instr) (s t : State), noReset s.inputs ∧ exec i s = .next t ∧
    newEvents s t ≠ [] := by
  have h : holds (exec .endTx (bench (prims 3 0xFF))) (fun t => !(newEvents (bench (prims 3 0xFF)) t).isEmpty) = true := by
    decide +kernel
  cases hr : exec .endTx (bench (prims 3 0xFF)) with
  | next t =>
    rw [hr] at h
    exact ⟨_, _, t, noReset_of (by decide), hr, by simpa [holds] using h⟩
  | fault f => rw [hr] at h; cases h
  | refused f => rw [hr] at h; cases h

/-- A write just asked for completes. -/
theorem witness_EveryWriteCarriesTheCurrentDriveBits : ∃ (s t : State) (e : Edge), s.Inv ∧ s.seq = .busy ∧ e.rst = false ∧
    commandEdge e s = .next t ∧ newEvents s t ≠ [] := by
  have hr : Room (waiting .endTx .writeLines ⟨true, 0x00#8, 0x03⟩ [.respond .zero]) := Nat.zero_le _
  have hf : Flow (waiting .endTx .writeLines ⟨true, 0x00#8, 0x03⟩ [.respond .zero]) :=
    { atRest := by rintro (h | h) <;> cases h
      inProgress := fun _ => ⟨.endTx, rfl, [.writeLines], .respond .zero, rfl, by decide, rfl⟩
      beat := fun h => by cases h
      unsampled := fun _ => rfl
      busy := fun _ => show _ = _ by decide
      status := fun h => by cases h }
  refine ⟨_, _, { quiet with ioRspValid := true }, inv_iff.mpr ⟨hf, hr, by decide, fun _ => ?_⟩, rfl, rfl, rfl, by decide⟩
  exact show (0#3 : Pin) ≠ 1#3 by decide

theorem witness_StepsFixTheParametersAndExtendTheTrace : ∃ s t : State, s.inputs ≠ [] ∧ step s = .next t :=
  ⟨bench [quiet], bench [], by decide, rfl⟩

theorem witness_WrittenByteIsFramed : ∃ (s : State) (cs rest : List Edge), s.bound = true ∧ s.sdaPin ≠ s.sclPin ∧
    s.sdaPin.toNat < s.cfg.portW ∧ s.sclPin.toNat < s.cfg.portW ∧ s.sclDrv = false ∧ serveOk s.cfg.tGap 29 s.inputs = some (cs, rest) :=
  let ⟨cs, rest, h⟩ := byte_served
  ⟨{ bench (byteEdges 0x02) with sclDrv := false }, cs, rest, rfl, show (0#3 : Pin) ≠ 1#3 by decide,
    show 0 < 8 by decide, show 1 < 8 by decide, rfl, h⟩

/-- The four pairs of drive bits on entry. -/
theorem witness_StartAndStopConditions : ∀ a b : Bool, ∃ (s : State) (cs rest : List Edge), s.bound = true ∧
    s.sdaPin ≠ s.sclPin ∧ s.sdaPin.toNat < s.cfg.portW ∧ s.sclPin.toNat < s.cfg.portW ∧ s.sdaDrv = a ∧ s.sclDrv = b ∧ serveOk s.cfg.tGap 33 s.inputs = some (cs, rest) ∧
    ∃ cs3 rest3, serveOk s.cfg.tGap 3 s.inputs = some (cs3, rest3) := by
  have h : sat (serveOk 0 33 (prims 33 0xFF)) (fun _ => true) = true := by decide +kernel
  have h3 : sat (serveOk 0 3 (prims 33 0xFF)) (fun _ => true) = true := by decide +kernel
  obtain ⟨cs, rest, h, -⟩ := pair_of_sat h
  obtain ⟨cs3, rest3, h3, -⟩ := pair_of_sat h3
  exact fun a b => ⟨{ bench (prims 33 0xFF) with sdaDrv := a, sclDrv := b }, cs, rest, rfl,
    show (0#3 : Pin) ≠ 1#3 by decide, show 0 < 8 by decide, show 1 < 8 by decide, rfl, rfl, h, cs3, rest3, h3⟩

theorem witness_EveryStepKeepsTheInvariant : ∃ s t : State, s.Inv ∧ step s = .next t ∧ s.inputs ≠ [] := by
  have h0 : State.reset.Inv :=
    inv_iff.mpr ⟨flow_reset State.reset, Nat.zero_le _, by decide, fun h => by cases h⟩
  obtain ⟨t, ht⟩ := next_of_holds (r := step (setInputs [beat 0xA0000000#32] State.reset)) (by decide)
  exact ⟨_, t, inv_setInputs h0 _, ht, by decide⟩

theorem witness_TheBlockNeverStops : ∃ s : State, s.Inv :=
  ⟨State.reset, inv_iff.mpr ⟨flow_reset State.reset, Nat.zero_le _, by decide, fun h => by cases h⟩⟩

end Sys2Proof.Tests
end

section
/-!
PROOFS. The scope (00_scope.md): which configurations the block serves, the state after reset, and what no step changes.
-/

namespace Sys2Proof.Machine

variable {ops : List Micro} {es : List Edge} {e : Edge} {s t u : State} {i : Instr}

/-! ### The configurations -/

/-- 00_scope.md R8, as the proposition the test decides. -/
theorem inRange_iff (c : Config) : c.inRange = true ↔
    1 ≤ c.rxcap ∧ c.rxcap ≤ 255 ∧ c.tStretch < 2 ^ c.timeW - 1 ∧ c.tSettle < 2 ^ c.timeW ∧ c.otherBits < 2 ^ c.portW := by
  simp only [Config.inRange, Bool.and_eq_true, decide_eq_true_eq, and_assoc]

/-- The widths of log entry 3, as the proposition the test decides. -/
theorem encodable_iff (c : Config) : c.encodable = true ↔
    3 ≤ c.pinW ∧ 8 ≤ c.devW ∧ c.addrW = 7 ∧ c.byteW = 8 ∧ c.cmdW = 32 ∧ c.rspW = 32 :=
  decide_eq_true_iff

theorem legal_iff (c : Config) : c.legal = true ↔ c.inRange = true ∧ c.encodable = true :=
  Bool.and_eq_true_iff

/-- Settles O57: legality is the range test of R8 and the width test of log entry 3, each read as a proposition. -/
theorem everyPortWidthIsServed : Obligations.EveryPortWidthIsServed := by
  intro c
  rw [legal_iff, inRange_iff, encodable_iff]

theorem step_of_not_legal (h : ¬ s.cfg.legal = true) : step s = .refused .illegalConfig :=
  if_neg h

theorem step_of_no_edge (h : s.cfg.legal = true) (hin : s.inputs = []) : step s = .next s := by
  simp only [step, stepBlock, h, if_true, hin]

theorem step_of_edge (h : s.cfg.legal = true) (hin : s.inputs = e :: es) : step s = takeEdge e es s := by
  simp only [step, stepBlock, h, if_true, hin]

/-- Settles O15: outside R8 the range test fails, so the configuration is not legal. -/
theorem configurationOutsideTheRangesIsRefused : Obligations.ConfigurationOutsideTheRangesIsRefused := by
  intro s hout
  refine step_of_not_legal fun hlegal => hout ?_
  exact (inRange_iff s.cfg).mp ((legal_iff s.cfg).mp hlegal).1

/-! ### Reset -/

/-- Settles O14: every clause compares two closed values, one of them a field of the fixed state `State.reset`. -/
theorem resetState : Obligations.ResetState := by
  unfold Obligations.ResetState
  decide

/-! ### What no step changes -/

/-- `t` may come after `s`: the parameters are those of `s`, the observations of log entry 6 have only grown, and the edges
of log entry 5 have only been consumed. -/
structure Extends (s t : State) : Prop where
  cfg : t.cfg = s.cfg
  trace : s.trace <+: t.trace
  responses : s.responses <+: t.responses
  inputs : t.inputs <:+ s.inputs

theorem Extends.refl (s : State) : Extends s s :=
  ⟨rfl, List.prefix_refl _, List.prefix_refl _, List.suffix_refl _⟩

theorem Extends.trans (h : Extends s u) (h' : Extends u t) : Extends s t where
  cfg := h'.cfg.trans h.cfg
  trace := h.trace.trans h'.trace
  responses := h.responses.trans h'.responses
  inputs := h'.inputs.trans h.inputs

/-- First an operation on other fields, which leads from `s` to `u`, then on to `t`. -/
theorem Extends.after (h : Extends u t) (hcfg : u.cfg = s.cfg) (htrace : u.trace = s.trace)
    (hresponses : u.responses = s.responses) (hinputs : u.inputs = s.inputs) : Extends s t where
  cfg := h.cfg.trans hcfg
  trace := htrace ▸ h.trace
  responses := hresponses ▸ h.responses
  inputs := hinputs ▸ h.inputs

/-! #### The operations -/

theorem respondAs_extends (op : BitVec 4) (st : Status) (p : Payload) (s : State) : Extends s (respondAs op st p s) :=
  (Extends.refl _).after rfl rfl rfl rfl

theorem applyReset_extends (s : State) : Extends s (applyReset s) := (Extends.refl _).after rfl rfl rfl rfl

theorem takeResponse_extends (s : State) : Extends s (takeResponse s) :=
  ⟨rfl, List.prefix_refl _, List.prefix_append _ _, List.suffix_refl _⟩

theorem setInputs_extends (h : es <:+ s.inputs) : Extends s (setInputs es s) :=
  ⟨rfl, List.prefix_refl _, List.prefix_refl _, h⟩

/-! #### A program -/

theorem andThen_eq_next {r : Result} {k : State → Result} :
    r.andThen k = .next t ↔ ∃ u, r = .next u ∧ k u = .next t := by
  cases r <;> simp

theorem run_extends (hes : es <:+ s.inputs) (h : run es s = .next t) : Extends s t := by
  obtain ⟨hcfg, htrace, hresponses, hinputs⟩ := run_grows h
  exact ⟨hcfg, htrace, by rw [hresponses], hinputs.trans hes⟩

theorem runProgram_extends (h : runProgram ops s = .next t) : Extends s t := by
  obtain ⟨u, hadv, hrun⟩ := andThen_eq_next.mp h
  have hframe := advance_frame hadv
  have hanchor := hframe.anchor
  simp only [anchor, setSeq_cfg, setSeq_inputs, setSeq_responses, Prod.mk.injEq] at hanchor
  obtain ⟨hcfg, -, -, -, -, hinputs, hresponses⟩ := hanchor
  exact (run_extends (by rw [hinputs]) hrun).after hcfg hframe.trace hresponses hinputs

/-! #### A command -/

theorem requireBound_extends {k : State → Result} (hk : k s = .next t → Extends s t)
    (h : requireBound s k = .next t) : Extends s t := by
  unfold requireBound at h
  split at h
  · exact hk h
  · cases h; exact respondAs_extends ..

theorem execBegin_extends {dev : Byte} {sda scl : Pin} (h : execBegin dev sda scl s = .next t) : Extends s t := by
  simp only [execBegin] at h
  split at h
  · cases h; exact (respondAs_extends ..).after rfl rfl rfl rfl
  · exact (runProgram_extends h).after rfl rfl rfl rfl

theorem execRequestFrom_extends {addr : SlaveAddr} {qty : Byte} (h : execRequestFrom addr qty s = .next t) :
    Extends s t := by
  refine (requireBound_extends (fun hk => ?_) h).after rfl rfl rfl rfl
  split at hk
  · cases hk; exact respondAs_extends ..
  · exact (runProgram_extends hk).after rfl rfl rfl rfl

theorem execRead_extends (h : execRead s = .next t) : Extends s t := by
  simp only [execRead, fifoPop] at h
  cases hbuf : (accept .read s).rxbuf with
  | nil =>
    simp only [hbuf] at h
    cases h; exact (respondAs_extends ..).after rfl rfl rfl rfl
  | cons b rest =>
    simp only [hbuf] at h
    cases h; exact (respondAs_extends ..).after rfl rfl rfl rfl

theorem exec_extends (h : exec i s = .next t) : Extends s t := by
  cases i with
  | beginSession dev sda scl => exact execBegin_extends h
  | beginTx addr dir => exact (requireBound_extends runProgram_extends h).after rfl rfl rfl rfl
  | endTx => exact (requireBound_extends runProgram_extends h).after rfl rfl rfl rfl
  | write v => exact (requireBound_extends runProgram_extends h).after rfl rfl rfl rfl
  | writeBytes n => exact (runProgram_extends h).after rfl rfl rfl rfl
  | writeStr => exact (runProgram_extends (s := openBurst (accept .writeStr s)) (ops := [.textBeat]) h).after rfl rfl rfl rfl
  | requestFrom addr qty => exact execRequestFrom_extends h
  | available => cases h; exact (respondAs_extends ..).after rfl rfl rfl rfl
  | read => exact execRead_extends h
  | status => cases h; exact (respondAs_extends ..).after rfl rfl rfl rfl

/-! #### An edge -/

theorem acceptWord_extends {w : Word} (h : acceptWord w s = .next t) : Extends s t := by
  unfold acceptWord at h
  split at h
  · exact exec_extends h
  · cases h; exact respondAs_extends ..

theorem readyEdge_extends (h : readyEdge e s = .next t) : Extends s t := by
  unfold readyEdge at h
  split at h
  · exact acceptWord_extends h
  · cases h; exact .refl s

theorem respEdge_extends (h : respEdge e s = .next t) : Extends s t := by
  unfold respEdge at h
  split at h <;> cases h
  · exact takeResponse_extends s
  · exact .refl s

theorem takeEdge_extends (hin : s.inputs = e :: es) (h : takeEdge e es s = .next t) : Extends s t := by
  have hrest : Extends s (setInputs es s) := setInputs_extends (hin ▸ List.suffix_cons e es)
  unfold takeEdge at h
  split at h
  · exact run_extends (by rw [hin]) h
  · exact run_extends (by rw [hin]) h
  · split at h
    · cases h; exact hrest.trans (applyReset_extends _)
    · exact hrest.trans (readyEdge_extends h)
  · split at h
    · cases h; exact hrest.trans (applyReset_extends _)
    · exact hrest.trans (respEdge_extends h)

theorem step_extends (h : step s = .next t) : Extends s t := by
  by_cases hlegal : s.cfg.legal = true
  · cases hin : s.inputs with
    | nil =>
      rw [step_of_no_edge hlegal hin] at h
      cases h; exact .refl s
    | cons e es =>
      rw [step_of_edge hlegal hin] at h
      exact takeEdge_extends hin h
  · rw [step_of_not_legal hlegal] at h
    cases h

/-- Settles O51: a step is one edge or a command's run, and each part of either extends the state before it. -/
theorem stepsFixTheParametersAndExtendTheTrace : Obligations.StepsFixTheParametersAndExtendTheTrace := by
  intro s t h
  obtain ⟨hcfg, htrace, hresponses, hinputs⟩ := step_extends h
  exact ⟨hcfg, htrace, hresponses, hinputs⟩

end Sys2Proof.Machine
end

section
/-!
PROOFS. The state (10_state.md): reset in every phase, the invariant every step keeps, and which commands write the session,
the receive buffer and the bus phase.
-/

namespace Sys2Proof.Machine

variable {ops : List Micro} {es : List Edge} {e : Edge} {s t u : State} {i : Instr}

/-! ### Reset in every phase -/

theorem commandEdge_of_rst (hr : e.rst = true) : commandEdge e s = .next (applyReset s) :=
  if_pos hr

/-- In phase `BUSY` or `BEAT_WAIT` the reset ends the command's run, since the block is then `READY`. -/
theorem run_of_rst (hq : s.seq = .busy ∨ s.seq = .beatWait) (hr : e.rst = true) :
    run (e :: es) s = .next (applyReset (setInputs es s)) := by
  have hready : run es (applyReset s) = .next (setInputs es (applyReset s)) := run_rest (Or.inl rfl) es
  rcases hq with hq | hq
  · rw [run_busy hq, commandEdge_of_rst hr, andThen_next, hready]; rfl
  · rw [run_beatWait hq, commandEdge_of_rst hr, andThen_next, hready]; rfl

theorem takeEdge_of_rst (hr : e.rst = true) : takeEdge e es s = .next (applyReset (setInputs es s)) := by
  unfold takeEdge
  split
  next hq => exact run_of_rst (Or.inl hq) hr
  next hq => exact run_of_rst (Or.inr hq) hr
  · exact if_pos hr
  · exact if_pos hr

/-- Settles O13: in every phase the step is `applyReset`, whose fields are those of `State.reset`. -/
theorem resetInEveryPhase : Obligations.ResetInEveryPhase := by
  intro s e es hlegal hin hr
  refine ⟨applyReset (setInputs es s), by rw [step_of_edge hlegal hin, takeEdge_of_rst hr], ?_⟩
  exact ⟨rfl, rfl, rfl, rfl, rfl, rfl, rfl, rfl, rfl, rfl, rfl, rfl, rfl, rfl, rfl, rfl, rfl, rfl, rfl⟩

theorem applyReset_inv (hlegal : s.cfg.legal = true) : (applyReset s).Inv :=
  inv_iff.mpr ⟨flow_reset s, Nat.zero_le _, hlegal, fun hb => by cases hb⟩

/-- Settles O54: the reset state is a reset of itself, and the reference configuration is legal. -/
theorem resetMeetsTheInvariant : Obligations.ResetMeetsTheInvariant :=
  applyReset_inv (s := State.reset) (by decide)

/-! ### How a command starts -/

/-- The program of a command: the lines of its pseudocode that the sequencer runs. `AVAILABLE`, `READ` and `STATUS` respond
without one. -/
def programOf (c : Config) : Instr → List Micro
  | .beginSession _ _ _ => [.writeLines, .respond .zero]
  | .beginTx addr dir => startOps ++ [.started dir] ++ byteWriteOps (addressByte addr dir) ++ [.respond .ack]
  | .endTx => stopOps ++ [.stopped, .respond .zero]
  | .write v => byteWriteOps v ++ [.respond .ack]
  | .writeBytes _ => [.countedBeat]
  | .writeStr => [.textBeat]
  | .requestFrom addr qty =>
    startOps ++ [.started true] ++ byteWriteOps (addressByte addr true) ++ [.keepAddrAck] ++
      readBytesOps c qty.toNat ++ [.respond .count]
  | .available | .read | .status => []

/-- What the command `i`, accepted in `s`, may have written at the state `u` where it responds or starts its program. -/
structure Entered (i : Instr) (s u : State) : Prop where
  cfg : u.cfg = s.cfg
  inputs : u.inputs = s.inputs
  cmd : u.cmd = some i
  io : u.io = .idle
  session : (∀ d p q, i ≠ .beginSession d p q) →
    u.bound = s.bound ∧ u.dev = s.dev ∧ u.sdaPin = s.sdaPin ∧ u.sclPin = s.sclPin
  pins : (s.bound = true → s.sdaPin ≠ s.sclPin) → u.bound = true → u.sdaPin ≠ u.sclPin
  busActive : (∀ d p q, i ≠ .beginSession d p q) → u.busActive = s.busActive
  lastDir : u.lastDir = s.lastDir
  rxbuf : i ≠ .read → u.rxbuf = s.rxbuf
  fits : u.rxbuf.length ≤ s.rxbuf.length

theorem accept_entered (i : Instr) (s : State) : Entered i s (accept i s) :=
  ⟨rfl, rfl, rfl, rfl, fun _ => ⟨rfl, rfl, rfl, rfl⟩, id, fun _ => rfl, rfl, fun _ => rfl, Nat.le_refl _⟩

/-- The registers of a burst or of a read are not among the fields of `Entered`. -/
theorem Entered.openBurst (h : Entered i s u) : Entered i s (openBurst u) := { h with }
theorem Entered.setRemaining (h : Entered i s u) (n : Byte) : Entered i s (setRemaining n u) := { h with }
theorem Entered.openRead (h : Entered i s u) : Entered i s (openRead u) := { h with }

/-- A session is bound to two pins (40_session_line_driver.md R150, R151). -/
theorem bindSession_entered {dev : Byte} {sda scl : Pin} (hne : sda ≠ scl) :
    Entered (.beginSession dev sda scl) s (bindSession dev sda scl (accept (.beginSession dev sda scl) s)) :=
  { accept_entered (.beginSession dev sda scl) s with
    session := fun h => absurd rfl (h dev sda scl)
    pins := fun _ _ => hne
    busActive := fun h => absurd rfl (h dev sda scl) }

/-- The oldest byte is gone (43_receive_buffer.md R271). -/
theorem fifoPop_entered {b : Byte} {rest : List Byte} (hbuf : s.rxbuf = b :: rest) :
    Entered .read s (setRxbuf rest (accept .read s)) :=
  { accept_entered .read s with
    rxbuf := fun h => absurd rfl h
    fits := by rw [hbuf]; exact Nat.le_succ _ }

/-- The command `i`, accepted in `s`, responds at once, or it runs its program, with room for what that pushes. -/
def Starts (i : Instr) (s : State) (r : Result) : Prop :=
  ∃ u, Entered i s u ∧
    ((∃ st p, r = .next (respond st p u)) ∨
      (isProgram i (programOf s.cfg i) ∧
        (s.rxbuf.length ≤ s.cfg.rxcap → s.rxbuf.length + pushesIn (programOf s.cfg i) ≤ s.cfg.rxcap) ∧
        r = runProgram (programOf s.cfg i) u))

theorem Entered.responds (h : Entered i s u) (st : Status) (p : Payload) : Starts i s (.next (respond st p u)) :=
  ⟨u, h, Or.inl ⟨st, p, rfl⟩⟩

/-- A program that pushes nothing needs no room. -/
theorem Entered.runs (h : Entered i s u) (hprog : isProgram i (programOf s.cfg i))
    (hpush : pushesIn (programOf s.cfg i) = 0) : Starts i s (runProgram (programOf s.cfg i) u) :=
  ⟨u, h, Or.inr ⟨hprog, fun hfits => by rwa [hpush], rfl⟩⟩

theorem requireBound_starts {k : State → Result} (hu : Entered i s u) (hk : Starts i s (k u)) :
    Starts i s (requireBound u k) := by
  unfold requireBound
  split
  · exact hk
  · exact hu.responds .unbound 0#24

theorem execBegin_starts (dev : Byte) (sda scl : Pin) (s : State) :
    Starts (.beginSession dev sda scl) s (execBegin dev sda scl s) := by
  unfold execBegin
  split
  · exact (accept_entered _ s).responds .badcfg 0#24
  next hne =>
    exact (bindSession_entered hne).runs (isProgram_append (front := [.writeLines]) (by simp [Micro.goesOn])
      (isProgram_single rfl)) rfl

theorem execBeginTx_starts (addr : SlaveAddr) (dir : Bool) (s : State) :
    Starts (.beginTx addr dir) s (execBeginTx addr dir s) := by
  have hprog : isProgram (.beginTx addr dir) (programOf s.cfg (.beginTx addr dir)) := by
    refine isProgram_append (fun op hop => ?_) (isProgram_single rfl)
    simp only [List.mem_append, List.mem_singleton] at hop
    rcases hop with (hop | rfl) | hop
    · exact startOps_goesOn op hop
    · rfl
    · exact byteWriteOps_goesOn _ op hop
  have hpush : pushesIn (programOf s.cfg (.beginTx addr dir)) = 0 := by
    simp only [programOf, pushesIn_append, pushesIn_byteWriteOps]; rfl
  exact requireBound_starts (accept_entered _ s) ((accept_entered _ s).runs hprog hpush)

theorem execEndTx_starts (s : State) : Starts .endTx s (execEndTx s) := by
  have hprog : isProgram .endTx (programOf s.cfg .endTx) :=
    isProgram_append stopOps_goesOn
      (isProgram_append (front := [.stopped]) (by simp [Micro.goesOn]) (isProgram_single rfl))
  exact requireBound_starts (accept_entered _ s) ((accept_entered _ s).runs hprog rfl)

theorem execWrite_starts (v : Byte) (s : State) : Starts (.write v) s (execWrite v s) := by
  have hprog : isProgram (.write v) (programOf s.cfg (.write v)) :=
    isProgram_append (byteWriteOps_goesOn v) (isProgram_single rfl)
  have hpush : pushesIn (programOf s.cfg (.write v)) = 0 := by
    simp only [programOf, pushesIn_append, pushesIn_byteWriteOps]; rfl
  exact requireBound_starts (accept_entered _ s) ((accept_entered _ s).runs hprog hpush)

theorem requestFrom_isProgram (c : Config) (addr : SlaveAddr) (qty : Byte) :
    isProgram (.requestFrom addr qty) (programOf c (.requestFrom addr qty)) := by
  refine isProgram_append (fun op hop => ?_) (isProgram_single rfl)
  simp only [List.mem_append, List.mem_singleton] at hop
  rcases hop with (((hop | rfl) | hop) | rfl) | hop
  · exact startOps_goesOn op hop
  · rfl
  · exact byteWriteOps_goesOn _ op hop
  · rfl
  · exact readBytesOps_goesOn c _ op hop

theorem pushesIn_requestFrom (c : Config) (addr : SlaveAddr) (qty : Byte) :
    pushesIn (programOf c (.requestFrom addr qty)) = qty.toNat := by
  have hnil : pushesIn [] = 0 := rfl
  simp [programOf, startOps, pushesIn_append, pushesIn_cons, pushesIn_byteWriteOps, pushesIn_readBytesOps, hnil]

/-- The check of 42_frame_layer.md R236 is what leaves room for every byte of a read. -/
theorem execRequestFrom_starts (addr : SlaveAddr) (qty : Byte) (s : State) :
    Starts (.requestFrom addr qty) s (execRequestFrom addr qty s) := by
  have hent := accept_entered (.requestFrom addr qty) s
  refine requireBound_starts hent ?_
  split
  · exact hent.responds .overflow 0#24
  next hfree =>
    refine ⟨_, hent.openRead, Or.inr ⟨requestFrom_isProgram _ addr qty, fun hfits => ?_, rfl⟩⟩
    rw [pushesIn_requestFrom]
    simp only [freeSpace, accept_cfg, accept_rxbuf] at hfree
    omega

theorem execRead_starts (s : State) : Starts .read s (execRead s) := by
  simp only [execRead, fifoPop, accept_rxbuf]
  cases hbuf : s.rxbuf with
  | nil => exact (accept_entered .read s).responds .empty 0#24
  | cons b rest => exact (fifoPop_entered hbuf).responds .ok (bytePayload b)

/-- Every command responds at once or runs its program. -/
theorem exec_starts (i : Instr) (s : State) : Starts i s (exec i s) := by
  cases i with
  | beginSession dev sda scl => exact execBegin_starts dev sda scl s
  | beginTx addr dir => exact execBeginTx_starts addr dir s
  | endTx => exact execEndTx_starts s
  | write v => exact execWrite_starts v s
  | writeBytes n => exact ((accept_entered _ s).openBurst.setRemaining n).runs (isProgram_single rfl) rfl
  | writeStr => exact (accept_entered _ s).openBurst.runs (isProgram_single rfl) rfl
  | requestFrom addr qty => exact execRequestFrom_starts addr qty s
  | available => exact (accept_entered .available s).responds .ok (bytePayload s.rxcount)
  | read => exact execRead_starts s
  | status => exact (accept_entered .status s).responds .ok (statusPayload s)

/-! ### The invariant -/

/-- Accepted in a state of the invariant, a command goes on, and ends or waits in a state of the invariant. -/
theorem exec_inv (h : s.Inv) (i : Instr) : ∃ t, exec i s = .next t ∧ t.Inv := by
  obtain ⟨-, hroom, hlegal, hpins⟩ := inv_iff.mp h
  have hfits : s.rxbuf.length ≤ s.cfg.rxcap := (Nat.le_add_right _ _).trans hroom
  obtain ⟨u, hu, ⟨st, p, hexec⟩ | ⟨hprog, hpush, hexec⟩⟩ := exec_starts i s
  · exact ⟨_, hexec, respondAs_inv _ st p (by rw [hu.cfg]; exact hu.fits.trans hfits) (by rw [hu.cfg]; exact hlegal)
      (hu.pins hpins)⟩
  · rw [hexec]
    refine runProgram_inv hu.cmd hprog hu.io ?_ (by rw [hu.cfg]; exact hlegal) (hu.pins hpins)
    rw [hu.cfg]
    exact (Nat.add_le_add_right hu.fits _).trans (hpush hfits)

theorem acceptWord_inv (h : s.Inv) (w : Word) : ∃ t, acceptWord w s = .next t ∧ t.Inv := by
  unfold acceptWord
  split
  next i _ => exact exec_inv h i
  · exact ⟨_, rfl, respondAs_inv _ .illegal 0#24 ((Nat.le_add_right _ _).trans h.room) h.legal h.pins⟩

theorem readyEdge_inv (h : s.Inv) (e : Edge) : ∃ t, readyEdge e s = .next t ∧ t.Inv := by
  unfold readyEdge
  split
  · exact acceptWord_inv h e.cmdData
  · exact ⟨s, rfl, h⟩

/-- From `RESP` to `READY` the block stays at rest. -/
theorem takeResponse_inv (h : s.Inv) (hq : s.seq = .resp) : (takeResponse s).Inv where
  legal := h.legal
  pins := h.pins
  room := h.room
  atRest _ := h.atRest (Or.inr hq)
  inProgress hq' := by rcases hq' with hq' | hq' <;> cases hq'
  beat hq' := by cases hq'
  unsampled _ := h.unsampled (by rw [hq]; decide)
  busy hq' := by cases hq'
  status hq' := by cases hq'

theorem respEdge_inv (h : s.Inv) (hq : s.seq = .resp) (e : Edge) : ∃ t, respEdge e s = .next t ∧ t.Inv := by
  unfold respEdge
  split
  · exact ⟨_, rfl, takeResponse_inv h hq⟩
  · exact ⟨s, rfl, h⟩

theorem takeEdge_inv (h : s.Inv) (e : Edge) (es : List Edge) : ∃ t, takeEdge e es s = .next t ∧ t.Inv := by
  cases hr : e.rst with
  | true => exact ⟨_, takeEdge_of_rst hr, applyReset_inv h.legal⟩
  | false =>
    have hrest := inv_setInputs h es
    simp only [takeEdge, hr, Bool.false_eq_true, if_false]
    split
    · exact run_inv h
    · exact run_inv h
    · exact readyEdge_inv hrest e
    next hq => exact respEdge_inv hrest hq e

/-- In the invariant the block goes on, and stays in it. -/
theorem step_inv (h : s.Inv) : ∃ t, step s = .next t ∧ t.Inv := by
  cases hin : s.inputs with
  | nil => exact ⟨s, step_of_no_edge h.legal hin, h⟩
  | cons e es =>
    rw [step_of_edge h.legal hin]
    exact takeEdge_inv h e es

/-- Settles O55: `step` is a function, and the state it goes on to has the invariant. -/
theorem everyStepKeepsTheInvariant : Obligations.EveryStepKeepsTheInvariant := by
  intro s t h hstep
  obtain ⟨t', hstep', ht'⟩ := step_inv h
  rw [hstep] at hstep'
  cases hstep'
  exact ht'

/-! ### Which commands write the session, the buffer and the bus phase -/

theorem respondAs_ran (op : BitVec 4) (st : Status) (p : Payload) (s : State) : Ran ops s (respondAs op st p s) :=
  have hstay : Advanced ops s (respondAs op st p s) := .stay rfl rfl List.nil_suffix rfl rfl rfl
  hstay.ran

/-- Short of a reset, a command writes what it writes on entry and what the lines of its program write. -/
theorem exec_ran (hn : noReset s.inputs) (h : exec i s = .next t) :
    ∃ u, Entered i s u ∧ Ran (programOf s.cfg i) u t := by
  obtain ⟨u, hu, ⟨st, p, hexec⟩ | ⟨-, -, hexec⟩⟩ := exec_starts i s
  · rw [hexec] at h
    cases h
    exact ⟨u, hu, respondAs_ran _ st p u⟩
  · rw [hexec] at h
    exact ⟨u, hu, runProgram_frame (by rw [hu.inputs]; exact hn) h⟩

/-- Settles O45: no line of a program writes the session, and only `BEGIN` writes it on entry. -/
theorem onlyBeginWritesTheSession : Obligations.OnlyBeginWritesTheSession := by
  intro i s t hbegin hn h
  obtain ⟨u, hu, hran⟩ := exec_ran hn h
  obtain ⟨hbound, hdev, hsda, hscl⟩ := hu.session hbegin
  exact ⟨hran.bound.trans hbound, hran.dev.trans hdev, hran.sdaPin.trans hsda, hran.sclPin.trans hscl⟩

theorem pushByte_not_mem_programOf (c : Config) (h : ∀ a q, i ≠ .requestFrom a q) : .pushByte ∉ programOf c i := by
  cases i with
  | requestFrom a q => exact absurd rfl (h a q)
  | _ => simp [programOf, startOps, stopOps, byteWriteOps, repeatOps, shiftOutOps, ackSampleOps]

theorem started_not_mem_programOf (c : Config) (dir : Bool) (htx : ∀ a d, i ≠ .beginTx a d)
    (h : ∀ a q, i ≠ .requestFrom a q) : .started dir ∉ programOf c i := by
  cases i with
  | beginTx a d => exact absurd rfl (htx a d)
  | requestFrom a q => exact absurd rfl (h a q)
  | _ => simp [programOf, stopOps, byteWriteOps, repeatOps, shiftOutOps, ackSampleOps]

theorem stopped_not_mem_programOf (c : Config) (hend : i ≠ .endTx) (h : ∀ a q, i ≠ .requestFrom a q) :
    .stopped ∉ programOf c i := by
  cases i with
  | endTx => exact absurd rfl hend
  | requestFrom a q => exact absurd rfl (h a q)
  | _ => simp [programOf, startOps, byteWriteOps, repeatOps, shiftOutOps, ackSampleOps]

/-- Settles O46: only `READ` takes a byte on entry, and only the program of `REQUEST_FROM` pushes one. -/
theorem onlyReadsWriteTheBuffer : Obligations.OnlyReadsWriteTheBuffer := by
  intro i s t hread hrequest hn h
  obtain ⟨u, hu, hran⟩ := exec_ran hn h
  exact (hran.rxbuf (pushByte_not_mem_programOf s.cfg hrequest)).trans (hu.rxbuf hread)

/-- Settles O47: `BEGIN` writes `bus_active` on entry, the others by a `started` or a `stopped` line of their program. -/
theorem busPhaseIsWrittenByFourCommands : Obligations.BusPhaseIsWrittenByFourCommands := by
  intro i s t hn h
  obtain ⟨u, hu, hran⟩ := exec_ran hn h
  refine ⟨fun hbegin htx hend hrequest => ?_, fun htx hrequest => ?_⟩
  · exact (hran.busActive (fun d => started_not_mem_programOf s.cfg d htx hrequest)
      (stopped_not_mem_programOf s.cfg hend hrequest)).trans (hu.busActive hbegin)
  · exact (hran.lastDir (fun d => started_not_mem_programOf s.cfg d htx hrequest)).trans hu.lastDir

end Sys2Proof.Machine
end

section
/-!
PROOFS. The ports (20_memory.md): the response and the command word (R71), the handshake of a primitive (R72), and the event
that its completion leaves in the line trace (R79).
-/

namespace Sys2Proof.Machine

variable {k : List Micro} {es : List Edge} {e : Edge} {s t : State} {op : Micro} {req : IoReq}

/-! ### The event of an edge -/

theorem newEvents_of_append {evs : List Event} (h : t.trace = s.trace ++ evs) : newEvents s t = evs := by
  rw [newEvents, h, List.drop_left]

/-- Only the completion of an outstanding primitive leaves an event. -/
theorem Edged.trace_of_not_outstanding (h : Edged s t) (hio : ∀ req, s.io ≠ .outstanding req) : t.trace = s.trace := by
  obtain htrace | ⟨-, -, req, -, -, -, hout, -⟩ := h.trace
  · exact htrace
  · exact absurd hout (hio req)

/-- With or without an error, a completion leaves its own event, and what follows it at the same edge leaves none. -/
theorem completePrimitive_trace (htodo : s.todo = op :: k) (h : completePrimitive e req s = .next t) :
    t.trace = s.trace ++ [completionEvent op req e.ioRspRaw e.ioRspErr s] := by
  simp only [completePrimitive, htodo] at h
  have hedged : Edged (emit (completionEvent op req e.ioRspRaw e.ioRspErr s) (setIo .idle s)) t := by
    split at h
    · exact failIo_frame h rfl (Or.inl rfl) rfl rfl rfl
    · exact afterPrimitive_frame h htodo rfl (Or.inl rfl) rfl rfl rfl
  exact hedged.trace_of_not_outstanding (fun _ hout => by cases hout)

/-- The line whose request is `req` writes the mask of the current drive bits, or reads one line by its select
(40_session_line_driver.md R144, R147). -/
theorem completionEvent_of_request (h : op.request s = some req) (raw : Nat) (err : Bool) :
    completionEvent op req raw err s = .wrote s.dev (lineMask s) err ∨
    ∃ l, completionEvent op req raw err s = .sampled s.dev (pinSelect s.cfg.portW (s.pin l)) l
      (if err then none else some (raw.testBit (s.pin l).toNat)) := by
  cases op with
  | writeLines => cases h; exact Or.inl rfl
  | setLine l v => cases h; exact Or.inl rfl
  | driveBit => cases h; exact Or.inl rfl
  | pollScl => cases h; exact Or.inr ⟨.scl, rfl⟩
  | sampleBit => cases h; exact Or.inr ⟨.sda, rfl⟩
  | sampleAck => cases h; exact Or.inr ⟨.sda, rfl⟩
  | _ => cases h

/-- In the invariant, an outstanding primitive is the one that the head of the program asks for. -/
theorem State.Inv.request_of_outstanding (hs : s.Inv) (hq : s.seq = .busy) (hio : s.io = .outstanding req) :
    ∃ op k, s.todo = op :: k ∧ op.request s = some req := by
  have hwaits := hs.busy hq
  rw [waitsFor, hio] at hwaits
  obtain ⟨op, hhead, hreq⟩ := Option.bind_eq_some_iff.mp hwaits
  obtain ⟨k, htodo⟩ := List.head?_eq_some_iff.mp hhead
  exact ⟨op, k, htodo, hreq⟩

theorem busyEdge_outstanding (hio : s.io = .outstanding req) :
    busyEdge e s = if e.ioRspValid then completePrimitive e req s else .next s := by
  simp only [busyEdge, hio]

/-- Settles O50: only an outstanding primitive leaves an event, and by the invariant it is the primitive that the head of the
program asks for with the drive bits now stored. -/
theorem everyWriteCarriesTheCurrentDriveBits : Obligations.EveryWriteCarriesTheCurrentDriveBits := by
  intro s t e hs hq hr h
  by_cases hout : ∃ req, s.io = .outstanding req
  · obtain ⟨req, hio⟩ := hout
    rw [commandEdge_busy hq hr, busyEdge_outstanding hio] at h
    split at h
    · obtain ⟨op, k, htodo, hreq⟩ := hs.request_of_outstanding hq hio
      rw [newEvents_of_append (completePrimitive_trace htodo h)]
      obtain hwrite | ⟨l, hread⟩ := completionEvent_of_request hreq e.ioRspRaw e.ioRspErr
      · exact Or.inr (Or.inl (by rw [hwrite, lineMask]))
      · exact Or.inr (Or.inr ⟨l, by rw [hread]⟩)
    · cases h
      exact Or.inl (newEvents_of_append (List.append_nil _).symm)
  · have htrace := (commandEdge_frame hr h).trace_of_not_outstanding (fun req hio => hout ⟨req, hio⟩)
    exact Or.inl (newEvents_of_append (by rw [htrace, List.append_nil]))

/-! ### The response and the command word -/

theorem takeEdge_resp (hq : s.seq = .resp) (hr : e.rst = false) : takeEdge e es s = respEdge e (setInputs es s) := by
  simp [takeEdge, hq, hr]

theorem takeEdge_ready (hq : s.seq = .ready) (hr : e.rst = false) : takeEdge e es s = readyEdge e (setInputs es s) := by
  simp [takeEdge, hq, hr]

/-- Settles O11: in `RESP` the step is `respEdge`, which takes the response where `rsp_ready` = 1 and else stays. -/
theorem responseIsHeldUntilTaken : Obligations.ResponseIsHeldUntilTaken := by
  intro s e es hlegal hq hin hr
  refine ⟨by simp [rspValid, hq], by simp [cmdReady, hq], ?_⟩
  rw [step_of_edge hlegal hin, takeEdge_resp hq hr]
  rfl

/-- Settles O12: in `READY` the step is `readyEdge`, which stays where `cmd_valid` = 0. -/
theorem readyWaitsForAWord : Obligations.ReadyWaitsForAWord := by
  intro s e es hlegal hq hin hr hv
  refine ⟨by simp [cmdReady, hq], ?_⟩
  rw [step_of_edge hlegal hin, takeEdge_ready hq hr, readyEdge, hv]
  rfl

/-! ### The handshake of a primitive -/

/-- The edge `e` with other values of the three signals of a completion (20_memory.md R72). -/
def withCompletion (v : Bool) (raw : Nat) (err : Bool) (e : Edge) : Edge :=
  { e with ioRspValid := v, ioRspRaw := raw, ioRspErr := err }

theorem busyEdge_withCompletion (hio : ∀ r, s.io ≠ .outstanding r) (v : Bool) (raw : Nat) (err : Bool) :
    busyEdge (withCompletion v raw err e) s = busyEdge e s := by
  unfold busyEdge
  cases hport : s.io with
  | idle => rfl
  | gap n req => rfl
  | request req => rfl
  | outstanding req => exact absurd hport (hio req)

theorem commandEdge_withCompletion (hio : ∀ r, s.io ≠ .outstanding r) (v : Bool) (raw : Nat) (err : Bool) :
    commandEdge (withCompletion v raw err e) s = commandEdge e s := by
  rw [commandEdge, busyEdge_withCompletion hio]
  rfl

/-- Only the edges of a command in progress look at a completion. -/
theorem takeEdge_withCompletion (hio : ∀ r, s.io ≠ .outstanding r) (v : Bool) (raw : Nat) (err : Bool) :
    takeEdge (withCompletion v raw err e) es s = takeEdge e es s := by
  unfold takeEdge
  cases hq : s.seq with
  | ready => rfl
  | busy => simp only [run_busy hq, commandEdge_withCompletion hio]
  | beatWait => simp only [run_beatWait hq, commandEdge_withCompletion hio]
  | resp => rfl

theorem takeEdge_setInputs (x : List Edge) : takeEdge e es (setInputs x s) = takeEdge e es s := by
  simp only [takeEdge, setInputs_seq, run_setInputs]
  rfl

theorem step_setInputs_cons (hlegal : s.cfg.legal = true) (e : Edge) (es : List Edge) :
    step (setInputs (e :: es) s) = takeEdge e es s :=
  (step_of_edge (s := setInputs (e :: es) s) hlegal rfl).trans (takeEdge_setInputs _)

theorem step_withCompletion (hio : ∀ r, s.io ≠ .outstanding r) (v : Bool) (raw : Nat) (err : Bool) :
    step (setInputs (withCompletion v raw err e :: es) s) = step (setInputs (e :: es) s) := by
  by_cases hlegal : s.cfg.legal = true
  · rw [step_setInputs_cons hlegal, step_setInputs_cons hlegal, takeEdge_withCompletion hio]
  · have hrefused (x : List Edge) : step (setInputs x s) = .refused .illegalConfig := step_of_not_legal hlegal
    rw [hrefused, hrefused]

/-- Settles O16: in `BUSY` the edge is `busyEdge`, by the state of the port; a step reads the signals of a completion there
alone, and only with a primitive outstanding. -/
theorem primitiveHandshake : Obligations.PrimitiveHandshake := by
  intro s e es req
  refine ⟨fun hq hr hio => ?_, fun hq hr hio => ?_, fun hio v raw err => step_withCompletion hio v raw err⟩
  · rw [commandEdge_busy hq hr, busyEdge, ioRequest, hio]
    exact ⟨rfl, rfl⟩
  · rw [commandEdge_busy hq hr, busyEdge_outstanding hio, ioReqValid, ioRequest, hio]
    exact ⟨rfl, fun hv => by rw [hv]; rfl⟩

end Sys2Proof.Machine
end

section
/-!
PROOFS. The encoding of command words (30_encoding.md R100 to R111): the decoder as the rows of the opcode table, the
encoder as its inverse, the assembler's words of `TX` (R120, R121), and what a step does with a word (R108, R117).
-/

namespace Sys2Proof.Machine

open Sys2Proof.Laws

variable {w : Word} {i : Instr} {es : List Edge} {e : Edge} {s : State}

/-! ### The row of a command -/

/-- The match of the command's row in the opcode table (30_encoding.md R102), beside its mask `rowMask`. -/
def rowMatch : Instr → Word
  | .beginSession _ _ _ => 0x10000000#32
  | .beginTx _ _ => 0x20000000#32
  | .endTx => 0x30000000#32
  | .write _ => 0x40000000#32
  | .writeBytes _ => 0x50000000#32
  | .writeStr => 0x60000000#32
  | .requestFrom _ _ => 0x70000000#32
  | .available => 0x80000000#32
  | .read => 0x90000000#32
  | .status => 0xA0000000#32

/-- The command of the same row whose operands stand in the fields of the word `w` (R101, R104). -/
def withOperandsOf (w : Word) : Instr → Instr
  | .beginSession _ _ _ => .beginSession (w.extractLsb' 16 8) (w.extractLsb' 0 3) (w.extractLsb' 3 3)
  | .beginTx _ _ => .beginTx (w.extractLsb' 0 7) (w.getLsbD 8)
  | .write _ => .write (w.extractLsb' 0 8)
  | .writeBytes _ => .writeBytes (w.extractLsb' 0 8)
  | .requestFrom _ _ => .requestFrom (w.extractLsb' 0 7) (w.extractLsb' 8 8)
  | .endTx => .endTx
  | .writeStr => .writeStr
  | .available => .available
  | .read => .read
  | .status => .status

theorem rowMatch_eq (i : Instr) : rowMatch i = i.opcode ++ 0#28 := by
  cases i <;> (simp only [rowMatch, Instr.opcode]; decide)

theorem opField_rowMask (i : Instr) : opField (rowMask i) = 0xF#4 := by
  cases i <;> (simp only [rowMask]; decide)

theorem opField_rowMatch (i : Instr) : opField (rowMatch i) = i.opcode := by
  cases i <;> (simp only [rowMatch, Instr.opcode]; decide)

theorem rowMask_withOperandsOf (w : Word) (i : Instr) : rowMask (withOperandsOf w i) = rowMask i := by
  cases i <;> rfl

theorem rowMatch_withOperandsOf (w : Word) (i : Instr) : rowMatch (withOperandsOf w i) = rowMatch i := by
  cases i <;> rfl

theorem withOperandsOf_idem (w : Word) (i : Instr) :
    withOperandsOf w (withOperandsOf w i) = withOperandsOf w i := by
  cases i <;> rfl

theorem opcode_withOperandsOf (w : Word) (i : Instr) : (withOperandsOf w i).opcode = i.opcode := by
  cases i <;> rfl

theorem mem_opcodeRows_iff {r : Word × Word} : r ∈ opcodeRows ↔ ∃ i, r = (rowMask i, rowMatch i) := by
  constructor
  · intro h
    simp only [opcodeRows, List.mem_cons, List.not_mem_nil, or_false] at h
    rcases h with rfl | rfl | rfl | rfl | rfl | rfl | rfl | rfl | rfl | rfl
    · exact ⟨.beginSession 0 0 0, rfl⟩
    · exact ⟨.beginTx 0 false, rfl⟩
    · exact ⟨.endTx, rfl⟩
    · exact ⟨.write 0, rfl⟩
    · exact ⟨.writeBytes 0, rfl⟩
    · exact ⟨.writeStr, rfl⟩
    · exact ⟨.requestFrom 0 0, rfl⟩
    · exact ⟨.available, rfl⟩
    · exact ⟨.read, rfl⟩
    · exact ⟨.status, rfl⟩
  · rintro ⟨i, rfl⟩
    cases i <;> simp [opcodeRows, rowMask, rowMatch]

/-! ### The decoder by rows -/

/-- No row leaves a bit of the opcode field open. -/
theorem opField_of_match (h : w &&& rowMask i = rowMatch i) : opField w = i.opcode :=
  calc opField w = opField w &&& opField (rowMask i) := by rw [opField_rowMask]; exact BitVec.and_allOnes.symm
    _ = opField (w &&& rowMask i) := BitVec.extractLsb'_and.symm
    _ = i.opcode := by rw [h, opField_rowMatch]

/-- R104, R108: a word decodes to the command whose row it matches and whose operands it holds. -/
theorem decode_ok_iff : decode w = .ok i ↔ w &&& rowMask i = rowMatch i ∧ withOperandsOf w i = i := by
  constructor
  · intro h
    unfold decode at h
    split at h
    case h_11 => cases h
    all_goals
      obtain ⟨hrow, rfl⟩ := checkRow_ok.mp h
      exact ⟨hrow, rfl⟩
  · rintro ⟨hrow, hoperands⟩
    have hop := opField_of_match hrow
    cases i <;> (rw [decode, hop]; exact checkRow_ok.mpr ⟨hrow, hoperands⟩)

theorem exists_decode_iff : (∃ i, decode w = .ok i) ↔ ∃ i, w &&& rowMask i = rowMatch i := by
  constructor
  · rintro ⟨i, h⟩
    exact ⟨i, (decode_ok_iff.mp h).1⟩
  · rintro ⟨i, h⟩
    refine ⟨withOperandsOf w i, decode_ok_iff.mpr ⟨?_, withOperandsOf_idem w i⟩⟩
    rw [rowMask_withOperandsOf, rowMatch_withOperandsOf, h]

/-- Settles O3: a word that matches the row of a command decodes to the command of that row with the word's operands. -/
theorem commandsAreTheTableRows : Obligations.CommandsAreTheTableRows := by
  intro w
  rw [exists_decode_iff]
  constructor
  · rintro ⟨i, h⟩
    exact ⟨_, mem_opcodeRows_iff.mpr ⟨i, rfl⟩, h⟩
  · rintro ⟨r, hr, h⟩
    obtain ⟨i, rfl⟩ := mem_opcodeRows_iff.mp hr
    exact ⟨i, h⟩

/-! ### The encoder and the rows -/

theorem encode_and_rowMask (i : Instr) : encode i &&& rowMask i = rowMatch i := by
  rw [rowMatch_eq]
  cases i with
  | beginSession dev sda scl => exact ReservedBits.beginSession dev sda scl
  | beginTx addr dir => exact ReservedBits.beginTx addr dir
  | endTx => exact ReservedBits.endTx
  | write v => exact ReservedBits.write v
  | writeBytes n => exact ReservedBits.writeBytes n
  | writeStr => exact ReservedBits.writeStr
  | requestFrom addr qty => exact ReservedBits.requestFrom addr qty
  | available => exact ReservedBits.available
  | read => exact ReservedBits.read
  | status => exact ReservedBits.status

theorem encode_extract (i : Instr) {start len : Nat} (h : start + len ≤ 28) :
    (encode i).extractLsb' start len = i.operandBits.extractLsb' start len :=
  BitVec.extractLsb'_append_eq_of_add_le (xhi := i.opcode) h

/-- A one-byte operand is the low byte (R101). -/
theorem byteOperand_field (v : Byte) : (0#20 ++ v : BitVec (20 + 8)).extractLsb' 0 8 = v :=
  BitVec.extractLsb'_append_eq_right

theorem beginSession_fields (dev : Byte) (sda scl : Pin) :
    withOperandsOf (encode (.beginSession dev sda scl)) (.beginSession dev sda scl) = .beginSession dev sda scl := by
  have hdev : (0#4 ++ dev ++ 0#10 ++ scl ++ sda : BitVec (4 + 8 + 10 + 3 + 3)).extractLsb' 16 8 = dev := by
    rw [BitVec.extractLsb'_append_eq_of_le (by decide), BitVec.extractLsb'_append_eq_of_le (by decide),
      BitVec.extractLsb'_append_eq_of_le (by decide)]
    exact BitVec.extractLsb'_append_eq_right
  have hsda : (0#4 ++ dev ++ 0#10 ++ scl ++ sda : BitVec (4 + 8 + 10 + 3 + 3)).extractLsb' 0 3 = sda :=
    BitVec.extractLsb'_append_eq_right
  have hscl : (0#4 ++ dev ++ 0#10 ++ scl ++ sda : BitVec (4 + 8 + 10 + 3 + 3)).extractLsb' 3 3 = scl := by
    rw [BitVec.extractLsb'_append_eq_of_le (by decide)]
    exact BitVec.extractLsb'_append_eq_right
  rw [withOperandsOf, encode_extract _ (by decide), encode_extract _ (by decide), encode_extract _ (by decide)]
  exact congr (congr (congrArg _ hdev) hsda) hscl

theorem beginTx_fields (addr : SlaveAddr) (dir : Bool) :
    withOperandsOf (encode (.beginTx addr dir)) (.beginTx addr dir) = .beginTx addr dir := by
  have haddr : (0#19 ++ BitVec.ofBool dir ++ 0#1 ++ addr : BitVec (19 + 1 + 1 + 7)).extractLsb' 0 7 = addr :=
    BitVec.extractLsb'_append_eq_right
  have hdir : (0#19 ++ BitVec.ofBool dir ++ 0#1 ++ addr : BitVec (19 + 1 + 1 + 7)).getLsbD 8 = dir := by
    simp only [BitVec.getLsbD_append]
    simp
  rw [withOperandsOf, encode_extract _ (by decide), encode_low _ _ (by decide)]
  exact congr (congrArg _ haddr) hdir

theorem requestFrom_fields (addr : SlaveAddr) (qty : Byte) :
    withOperandsOf (encode (.requestFrom addr qty)) (.requestFrom addr qty) = .requestFrom addr qty := by
  have haddr : (0#12 ++ qty ++ 0#1 ++ addr : BitVec (12 + 8 + 1 + 7)).extractLsb' 0 7 = addr :=
    BitVec.extractLsb'_append_eq_right
  have hqty : (0#12 ++ qty ++ 0#1 ++ addr : BitVec (12 + 8 + 1 + 7)).extractLsb' 8 8 = qty := by
    rw [BitVec.extractLsb'_append_eq_of_le (by decide), BitVec.extractLsb'_append_eq_of_le (by decide)]
    exact BitVec.extractLsb'_append_eq_right
  rw [withOperandsOf, encode_extract _ (by decide), encode_extract _ (by decide)]
  exact congr (congrArg _ haddr) hqty

/-- The word of a command holds the command's operands in its fields. -/
theorem withOperandsOf_encode (i : Instr) : withOperandsOf (encode i) i = i := by
  cases i with
  | beginSession dev sda scl => exact beginSession_fields dev sda scl
  | beginTx addr dir => exact beginTx_fields addr dir
  | write v =>
    rw [withOperandsOf, encode_extract _ (by decide)]
    exact congrArg _ (byteOperand_field v)
  | writeBytes n =>
    rw [withOperandsOf, encode_extract _ (by decide)]
    exact congrArg _ (byteOperand_field n)
  | requestFrom addr qty => exact requestFrom_fields addr qty
  | endTx => rfl
  | writeStr => rfl
  | available => rfl
  | read => rfl
  | status => rfl

/-- Settles O1: the word of a command matches the command's row, and holds the command's operands. -/
theorem decodeOfEncodeIsTheCommand : Obligations.DecodeOfEncodeIsTheCommand := fun i =>
  decode_ok_iff.mpr ⟨encode_and_rowMask i, withOperandsOf_encode i⟩

/-! ### No bit of a command word is free -/

theorem byteOperand_bits (w : Word) (j : Nat) (hj : j < 28) :
    (0#20 ++ w.extractLsb' 0 8 : BitVec (20 + 8)).getLsbD j = (w.getLsbD j && !(0xFFFFFF00#32).getLsbD j) := by
  simp only [BitVec.getLsbD_append, BitVec.getLsbD_extractLsb']
  interval_cases j <;> simp

/-- The operand bits read from `w` are those of `w` outside the mask. -/
theorem operandBits_withOperandsOf (w : Word) (i : Instr) (j : Nat) (hj : j < 28) :
    (withOperandsOf w i).operandBits.getLsbD j = (w.getLsbD j && !(rowMask i).getLsbD j) := by
  cases i with
  | beginSession dev sda scl =>
    show (0#4 ++ w.extractLsb' 16 8 ++ 0#10 ++ w.extractLsb' 3 3 ++ w.extractLsb' 0 3 :
      BitVec (4 + 8 + 10 + 3 + 3)).getLsbD j = (w.getLsbD j && !(0xFF00FFC0#32).getLsbD j)
    simp only [BitVec.getLsbD_append, BitVec.getLsbD_extractLsb']
    interval_cases j <;> simp
  | beginTx addr dir =>
    show (0#19 ++ BitVec.ofBool (w.getLsbD 8) ++ 0#1 ++ w.extractLsb' 0 7 : BitVec (19 + 1 + 1 + 7)).getLsbD j =
      (w.getLsbD j && !(0xFFFFFE80#32).getLsbD j)
    simp only [BitVec.getLsbD_append, BitVec.getLsbD_extractLsb']
    interval_cases j <;> simp
  | write v => exact byteOperand_bits w j hj
  | writeBytes n => exact byteOperand_bits w j hj
  | requestFrom addr qty =>
    show (0#12 ++ w.extractLsb' 8 8 ++ 0#1 ++ w.extractLsb' 0 7 : BitVec (12 + 8 + 1 + 7)).getLsbD j =
      (w.getLsbD j && !(0xFFFF0080#32).getLsbD j)
    simp only [BitVec.getLsbD_append, BitVec.getLsbD_extractLsb']
    interval_cases j <;> simp
  | _ =>
    show (0#28).getLsbD j = (w.getLsbD j && !(0xFFFFFFFF#32).getLsbD j)
    interval_cases j <;> simp

/-- R111: what the mask leaves of a word that matches, and what it takes, is the word of the command. -/
theorem encode_withOperandsOf (h : w &&& rowMask i = rowMatch i) : encode (withOperandsOf w i) = w := by
  apply BitVec.eq_of_getLsbD_eq
  intro j hj
  by_cases hlow : j < 28
  · have hmatch : (w.getLsbD j && (rowMask i).getLsbD j) = false := by
      rw [← BitVec.getLsbD_and, h, rowMatch_eq]
      show (i.opcode ++ 0#28 : BitVec (4 + 28)).getLsbD j = false
      rw [BitVec.getLsbD_append, if_pos hlow, BitVec.getLsbD_zero]
    rw [encode_low _ _ hlow, operandBits_withOperandsOf w i j hlow]
    cases hw : w.getLsbD j <;> simp_all
  · rw [encode_high _ _ (by omega), opcode_withOperandsOf, ← opField_of_match h, opField, BitVec.getLsbD_extractLsb',
      Nat.add_sub_cancel' (by omega), decide_eq_true (by omega), Bool.true_and]

/-- Settles O2: the word matches the row of the command, so that it is the word of the operands it holds. -/
theorem encodeOfDecodeIsTheWord : Obligations.EncodeOfDecodeIsTheWord := by
  intro w i h
  obtain ⟨hrow, hoperands⟩ := decode_ok_iff.mp h
  rw [← encode_withOperandsOf hrow, hoperands]

/-- Settles O4: the decoder on seven fixed words. -/
theorem sampleWordsDecode : Obligations.SampleWordsDecode := by
  unfold Obligations.SampleWordsDecode
  decide

/-- Settles O5: appending one bit doubles the address and adds the bit. -/
theorem addressByteIsAddressThenDirection : Obligations.AddressByteIsAddressThenDirection := by
  intro addr dir
  have hbit : (BitVec.ofBool dir).toNat < 2 ^ 1 := (BitVec.ofBool dir).isLt
  rw [addressByte, BitVec.toNat_append, ← Nat.shiftLeft_add_eq_or_of_lt hbit, Nat.shiftLeft_eq, BitVec.toNat_ofBool,
    Nat.mul_comm, pow_one]

/-! ### The assembler -/

/-- The beats that a burst of `bytes.length` still asks for are the beats of `bytes` (R109). -/
theorem beatsComplete_beats (bytes : List Nat) (ls : List AsmLine) :
    beatsComplete (if bytes.length = 0 then .command else .beats bytes.length) (bytes.map .beat ++ ls) =
      beatsComplete .command ls := by
  induction bytes with
  | nil => rfl
  | cons b bytes ih => exact ih

theorem expand_tx (addr : Nat) (bytes : List Nat) :
    [AsmLine.tx addr bytes].flatMap AsmLine.expand =
      .beginTx addr (some false) :: .writeBytes bytes.length :: (bytes.map .beat ++ [.endTx]) := by
  simp [AsmLine.expand, AsmLine.expandBuf]

theorem wellFormedProgram_tx {addr : Nat} {bytes : List Nat} (haddr : addr < 128) (hlen : bytes.length < 256)
    (hbytes : ∀ b ∈ bytes, b < 256) : wellFormedProgram [.tx addr bytes] = true := by
  have hbeats : beatsComplete .command ([AsmLine.tx addr bytes].flatMap AsmLine.expand) = true := by
    rw [expand_tx]
    exact beatsComplete_beats bytes [.endTx]
  have hline : AsmLine.wellFormed (.tx addr bytes) = true := by
    simpa [AsmLine.wellFormed, haddr, hlen] using hbytes
  simp only [wellFormedProgram, List.all_cons, List.all_nil, hline, hbeats, Bool.and_true]

theorem filterMap_word_beats (bytes : List Nat) :
    (bytes.map AsmLine.beat).filterMap AsmLine.word = bytes.map (fun b => encodeBeat (BitVec.ofNat 8 b)) := by
  rw [List.filterMap_map, ← List.filterMap_eq_map]
  rfl

/-- Settles O6: the expansion passes the assembler's checks, and each of its lines has its word. -/
theorem transmissionAssembles : Obligations.TransmissionAssembles := by
  intro addr bytes haddr hlen hbytes
  rw [assemble, if_pos (wellFormedProgram_tx haddr hlen hbytes), expand_tx]
  simp only [List.filterMap_cons, List.filterMap_append, List.filterMap_nil, filterMap_word_beats, AsmLine.word,
    Option.getD_some]

/-! ### A word in `READY` -/

theorem step_of_word (hlegal : s.cfg.legal = true) (hq : s.seq = .ready) (hin : s.inputs = e :: es) (hr : e.rst = false)
    (hv : e.cmdValid = true) : step s = acceptWord e.cmdData (setInputs es s) := by
  rw [step_of_edge hlegal hin, takeEdge_ready hq hr, readyEdge, if_pos hv]

/-- Settles O9: in `READY` the step accepts the word, and an accepted word runs the command it decodes to. -/
theorem stepRunsTheDecodedCommand : Obligations.StepRunsTheDecodedCommand := by
  intro s e es i hlegal hq hin hr hv hdecode
  rw [step_of_word hlegal hq hin hr hv, acceptWord, hdecode]
  rfl

/-- Settles O10: a word that matches no row does not decode, so that accepting it only responds. -/
theorem illegalWordOnlyResponds : Obligations.IllegalWordOnlyResponds := by
  intro s e es hlegal hq hin hr hv hrows
  rw [step_of_word hlegal hq hin hr hv, acceptWord]
  cases hdecode : decode e.cmdData with
  | ok i =>
    obtain ⟨r, hmem, hmatch⟩ := (commandsAreTheTableRows e.cmdData).mp ⟨i, hdecode⟩
    exact absurd hmatch (hrows r hmem)
  | error err => rfl

end Sys2Proof.Machine
end

section
/-!
PROOFS. Data beats (30_encoding.md R110, R112), and commands without a session or with a failed primitive (R118;
60_exceptions.md R302, R305).
-/

namespace Sys2Proof.Machine

variable {now : Nat} {k : List Micro} {es es' rest : List Edge} {e e' : Edge} {s : State} {op : Micro} {req : IoReq}
  {i : Instr}

/-! ### A beat's upper bits -/

theorem step_of_takeEdge_eq (h : takeEdge e es s = takeEdge e' es s) :
    step (setInputs (e :: es) s) = step (setInputs (e' :: es) s) := by
  by_cases hlegal : s.cfg.legal = true
  · rw [step_setInputs_cons hlegal, step_setInputs_cons hlegal, h]
  · have hrefused (x : List Edge) : step (setInputs x s) = .refused .illegalConfig := step_of_not_legal hlegal
    rw [hrefused, hrefused]

theorem takeEdge_beatWait (hq : s.seq = .beatWait) : takeEdge e es s = (commandEdge e s).andThen (run es) := by
  rw [takeEdge, hq]
  exact run_beatWait hq e es

/-- The edge `e` with another word on the command port. -/
def withWord (w : Word) (e : Edge) : Edge := { e with cmdData := w }

theorem commandEdge_withWord {w : Word} (hq : s.seq = .beatWait) (hw : beatData w = beatData e.cmdData) :
    commandEdge (withWord w e) s = commandEdge e s := by
  have hbeat : beatEdge (withWord w e) s = beatEdge e s := by
    unfold beatEdge withWord
    rw [hw]
  simp only [commandEdge, hq, hbeat]
  rfl

/-- Settles O17: in `BEAT_WAIT` an edge is looked at as a beat, and of a beat's word the low byte alone. -/
theorem beatUpperBitsAreIgnored : Obligations.BeatUpperBitsAreIgnored := by
  intro s e es w hq hw
  refine step_of_takeEdge_eq (e := withWord w e) (e' := e) ?_
  rw [takeEdge_beatWait hq, takeEdge_beatWait hq, commandEdge_withWord hq hw]

/-! ### A command without a session -/

theorem cmdOp_of_cmd (h : s.cmd = some i) : cmdOp s = i.opcode := by
  rw [cmdOp, h]

/-- A response writes nothing visible but itself and the place of a block at rest (30_encoding.md R113, R115). -/
theorem respond_visible (st : Status) (p : Payload) (hcmd : s.cmd = some i) :
    (respond st p s).visible = State.visible { s with
      rspData := i.opcode ++ st.code ++ p, seq := .resp, io := .idle, cmd := none, todo := [] } := by
  rw [respond, cmdOp_of_cmd hcmd]
  rfl

theorem requireBound_of_unbound {k : State → Result} (hb : s.bound = false) :
    requireBound s k = .next (fail .unbound 0#24 s) := by
  rw [requireBound, hb]
  rfl

/-- Settles O21: each of the four commands first requires a session, and `fail` only responds. -/
theorem unboundCommandsOnlyRespond : Obligations.UnboundCommandsOnlyRespond := by
  intro s i hb hi
  refine ⟨fail .unbound 0#24 (accept i s), ?_, respond_visible .unbound 0#24 (s := accept i s) rfl⟩
  rcases hi with ⟨addr, dir, rfl⟩ | rfl | ⟨v, rfl⟩ | ⟨addr, qty, rfl⟩
  · exact requireBound_of_unbound (s := accept (.beginTx addr dir) s) hb
  · exact requireBound_of_unbound (s := accept .endTx s) hb
  · exact requireBound_of_unbound (s := accept (.write v) s) hb
  · rw [exec, execRequestFrom]
    exact requireBound_of_unbound (s := accept (.requestFrom addr qty) s) hb

/-! ### Draining the beats of a burst -/

/-- The visible response of a burst does not depend on how many beats were drained. -/
theorem respondBurst_drained (n : BitVec 8) (r : Bool) (s : State) :
    (respondBurst { s with remaining := n, retval := r }).visible = (respondBurst s).visible := by
  simp only [respondBurst]
  cases s.err <;> rfl

theorem setInputs_visible (es : List Edge) (s : State) : (setInputs es s).visible = setInputs es s.visible := rfl

theorem respondBurst_seq (s : State) : (respondBurst s).seq = .resp := by
  obtain ⟨st, p, h⟩ := respondBurst_eq s
  rw [h, respond_seq]

theorem run_respondBurst (es : List Edge) (s : State) :
    run es (respondBurst s) = .next (setInputs es (respondBurst s)) :=
  run_rest (Or.inr (respondBurst_seq s)) es

/-- A counted burst that has failed takes the beats it expects and responds (R112). -/
theorem runFrom_countedBeat_drain {ds : List Byte} (hq : s.seq = .busy) (herr : s.err ≠ .ok)
    (h : awaitBeats s.remaining.toNat es = some (ds, rest)) :
    ∃ t, runFrom now [.countedBeat] es s = .next t ∧ t.visible = (setInputs rest (respondBurst s)).visible := by
  obtain ⟨now', r, hrun⟩ := runFrom_drainCounted (now := now) hq herr (Nat.le_refl _) h
  have hzero : s.remaining - BitVec.ofNat 8 s.remaining.toNat = 0#8 := by
    rw [BitVec.ofNat_toNat, BitVec.setWidth_eq, BitVec.sub_self]
  refine ⟨_, by rw [hrun, runFrom_countedEnd hzero, run_respondBurst], ?_⟩
  rw [setInputs_visible, respondBurst_drained, setInputs_visible]

/-- A text burst that has failed takes the beats up to the terminator and responds (R112). -/
theorem runFrom_textBeat_drain {n : Nat} {ds : List Byte} (hq : s.seq = .busy) (herr : s.err ≠ .ok)
    (hds : ∀ d ∈ ds, d ≠ 0x00#8) (h : awaitBeats n es = some (ds, es')) (hend : awaitBeat es' = some (0x00#8, rest)) :
    runFrom now [.textBeat] es s = .next (setInputs rest (respondBurst s)) := by
  obtain ⟨now', r, hrun⟩ := runFrom_drainText (now := now) hq herr hds h
  rw [hrun, runFrom_terminator (s := setRetval r s) hq hend, respondBurst_setRetval, run_respondBurst]

/-! ### A burst without a session -/

theorem exec_writeBytes (n : Byte) (s : State) : exec (.writeBytes n) s =
    runFrom 0 [.countedBeat] s.inputs (setSeq .busy (setRemaining n (openBurst (accept (.writeBytes n) s)))) := rfl

theorem exec_writeStr (s : State) : exec .writeStr s =
    runFrom 0 [.textBeat] s.inputs (setSeq .busy (openBurst (accept .writeStr s))) := rfl

theorem openBurst_err_of_unbound (hb : s.bound = false) : (openBurst s).err = .unbound := by
  rw [openBurst, hb]
  rfl

/-- Settles O22: without a session a burst starts as one that has failed, with the status `UNBOUND`. -/
theorem unboundBurstsConsumeTheirBeats : Obligations.UnboundBurstsConsumeTheirBeats := by
  intro s ds es1 rest hb
  refine ⟨fun n h => ?_, fun n h hds hend => ?_⟩
  · have herr : (setSeq .busy (setRemaining n (openBurst (accept (.writeBytes n) s)))).err = .unbound :=
      openBurst_err_of_unbound hb
    obtain ⟨t, hrun, ht⟩ := runFrom_countedBeat_drain (now := 0)
      (s := setSeq .busy (setRemaining n (openBurst (accept (.writeBytes n) s)))) rfl (by rw [herr]; decide) h
    refine ⟨t, by rw [exec_writeBytes, hrun], ?_⟩
    rw [ht, respondBurst_unbound herr, setInputs_visible, respond_visible (i := .writeBytes n) _ _ rfl]
    rfl
  · have herr : (setSeq .busy (openBurst (accept .writeStr s))).err = .unbound := openBurst_err_of_unbound hb
    have hrun := runFrom_textBeat_drain (now := 0) (s := setSeq .busy (openBurst (accept .writeStr s))) rfl
      (by rw [herr]; decide) hds h hend
    refine ⟨_, by rw [exec_writeStr, hrun], ?_⟩
    rw [respondBurst_unbound herr, setInputs_visible, respond_visible (i := .writeStr) _ _ rfl]
    rfl

/-! ### A burst with a failed primitive -/

/-- The block just after the failed completion of `req`, which its line `op` asked for: one event, and the port idle. -/
def afterError (op : Micro) (req : IoReq) (raw : Nat) (s : State) : State :=
  emit (completionEvent op req raw true s) (setIo .idle s)

theorem run_error (hq : s.seq = .busy) (hio : s.io = .outstanding req) (htodo : s.todo = op :: k) (hr : e.rst = false)
    (hv : e.ioRspValid = true) (herr : e.ioRspErr = true) :
    run (e :: es) s = (failIo e.nowMs (afterError op req e.ioRspRaw s)).andThen (run es) := by
  rw [run_busy hq, commandEdge_busy hq hr, busyEdge_outstanding hio, if_pos hv]
  simp only [completePrimitive, htodo, herr, if_true, afterError]

theorem completionEvent_error (op : Micro) (req : IoReq) (raw : Nat) (s : State) :
    completionEvent op req raw true s = .wrote req.dev req.mask true ∨
      ∃ l, completionEvent op req raw true s = .sampled req.dev req.mask l none := by
  unfold completionEvent
  cases req.write with
  | true => exact Or.inl rfl
  | false => exact Or.inr ⟨op.readsLine, rfl⟩

theorem failIo_writeBytes {n : Byte} (h : s.cmd = some (.writeBytes n)) :
    failIo now s = advance now [.countedBeat] (markDraining s) := by
  rw [failIo, h]

theorem failIo_writeStr (h : s.cmd = some .writeStr) : failIo now s = advance now [.textBeat] (markDraining s) := by
  rw [failIo, h]

/-- The response of a burst with a failed primitive: `IOERR` with the ACKs counted before (60_exceptions.md R300). -/
theorem respondBurst_afterError {raw : Nat} (hcmd : s.cmd = some i) :
    (respondBurst (markDraining (afterError op req raw s))).visible = State.visible { s with
      trace := s.trace ++ [completionEvent op req raw true s],
      rspData := i.opcode ++ 2#4 ++ s.ackcnt.zeroExtend 24, seq := .resp, io := .idle, cmd := none, todo := [] } := by
  rw [respondBurst_other (by rw [markDraining_err]; decide)]
  exact respond_visible .ioerr (ackCountPayload s.ackcnt) (s := markDraining (afterError op req raw s)) hcmd

/-- Settles O39: the failed primitive leaves its event, and the burst drains the beats of its count. -/
theorem failedBurstDrainsItsBeats : Obligations.FailedBurstDrainsItsBeats := by
  intro s e es rest req op k n ds hq hio htodo hcmd hr hv herr h
  obtain ⟨t, hrun, ht⟩ := runFrom_countedBeat_drain (now := e.nowMs)
    (s := markDraining (afterError op req e.ioRspRaw s)) hq
    (by rw [markDraining_err]; decide) h
  refine ⟨t, _, completionEvent_error op req e.ioRspRaw s, ?_, ?_⟩
  · rw [run_error hq hio htodo hr hv herr, failIo_writeBytes (s := afterError op req e.ioRspRaw s) hcmd]
    exact hrun
  · rw [ht, setInputs_visible, respondBurst_afterError hcmd]
    rfl

/-- Settles O40: the failed primitive leaves its event, and the burst drains its text up to the terminator. -/
theorem failedTextDrainsToTheTerminator : Obligations.FailedTextDrainsToTheTerminator := by
  intro s e es es1 rest req op k n ds hq hio htodo hcmd hr hv herr h hds hend
  have hrun := runFrom_textBeat_drain (now := e.nowMs) (s := markDraining (afterError op req e.ioRspRaw s)) hq
    (by rw [markDraining_err]; decide) hds h hend
  refine ⟨setInputs rest (respondBurst (markDraining (afterError op req e.ioRspRaw s))), _,
    completionEvent_error op req e.ioRspRaw s, ?_, ?_⟩
  · rw [run_error hq hio htodo hr hv herr, failIo_writeStr (s := afterError op req e.ioRspRaw s) hcmd]
    exact hrun
  · rw [setInputs_visible, respondBurst_afterError hcmd]
    rfl

end Sys2Proof.Machine
end

section
/-!
PROOFS. The session and the line driver (40_session_line_driver.md): the line mask and elapsed time (R143, R148), the settle
wait (R149), `BEGIN` (R150, R151), what the lines do not depend on (R153), and whose primitives a command emits (R144, R147).
-/

namespace Sys2Proof.Machine

variable {ops : List Micro} {e : Edge} {s t u : State} {i : Instr}

/-! ### The line mask -/

theorem maskOf_lt (w other : Nat) (p q : Pin) (a b : Bool) : maskOf w other p q a b < 2 ^ w :=
  BitVec.isLt _

/-- The formula of R143, bit by bit. -/
theorem maskOf_testBit {w j : Nat} (hj : j < w) (other : Nat) (p q : Pin) (a b : Bool) :
    (maskOf w other p q a b).testBit j =
      (other.testBit j && !(decide (j = p.toNat) || decide (j = q.toNat)) || decide (j = p.toNat) && a ||
        decide (j = q.toNat) && b) := by
  rw [maskOf, BitVec.testBit_toNat]
  simp only [BitVec.getLsbD_or, BitVec.getLsbD_and, BitVec.getLsbD_not, portBit_getLsbD, BitVec.getLsbD_ofNat, hj,
    decide_true, Bool.true_and, Bool.and_true]

/-- Settles O7: at its pin a drive bit is all that the formula leaves, and elsewhere only `OTHER_BITS` is. -/
theorem lineMaskCarriesBothDriveBits : Obligations.LineMaskCarriesBothDriveBits := by
  intro w other p q a b
  refine ⟨maskOf_lt w other p q a b, fun j hj => ?_⟩
  rw [maskOf_testBit hj]
  split
  next hpin =>
    have hcleared : (decide (j = p.toNat) || decide (j = q.toNat)) = true := by simpa using hpin
    rw [hcleared, Bool.not_true, Bool.and_false, Bool.false_or]
  next hother =>
    obtain ⟨hp, hq⟩ := not_or.mp hother
    simp [hp, hq]

/-! ### Time -/

/-- Settles O8: the model adds `2^TIME_W` before it subtracts, which the modulus takes away again. -/
theorem elapsedTimeIsModular : Obligations.ElapsedTimeIsModular := by
  intro c later earlier
  have hle : earlier % 2 ^ c.timeW ≤ 2 ^ c.timeW := (Nat.mod_lt _ (Nat.two_pow_pos _)).le
  rw [elapsed]
  generalize 2 ^ c.timeW = M at hle ⊢
  calc (((later % M + (M - earlier % M)) % M : Nat) : Int)
      = ((later : Int) % M + (M - (earlier : Int) % M)) % M := by push_cast [Nat.cast_sub hle]; rfl
    _ = ((later : Int) % M - (earlier : Int) % M + M) % M := by rw [sub_add_eq_add_sub, add_sub_assoc]
    _ = ((later : Int) - earlier) % M := by rw [Int.add_emod_right, ← Int.sub_emod]

/-- A clock value may be read modulo `2^TIME_W` or not (R148). -/
theorem elapsed_nowOf (c : Config) (nowMs earlier : Nat) :
    elapsed c (nowOf c nowMs) earlier = elapsed c nowMs earlier := by
  rw [elapsed, nowOf, Nat.mod_mod, elapsed]

theorem settleEdge_settle {k : List Micro} (htodo : s.todo = .settle :: k) : settleEdge e s =
    if s.cfg.tSettle ≤ elapsed s.cfg e.nowMs s.t1 then advance e.nowMs k s else .next s := by
  simp only [settleEdge, htodo, elapsed_nowOf]

/-- Settles O43: with nothing on the port an edge is `settleEdge`, which tests the time that has passed. -/
theorem settleWait : Obligations.SettleWait := by
  intro s e k hq hio htodo hr
  have hedge : commandEdge e s = settleEdge e s := by rw [commandEdge_busy hq hr, busyEdge, hio]
  rw [hedge, settleEdge_settle htodo]
  exact ⟨fun hlt => if_neg (Nat.not_le.mpr hlt), fun hle => if_pos hle⟩

/-! ### `BEGIN` -/

/-- Settles O20: with one pin twice `BEGIN` fails before it binds, and `fail` only responds. -/
theorem beginWithOnePinIsRefused : Obligations.BeginWithOnePinIsRefused := by
  intro s dev pin
  refine ⟨fail .badcfg 0#24 (accept (.beginSession dev pin pin) s), if_pos rfl, ?_⟩
  rw [fail, respond_visible (i := .beginSession dev pin pin) _ _ rfl]
  rfl

/-- The block with the new binding, its one write still to come (R150). -/
def begun (dev : Byte) (sda scl : Pin) (s : State) : State :=
  setSeq .busy (bindSession dev sda scl (accept (.beginSession dev sda scl) s))

theorem exec_beginSession (dev : Byte) {sda scl : Pin} (hne : sda ≠ scl) (s : State) :
    exec (.beginSession dev sda scl) s = runFrom 0 [.writeLines, .respond .zero] s.inputs (begun dev sda scl s) := by
  rw [exec, execBegin, if_neg hne]
  rfl

/-- Settles O18: the one write is served and leaves its event, and the program responds. -/
theorem beginBindsTheSession : Obligations.BeginBindsTheSession := by
  intro s dev sda scl cs rest hne h
  obtain ⟨e, es1, ds, hserve, herr, hnone, -⟩ := serveOk_succ h
  obtain ⟨-, rfl⟩ := serveOk_zero hnone
  refine ⟨_, by rw [exec_beginSession dev hne, runFrom_writeLines (s := begun dev sda scl s) rfl rfl hserve herr,
    runFrom_respond], ?_⟩
  rw [setInputs_visible, respond_visible (i := .beginSession dev sda scl) _ _ rfl]
  rfl

/-- A failed primitive of `BEGIN` ends it where it stands, with nothing rolled back (60_exceptions.md R304). -/
theorem failIo_beginSession {now : Nat} {dev : Byte} {sda scl : Pin} (h : s.cmd = some (.beginSession dev sda scl)) :
    failIo now s = .next (respond .ioerr 0#24 s) := by
  rw [failIo, h]
  rfl

/-- Settles O19: the one write fails after the binding is stored, and the command ends there. -/
theorem beginKeepsItsBindingOnError : Obligations.BeginKeepsItsBindingOnError := by
  intro s dev sda scl e rest hne hserve herr
  have hfail := runFrom_writeError (now := 0) (op := .writeLines) (k := [.respond .zero]) (s := begun dev sda scl s) rfl
    rfl rfl hserve herr
  rw [failIo_beginSession (dev := dev) (sda := sda) (scl := scl) rfl, andThen_next, run_rest (Or.inr rfl)] at hfail
  refine ⟨_, by rw [exec_beginSession dev hne, hfail], ?_⟩
  rw [setInputs_visible, respond_visible (i := .beginSession dev sda scl) _ _ rfl]
  rfl

/-! ### The lines and the bus phase -/

theorem map_eq_next {f : State → State} {r : Result} : r.map f = .next t ↔ ∃ u, r = .next u ∧ f u = t := by
  cases r <;> simp

theorem andThen_map {k : State → Result} (r : Result) (f : State → State)
    (hk : ∀ x, (k (f x)).map f = (k x).map f) : ((r.map f).andThen k).map f = (r.andThen k).map f := by
  cases r with
  | next x => exact hk x
  | fault _ => rfl
  | refused _ => rfl

theorem runProgram_blankPhase (ops : List Micro) (s : State) :
    (runProgram ops (blankPhase s)).map blankPhase = (runProgram ops s).map blankPhase := by
  have hadv : (advance 0 ops (setSeq .busy (blankPhase s))).map blankPhase =
      (advance 0 ops (setSeq .busy s)).map blankPhase := advance_ofBlank rfl
  have hrun (r : Result) := andThen_map (k := run s.inputs) r blankPhase (fun _ => run_blankPhase)
  calc (runProgram ops (blankPhase s)).map blankPhase
      = (((advance 0 ops (setSeq .busy (blankPhase s))).map blankPhase).andThen (run s.inputs)).map blankPhase :=
        (hrun _).symm
    _ = (((advance 0 ops (setSeq .busy s)).map blankPhase).andThen (run s.inputs)).map blankPhase := by rw [hadv]
    _ = (runProgram ops s).map blankPhase := hrun _

theorem requireBound_blankPhase {k : State → Result} (hk : (k (blankPhase s)).map blankPhase = (k s).map blankPhase) :
    (requireBound (blankPhase s) k).map blankPhase = (requireBound s k).map blankPhase := by
  have hbound : (blankPhase s).bound = s.bound := rfl
  unfold requireBound
  rw [hbound]
  split
  · exact hk
  · rfl

theorem execBegin_blankPhase (dev : Byte) (sda scl : Pin) (s : State) :
    (execBegin dev sda scl (blankPhase s)).map blankPhase = (execBegin dev sda scl s).map blankPhase := by
  by_cases hpins : sda = scl
  · simp only [execBegin, if_pos hpins]
    rfl
  · simp only [execBegin, if_neg hpins]
    exact runProgram_blankPhase _ (bindSession dev sda scl (accept (.beginSession dev sda scl) s))

theorem execRequestFrom_blankPhase (addr : SlaveAddr) (qty : Byte) (s : State) :
    (execRequestFrom addr qty (blankPhase s)).map blankPhase = (execRequestFrom addr qty s).map blankPhase := by
  refine requireBound_blankPhase (s := accept (.requestFrom addr qty) s) ?_
  have hfree : freeSpace (blankPhase (accept (.requestFrom addr qty) s)) = freeSpace (accept (.requestFrom addr qty) s) :=
    rfl
  rw [hfree]
  split
  · rfl
  · exact runProgram_blankPhase _ (openRead (accept (.requestFrom addr qty) s))

theorem execRead_blankPhase (s : State) : (execRead (blankPhase s)).map blankPhase = (execRead s).map blankPhase := by
  have hbuf : (blankPhase s).rxbuf = s.rxbuf := rfl
  simp only [execRead, fifoPop, accept_rxbuf, hbuf]
  cases s.rxbuf <;> rfl

/-- `STATUS` alone shows the two fields, in its response (10_state.md R38). -/
theorem exec_blankPhase (hi : i ≠ .status) (s : State) :
    Result.map blankPhase (exec i (blankPhase s)) = Result.map blankPhase (exec i s) := by
  cases i with
  | beginSession dev sda scl => exact execBegin_blankPhase dev sda scl s
  | beginTx addr dir =>
    exact requireBound_blankPhase (s := accept (.beginTx addr dir) s)
      (runProgram_blankPhase _ (accept (.beginTx addr dir) s))
  | endTx =>
    exact requireBound_blankPhase (s := accept .endTx s) (runProgram_blankPhase _ (accept .endTx s))
  | write v =>
    exact requireBound_blankPhase (s := accept (.write v) s) (runProgram_blankPhase _ (accept (.write v) s))
  | writeBytes n => exact runProgram_blankPhase [.countedBeat] (setRemaining n (openBurst (accept (.writeBytes n) s)))
  | writeStr => exact runProgram_blankPhase [.textBeat] (openBurst (accept .writeStr s))
  | requestFrom addr qty => exact execRequestFrom_blankPhase addr qty s
  | available => rfl
  | read => exact execRead_blankPhase s
  | status => exact absurd rfl hi

theorem exec_ofBlank (hi : i ≠ .status) (h : blankPhase u = blankPhase s) :
    Result.map blankPhase (exec i u) = Result.map blankPhase (exec i s) := by
  rw [← exec_blankPhase hi u, h, exec_blankPhase hi s]

/-- Settles O48: `STATUS` leaves the lines alone, and the next states of any other command differ in the two fields alone. -/
theorem linesDoNotDependOnTheBusPhase : Obligations.LinesDoNotDependOnTheBusPhase := by
  intro i s t x y h
  by_cases hi : i = .status
  · subst hi
    cases h
    exact ⟨_, rfl, rfl, rfl, rfl, rfl, rfl, rfl⟩
  · have hblank := exec_ofBlank hi (s := s) (u := { s with busActive := x, lastDir := y }) rfl
    rw [h, map_next] at hblank
    obtain ⟨t', hexec, ht'⟩ := map_eq_next.mp hblank
    refine ⟨t', hexec, ?_⟩
    exact ⟨congrArg (·.trace) ht', congrArg (·.sdaDrv) ht', congrArg (·.sclDrv) ht', congrArg (·.seq) ht',
      congrArg (·.io) ht', congrArg (·.inputs) ht'⟩

/-! ### Whose primitives a command emits -/

/-- A write of the line mask of some drive bits on the session's pins, or a read of one line, on the session's device. -/
def OfSession (s : State) (ev : Event) : Prop :=
  (∃ sda scl err, ev = .wrote s.dev (maskOf s.cfg.portW s.cfg.otherBits s.sdaPin s.sclPin sda scl) err) ∨
    ∃ l level, ev = .sampled s.dev (pinSelect s.cfg.portW (s.pin l)) l level

/-- The events of `t` beyond those of `s` are primitives of the session of `t`. -/
def EmitsOfSession (s t : State) : Prop := ∀ ev ∈ newEvents s t, OfSession t ev

/-- No program writes the session. -/
theorem Ran.ofSession {ev : Event} (h : Ran ops s t) (hev : OfSession s ev) : OfSession t ev := by
  have hpin (l : Line) : t.pin l = s.pin l := by cases l; exacts [h.sdaPin, h.sclPin]
  simpa only [OfSession, h.cfg, h.dev, h.sdaPin, h.sclPin, hpin] using hev

theorem emitsOfSession_of_trace (h : t.trace = s.trace) : EmitsOfSession s t := by
  rw [EmitsOfSession, newEvents_of_append (evs := []) (by rw [h, List.append_nil])]
  exact fun _ hev => absurd hev List.not_mem_nil

theorem beginSession_isProgram (c : Config) (dev : Byte) (sda scl : Pin) :
    isProgram (.beginSession dev sda scl) (programOf c (.beginSession dev sda scl)) :=
  isProgram_append (front := [.writeLines]) (by simp [Micro.goesOn]) (isProgram_single rfl)

theorem beginTx_isProgram (c : Config) (addr : SlaveAddr) (dir : Bool) :
    isProgram (.beginTx addr dir) (programOf c (.beginTx addr dir)) := by
  simp only [programOf, List.append_assoc]
  exact isProgram_append startOps_goesOn (isProgram_append (front := [.started dir]) (by simp [Micro.goesOn])
    (isProgram_append (byteWriteOps_goesOn _) (isProgram_single rfl)))

theorem endTx_isProgram (c : Config) : isProgram .endTx (programOf c .endTx) :=
  isProgram_append stopOps_goesOn
    (isProgram_append (front := [.stopped]) (by simp [Micro.goesOn]) (isProgram_single rfl))

theorem write_isProgram (c : Config) (v : Byte) : isProgram (.write v) (programOf c (.write v)) :=
  isProgram_append (byteWriteOps_goesOn v) (isProgram_single rfl)

/-- The program of the command `i`, started in `u` where no event has been left since `s`. -/
theorem runProgram_emitsOfSession (hu : Entered i s u) (htrace : u.trace = s.trace) (hprog : isProgram i ops)
    (hn : noReset s.inputs) (h : runProgram ops u = .next t) : EmitsOfSession s t := by
  have hnu : noReset u.inputs := by rw [hu.inputs]; exact hn
  obtain ⟨evs, hevs, hall⟩ := runProgram_events (P := OfSession u) hnu h hu.cmd hprog hu.io
    (fun sda scl err => Or.inl ⟨sda, scl, err, rfl⟩) (fun l level => Or.inr ⟨l, level, rfl⟩)
  rw [EmitsOfSession, newEvents_of_append (evs := evs) (by rw [hevs, htrace])]
  exact fun ev hev => (runProgram_frame hnu h).ofSession (hall ev hev)

theorem requireBound_emitsOfSession {k : State → Result} (htrace : u.trace = s.trace)
    (hk : k u = .next t → EmitsOfSession s t) (h : requireBound u k = .next t) : EmitsOfSession s t := by
  unfold requireBound at h
  split at h
  · exact hk h
  · cases h
    exact emitsOfSession_of_trace htrace

theorem execBegin_emitsOfSession {dev : Byte} {sda scl : Pin} (hn : noReset s.inputs)
    (h : execBegin dev sda scl s = .next t) : EmitsOfSession s t := by
  simp only [execBegin] at h
  split at h
  · cases h
    exact emitsOfSession_of_trace rfl
  next hne =>
    exact runProgram_emitsOfSession (bindSession_entered hne) rfl (beginSession_isProgram s.cfg dev sda scl) hn h

/-- A command that only asks for a session before it runs its program. -/
theorem requireBound_runProgram_emitsOfSession (hn : noReset s.inputs) (hprog : isProgram i (programOf s.cfg i))
    (h : requireBound (accept i s) (runProgram (programOf s.cfg i)) = .next t) : EmitsOfSession s t :=
  requireBound_emitsOfSession (u := accept i s) rfl (runProgram_emitsOfSession (accept_entered i s) rfl hprog hn) h

theorem execRequestFrom_emitsOfSession {addr : SlaveAddr} {qty : Byte} (hn : noReset s.inputs)
    (h : execRequestFrom addr qty s = .next t) : EmitsOfSession s t := by
  refine requireBound_emitsOfSession (u := accept (.requestFrom addr qty) s) rfl (fun hk => ?_) h
  split at hk
  · cases hk
    exact emitsOfSession_of_trace rfl
  · exact runProgram_emitsOfSession (accept_entered _ s).openRead rfl (requestFrom_isProgram s.cfg addr qty) hn hk

theorem execRead_trace (h : execRead s = .next t) : t.trace = s.trace := by
  simp only [execRead, fifoPop, accept_rxbuf] at h
  cases hbuf : s.rxbuf <;> (simp only [hbuf] at h; cases h; rfl)

theorem exec_emitsOfSession (hn : noReset s.inputs) (h : exec i s = .next t) : EmitsOfSession s t := by
  cases i with
  | beginSession dev sda scl => exact execBegin_emitsOfSession hn h
  | beginTx addr dir => exact requireBound_runProgram_emitsOfSession hn (beginTx_isProgram s.cfg addr dir) h
  | endTx => exact requireBound_runProgram_emitsOfSession hn (endTx_isProgram s.cfg) h
  | write v => exact requireBound_runProgram_emitsOfSession hn (write_isProgram s.cfg v) h
  | writeBytes n =>
    exact runProgram_emitsOfSession (ops := [.countedBeat]) ((accept_entered _ s).openBurst.setRemaining n) rfl
      (isProgram_single rfl) hn h
  | writeStr =>
    exact runProgram_emitsOfSession (ops := [.textBeat]) (accept_entered .writeStr s).openBurst rfl
      (isProgram_single rfl) hn h
  | requestFrom addr qty => exact execRequestFrom_emitsOfSession hn h
  | available =>
    cases h
    exact emitsOfSession_of_trace rfl
  | read => exact emitsOfSession_of_trace (execRead_trace h)
  | status =>
    cases h
    exact emitsOfSession_of_trace rfl

/-- Settles O49: a command leaves no event before its program starts, and each event of the program is the completion of the
primitive that a line asked for with the session's pins. -/
theorem everyPrimitiveIsOfTheSession : Obligations.EveryPrimitiveIsOfTheSession :=
  fun _ _ _ hn h => exec_emitsOfSession hn h

end Sys2Proof.Machine
end

section
/-!
PROOFS. The bit engine (41_bit_engine.md): a poll of SCL (R184), the traces of `BEGIN_TX`, `END_TX`, `WRITE` and `REQUEST_FROM`
(R181 to R188, 42_frame_layer.md R220 to R239), and the conditions and bits that a receiver sees in them (R191, R193).
-/

namespace Sys2Proof.Machine

variable {now : Nat} {ops k : List Micro} {es rest cs : List Edge} {e : Edge} {s t : State} {i : Instr} {req : IoReq}

/-! ### A poll of SCL -/

/-- The block just after the successful completion of a poll of SCL that read `level`: one event, and the port idle. -/
def polled (req : IoReq) (level : Bool) (s : State) : State :=
  emit (.sampled req.dev req.mask .scl (some level)) (setIo .idle s)

theorem commandEdge_poll (hq : s.seq = .busy) (hio : s.io = .outstanding req) (htodo : s.todo = .pollScl :: k)
    (hread : req.write = false) (hr : e.rst = false) (hv : e.ioRspValid = true) (herr : e.ioRspErr = false) :
    commandEdge e s = afterPoll e.nowMs (e.ioRspRaw.testBit s.sclPin.toNat) k
      (polled req (e.ioRspRaw.testBit s.sclPin.toNat) s) := by
  rw [commandEdge_busy hq hr, busyEdge_outstanding hio, if_pos hv]
  simp only [completePrimitive, htodo, herr, Bool.false_eq_true, if_false, completionEvent, hread]
  rfl

theorem afterPoll_high : afterPoll now true k s = advance now k s :=
  rfl

theorem afterPoll_low : afterPoll now false k s =
    if s.cfg.tStretch < elapsed s.cfg now s.t0 then .next (fail .timeout (countPayload s.addrAck s.bytecnt) s)
    else .next (issueRead .scl (setTodo (.pollScl :: k) s)) := by
  simp only [afterPoll, Bool.false_eq_true, if_false, elapsed_nowOf, advance]

/-- Settles O42: the completion of a poll is `afterPoll`, which tests the level before it tests the time. -/
theorem stretchDeadline : Obligations.StretchDeadline := by
  intro s e req k i hq hio htodo hread hcmd hr hv herr
  rw [commandEdge_poll hq hio htodo hread hr hv herr]
  refine ⟨fun hhigh => ?_, fun hlow hpast => ?_, fun hlow hwithin => ?_⟩
  · rw [hhigh, afterPoll_high]
    rfl
  · have hop : cmdOp (polled req false s) = i.opcode := cmdOp_of_cmd hcmd
    rw [hlow, afterPoll_low]
    exact (if_pos hpast).trans (by rw [fail, respond, hop]; rfl)
  · refine ⟨(issueRead .scl s).io, ?_, ?_⟩
    · rw [hlow, afterPoll_low, ← htodo]
      exact if_neg (Nat.not_lt.mpr hwithin)
    · rw [issueRead_eq, issue_io]
      exact ite_eq_or_eq _ _ _

/-! ### A command from its first line to its response -/

/-- The command `i` accepted, with every line of its program still to come. -/
def underway (i : Instr) (s : State) : State := setSeq .busy (accept i s)

theorem requireBound_of_bound {k : State → Result} (hb : s.bound = true) : requireBound s k = k s :=
  if_pos hb

/-- With a session the program runs, from the drive bits the command finds (30_encoding.md R118). -/
theorem requireBound_runProgram (hb : s.bound = true) : requireBound (accept i s) (runProgram ops) =
    runFrom 0 ops s.inputs (onLines s.sdaDrv s.sclDrv [] (underway i s)) :=
  (requireBound_of_bound (s := accept i s) hb).trans
    (congrArg (runFrom 0 ops s.inputs) (onLines_self (underway i s)).symm)

/-- A run that comes to its response: besides the lines and the trace, the response alone is visible (30_encoding.md R115). -/
theorem responds_visible {a b r : Bool} {evs : List Event} {v : Byte} {j : BitVec 4} {x y : Nat} {p : PayloadKind}
    {result : Result} (hcmd : s.cmd = some i)
    (hrun : result = runFrom now [.respond p] rest (onLines a b evs (work v j x y r s))) :
    ∃ t, result = .next t ∧ t.visible = State.visible { s with
      sdaDrv := a, sclDrv := b, trace := s.trace ++ evs, inputs := rest,
      rspData := i.opcode ++ 0#4 ++ okPayload (setRetval r s) p, seq := .resp, io := .idle, cmd := none, todo := [] } := by
  refine ⟨_, hrun.trans runFrom_respond, ?_⟩
  rw [setInputs_visible, respond_visible (s := onLines a b evs (work v j x y r s)) .ok _ hcmd]
  cases p <;> rfl

/-- The line `S.bus_active <- 1` (42_frame_layer.md R220). -/
theorem runFrom_started {a b : Bool} {evs : List Event} (dir : Bool) :
    runFrom now (.started dir :: k) es (onLines a b evs s) = runFrom now k es (onLines a b evs (markStarted dir s)) :=
  rfl

/-- The line `S.bus_active <- 0` (42_frame_layer.md R222). -/
theorem runFrom_stopped {a b : Bool} {evs : List Event} :
    runFrom now (.stopped :: k) es (onLines a b evs s) = runFrom now k es (onLines a b evs (markStopped s)) :=
  rfl

/-- `ByteWrite` writes the working registers, the lines and the trace (R187). -/
theorem runFrom_byteWrite_work {a b : Bool} {evs : List Event} {v : Byte} (hq : s.seq = .busy) (hio : s.io = .idle)
    (h : serveOk s.cfg.tGap 29 es = some (cs, rest)) :
    ∃ now', runFrom now (byteWriteOps v ++ k) es (onLines a b evs s) =
      runFrom now' k rest (onLines false false (evs ++ byteWriteEvents s b v (ackOf cs s.sdaPin))
        (work v 8#4 s.t0 s.t1 (ackOf cs s.sdaPin) s)) :=
  runFrom_byteWrite hq hio h

/-! ### `END_TX`, `WRITE` and `BEGIN_TX` -/

/-- Settles O24: `Stop`, `bus_active`, the response. -/
theorem endTxSendsStop : Obligations.EndTxSendsStop := by
  intro s cs rest hb h
  obtain ⟨now, hstop⟩ := runFrom_stop (now := 0) (s := underway .endTx s) (k := [.stopped, .respond .zero])
    (a := s.sdaDrv) (b := s.sclDrv) (evs := []) rfl rfl h
  rw [runFrom_stopped, ← work_self (markStopped _)] at hstop
  obtain ⟨t, hrun, ht⟩ := responds_visible (i := .endTx) rfl hstop
  exact ⟨t, (requireBound_runProgram hb).trans hrun, ht⟩

/-- Settles O25: `ByteWrite`, the response. -/
theorem writeSendsTheByte : Obligations.WriteSendsTheByte := by
  intro s v cs rest hb h
  obtain ⟨now, hbyte⟩ := runFrom_byteWrite_work (now := 0) (s := underway (.write v) s) (k := [.respond .ack])
    (a := s.sdaDrv) (b := s.sclDrv) (evs := []) (v := v) rfl rfl h
  obtain ⟨t, hrun, ht⟩ := responds_visible (i := .write v) rfl hbyte
  exact ⟨t, (requireBound_runProgram hb).trans hrun, ht⟩

theorem exec_beginTx (addr : SlaveAddr) (dir : Bool) (hb : s.bound = true) : exec (.beginTx addr dir) s =
    runFrom 0 (startOps ++ .started dir :: (byteWriteOps (addressByte addr dir) ++ [.respond .ack])) s.inputs
      (onLines s.sdaDrv s.sclDrv [] (underway (.beginTx addr dir) s)) := by
  have hprog : programOf s.cfg (.beginTx addr dir) =
      startOps ++ .started dir :: (byteWriteOps (addressByte addr dir) ++ [.respond .ack]) := by
    rw [programOf, List.append_assoc, List.append_assoc, List.singleton_append]
  rw [← hprog]
  exact requireBound_runProgram hb

/-- Settles O23: `Start`, the bus phase, the `ByteWrite` of the address byte, the response. -/
theorem beginTxSendsStartAndAddress : Obligations.BeginTxSendsStartAndAddress := by
  intro s addr dir c1 cs mid rest hb h1 h2
  obtain ⟨now1, hstart⟩ := runFrom_start (now := 0) (s := underway (.beginTx addr dir) s)
    (k := .started dir :: (byteWriteOps (addressByte addr dir) ++ [.respond .ack])) (a := s.sdaDrv) (b := s.sclDrv)
    (evs := []) rfl rfl h1
  obtain ⟨now2, hbyte⟩ := runFrom_byteWrite_work (now := now1) (s := markStarted dir (underway (.beginTx addr dir) s))
    (k := [.respond .ack]) (a := false) (b := false) (evs := writeEvents s (startLevels s.sclDrv))
    (v := addressByte addr dir) rfl rfl h2
  rw [runFrom_started] at hstart
  obtain ⟨t, hrun, ht⟩ := responds_visible (i := .beginTx addr dir) rfl (hstart.trans hbyte)
  refine ⟨t, (exec_beginTx addr dir hb).trans hrun, ?_⟩
  rw [List.append_assoc]
  exact ht

/-! ### `REQUEST_FROM` -/

/-- `REQUEST_FROM` accepted, with its registers set and every line of its program still to come (R232). -/
def underwayRead (addr : SlaveAddr) (qty : Byte) (s : State) : State :=
  setSeq .busy (openRead (accept (.requestFrom addr qty) s))

/-- The events of `Start` and of the address byte of `REQUEST_FROM`, acknowledged with `ack` (R232). -/
def requestEvents (addr : SlaveAddr) (ack : Bool) (s : State) : List Event :=
  writeEvents s (startLevels s.sclDrv) ++ byteWriteEvents s false (addressByte addr true) ack

/-- `REQUEST_FROM` with its address byte out and its bytes still to come (R232). -/
theorem exec_requestFrom {addr : SlaveAddr} {qty : Byte} {c1 m1 : List Edge} (hb : s.bound = true)
    (hroom : qty.toNat ≤ s.cfg.rxcap - s.rxbuf.length) (h1 : serveOk s.cfg.tGap 4 s.inputs = some (c1, m1))
    (h2 : serveOk s.cfg.tGap 29 m1 = some (cs, rest)) :
    ∃ now, exec (.requestFrom addr qty) s = runFrom now (readBytesOps s.cfg qty.toNat ++ [.respond .count]) rest
      (onLines false false (requestEvents addr (ackOf cs s.sdaPin) s)
        (addressed addr (ackOf cs s.sdaPin) (underwayRead addr qty s))) := by
  obtain ⟨now, h⟩ := runFrom_request (now := 0) (addr := addr) (k := readBytesOps s.cfg qty.toNat ++ [.respond .count])
    (s := underwayRead addr qty s) rfl rfl h1 h2
  exact ⟨now, (execRequestFrom_ok hb hroom).trans h⟩

/-- With bytes asked for, SDA ends where the last `MasterAck` left it (R238). -/
theorem sdaDrv_after_bytes {qty : Byte} {nss : List (List Nat)} (hlen : nss.length = qty.toNat) (nackLast : Bool) :
    (if nss = [] then false else nackLast && decide (nss.length = qty.toNat)) = (nackLast && decide (qty ≠ 0#8)) := by
  have hnone : nss = [] ↔ qty = 0#8 := by rw [← List.length_eq_zero_iff, hlen, BitVec.toNat_eq, BitVec.toNat_ofNat]
  by_cases hq : qty = 0#8
  · rw [if_pos (hnone.mpr hq), hq]
    exact (Bool.and_false nackLast).symm
  · rw [if_neg (mt hnone.mp hq), decide_eq_true hlen, decide_eq_true hq]

/-- The block after the bytes `ds` of a `REQUEST_FROM` whose address byte was acknowledged with `ack`, written out (R232). -/
theorem received_addressed (addr : SlaveAddr) (qty : Byte) (ack : Bool) (ds : List Byte) (n : BitVec 8) (s : State) :
    received ds n (addressed addr ack (underwayRead addr qty s)) = { s with
      busActive := true, lastDir := true, rxbuf := s.rxbuf ++ ds, bytecnt := n, addrAck := ack, retval := ack,
      shreg := addressByte addr true, bitcnt := 8#4, seq := .busy, io := .idle, cmd := some (.requestFrom addr qty),
      todo := [] } := by
  simp only [received, addressed, latchAddrAck, setRetval, setShift, markStarted, underwayRead, setSeq, openRead, accept]

theorem bytesEvents_underwayRead (addr : SlaveAddr) (qty : Byte) (s : State) :
    bytesEvents (underwayRead addr qty s) = bytesEvents s :=
  (bytesEvents_congr (s := s) (u := underwayRead addr qty s) rfl rfl rfl rfl).1

theorem bitsEvents_underwayRead (addr : SlaveAddr) (qty : Byte) (s : State) :
    bitsEvents (underwayRead addr qty s) = bitsEvents s :=
  (bytesEvents_congr (s := s) (u := underwayRead addr qty s) rfl rfl rfl rfl).2

/-- Settles O29: the address byte, the byte loop of all `qty` bytes, the response. -/
theorem requestFromReadsEveryByte : Obligations.RequestFromReadsEveryByte := by
  intro s addr qty c1 cs m1 m2 rest nss bss hb hroom hlen h1 h2 h3
  obtain ⟨now1, haddr⟩ := exec_requestFrom (addr := addr) hb hroom h1 h2
  obtain ⟨now2, v, j, x, y, r, hbytes⟩ := runFrom_addressedBytes (now := now1) (addr := addr) (ack := ackOf cs s.sdaPin)
    (s := underwayRead addr qty s) (k := [.respond .count]) (a := false)
    (evs := requestEvents addr (ackOf cs s.sdaPin) s) rfl rfl hlen.le rfl (hlen.trans_le hroom) h3
  have hdone : readBytesOps (underwayRead addr qty s).cfg (qty.toNat - nss.length) = [] := by
    rw [hlen, Nat.sub_self, readBytesOps]
  have hcount : BitVec.ofNat 8 nss.length = qty := by rw [hlen, BitVec.ofNat_toNat, BitVec.setWidth_eq]
  rw [hdone, hcount, bytesEvents_underwayRead, sdaDrv_after_bytes hlen, List.nil_append, received_addressed] at hbytes
  obtain ⟨t, hrun, ht⟩ := responds_visible (i := .requestFrom addr qty) rfl hbytes
  refine ⟨t, haddr.trans hrun, ?_⟩
  rw [requestEvents, ← List.append_assoc, ← List.append_assoc] at ht
  exact ht

/-- Settles O30: the address byte, the whole bytes, and the bit-read that ends the command. -/
theorem requestFromTimesOut : Obligations.RequestFromTimesOut := by
  intro s addr qty c1 cs ws m1 m2 m3 m4 m5 m6 rest nss bss ns bs n w e hb hroom hm hn h1 h2 h3 h4 h5 hw h6 h7 he hl ht
  obtain ⟨now, haddr⟩ := exec_requestFrom (addr := addr) hb hroom h1 h2
  obtain ⟨v, j, x, y, r, htimeout⟩ := runFrom_readTimeout (now := now) (addr := addr) (ack := ackOf cs s.sdaPin)
    (s := underwayRead addr qty s) (k := [.respond .count]) (a := false)
    (evs := requestEvents addr (ackOf cs s.sdaPin) s) rfl rfl hm rfl hroom hn h3 h4 h5 hw h6 h7 he hl ht
  rw [fail, run_rest (Or.inr rfl), bytesEvents_underwayRead, bitsEvents_underwayRead, received_addressed] at htimeout
  refine ⟨_, haddr.trans htimeout, ?_⟩
  rw [setInputs_visible, respond_visible (i := .requestFrom addr qty) .timeout _ rfl]
  simp only [onLines, work, requestEvents, ← List.append_assoc]
  rfl

/-! ### What a receiver sees -/

theorem maskOf_testBit_sda {w : Nat} {p q : Pin} (hne : p ≠ q) (hp : p.toNat < w) (other : Nat) (a b : Bool) :
    (maskOf w other p q a b).testBit p.toNat = a := by
  have hpq : p.toNat ≠ q.toNat := fun h => hne (BitVec.eq_of_toNat_eq h)
  simp [maskOf_testBit hp, hpq]

theorem maskOf_testBit_scl {w : Nat} {p q : Pin} (hne : p ≠ q) (hq : q.toNat < w) (other : Nat) (a b : Bool) :
    (maskOf w other p q a b).testBit q.toNat = b := by
  have hqp : q.toNat ≠ p.toNat := fun h => hne (BitVec.eq_of_toNat_eq h.symm)
  simp [maskOf_testBit hq, hqp]

theorem drivesOf_append (p q : Pin) (xs ys : List Event) : drivesOf p q (xs ++ ys) = drivesOf p q xs ++ drivesOf p q ys :=
  List.filterMap_append

/-- The two pins of a session on its port: different, and both on it (10_state.md R33, 20_memory.md R73). -/
structure PinsOnPort (s : State) : Prop where
  ne : s.sdaPin ≠ s.sclPin
  sda : s.sdaPin.toNat < s.cfg.portW
  scl : s.sclPin.toNat < s.cfg.portW

/-- The masks of writes carry the drive bits that were written (R143). -/
theorem drivesOf_writeEvents (h : PinsOnPort s) (levels : List (Bool × Bool)) :
    drivesOf s.sdaPin s.sclPin (writeEvents s levels) = levels := by
  rw [drivesOf, writeEvents, List.filterMap_map]
  refine (List.filterMap_congr fun p _ => ?_).trans List.filterMap_some
  simp only [Function.comp_apply, maskOf_testBit_sda h.ne h.sda, maskOf_testBit_scl h.ne h.scl]

/-- The drive bits of the ACK window of a `ByteWrite` (R185). -/
def ackLevels : List (Bool × Bool) := [(true, false), (true, true), (true, false), (false, false)]

theorem drivesOf_byteWriteEvents (h : PinsOnPort s) (scl0 : Bool) (v : Byte) (a : Bool) :
    drivesOf s.sdaPin s.sclPin (byteWriteEvents s scl0 v a) = byteLevels scl0 v ++ ackLevels := by
  have hread : drivesOf s.sdaPin s.sclPin [readEvent s .sda (!a)] = [] := rfl
  simp only [byteWriteEvents, drivesOf_append, drivesOf_writeEvents h, hread, List.append_assoc]
  rfl

variable {ps : List (Bool × Bool)}

/-- `BitWrite(b)` from SCL low raises SCL once, with `b` on SDA (R183). -/
theorem risingBits_bitWrite (b : Bool) :
    risingBits false (bitWriteLevels false b ++ ps) = b :: risingBits false ps :=
  rfl

/-- `BitWrite` from SCL low moves SDA with SCL low alone (R183). -/
theorem startsIn_bitWrite (d b : Bool) : startsIn (d, false) (bitWriteLevels false b ++ ps) = startsIn (b, false) ps := by
  simp [bitWriteLevels, startsIn]

theorem stopsIn_bitWrite (d b : Bool) : stopsIn (d, false) (bitWriteLevels false b ++ ps) = stopsIn (b, false) ps := by
  simp [bitWriteLevels, stopsIn]

theorem byteLevels_low (v : Byte) : byteLevels false v = (bitsOfByte v).flatMap (bitWriteLevels false) := by
  simp only [byteLevels, bitsOfByte, List.map_cons, List.flatMap_cons, List.map_nil, List.flatMap_nil]

/-- `BitWrite`s one after another from SCL low: their bits are what SCL raises on. -/
theorem risingBits_bitWrites (bs : List Bool) :
    risingBits false (bs.flatMap (bitWriteLevels false) ++ ps) = bs ++ risingBits false ps := by
  induction bs with
  | nil => rfl
  | cons b bs ih => rw [List.flatMap_cons, List.append_assoc, risingBits_bitWrite, ih, List.cons_append]

/-- `BitWrite`s one after another from SCL low make no start condition before the writes that follow them. -/
theorem startsIn_bitWrites (d : Bool) (bs : List Bool) :
    startsIn (d, false) (bs.flatMap (bitWriteLevels false) ++ ps) = startsIn (bs.getLastD d, false) ps := by
  induction bs generalizing d with
  | nil => rfl
  | cons b bs ih => rw [List.flatMap_cons, List.append_assoc, startsIn_bitWrite, ih, List.getLastD_cons]

/-- `BitWrite`s one after another from SCL low make no stop condition before the writes that follow them. -/
theorem stopsIn_bitWrites (d : Bool) (bs : List Bool) :
    stopsIn (d, false) (bs.flatMap (bitWriteLevels false) ++ ps) = stopsIn (bs.getLastD d, false) ps := by
  induction bs generalizing d with
  | nil => rfl
  | cons b bs ih => rw [List.flatMap_cons, List.append_assoc, stopsIn_bitWrite, ih, List.getLastD_cons]

/-- A `ByteWrite` from SCL low makes no start condition (R191). -/
theorem startsIn_byteWrite (d : Bool) (v : Byte) : startsIn (d, false) (byteLevels false v ++ ackLevels) = 0 := by
  rw [byteLevels_low, startsIn_bitWrites]
  simp [ackLevels, startsIn]

/-- A `ByteWrite` from SCL low makes no stop condition (R191). -/
theorem stopsIn_byteWrite (d : Bool) (v : Byte) : stopsIn (d, false) (byteLevels false v ++ ackLevels) = 0 := by
  rw [byteLevels_low, stopsIn_bitWrites]
  simp [ackLevels, stopsIn]

theorem newEvents_of_visible {u : State} {evs : List Event} (h : t.visible = u.visible) (hu : u.trace = s.trace ++ evs) :
    newEvents s t = evs :=
  newEvents_of_append ((congrArg State.trace h).trans hu)

/-- Settles O52: the drive bits of `WRITE v` are the eight `BitWrite`s of `v` and the ACK window. -/
theorem writtenByteIsFramed : Obligations.WrittenByteIsFramed := by
  intro s v cs rest hb hne hsda hscl hlow h
  obtain ⟨t, hrun, ht⟩ := writeSendsTheByte s v cs rest hb h
  have hdrives : drivesOf s.sdaPin s.sclPin (newEvents s t) = byteLevels false v ++ ackLevels := by
    rw [newEvents_of_visible ht rfl, drivesOf_byteWriteEvents ⟨hne, hsda, hscl⟩, hlow]
  refine ⟨t, hrun, ?_, ?_, ?_⟩ <;> rw [hdrives, hlow]
  · rw [byteLevels_low, risingBits_bitWrites]
    rfl
  · exact startsIn_byteWrite s.sdaDrv v
  · exact stopsIn_byteWrite s.sdaDrv v

/-- `Start` makes one start condition, from all four pairs of drive bits (R181). -/
theorem startsIn_start (d c : Bool) : startsIn (d, c) (startLevels c ++ ps) = 1 + startsIn (false, false) ps := by
  cases c <;> simp [startLevels, startsIn]

/-- `Start` makes a stop condition where its first write raises SDA with SCL high (R181; log entry 27). -/
theorem stopsIn_start (d c : Bool) : stopsIn (d, c) (startLevels c ++ ps) =
    (if d = false ∧ c = true then 1 else 0) + stopsIn (false, false) ps := by
  cases d <;> cases c <;> simp [startLevels, stopsIn]

/-- Settles O53: `Start` is the only part of `BEGIN_TX` that moves SDA with SCL high, and `Stop` moves it up once. -/
theorem startAndStopConditions : Obligations.StartAndStopConditions := by
  intro s hb hne hsda hscl
  have hpins : PinsOnPort s := ⟨hne, hsda, hscl⟩
  refine ⟨fun addr dir cs rest h => ?_, fun cs rest hlow h => ?_⟩
  · obtain ⟨c1, c2, mid, h1, h2, -, -⟩ := serveOk_split 4 29 rfl h
    obtain ⟨t, hrun, ht⟩ := beginTxSendsStartAndAddress s addr dir c1 c2 mid rest hb h1 h2
    have hdrives : drivesOf s.sdaPin s.sclPin (newEvents s t) =
        startLevels s.sclDrv ++ (byteLevels false (addr ++ BitVec.ofBool dir) ++ ackLevels) := by
      rw [newEvents_of_visible ht (List.append_assoc ..), drivesOf_append, drivesOf_writeEvents hpins,
        drivesOf_byteWriteEvents hpins]
    refine ⟨t, hrun, ?_, ?_⟩ <;> rw [hdrives]
    · rw [startsIn_start, startsIn_byteWrite]
    · rw [stopsIn_start, stopsIn_byteWrite, Nat.add_zero]
  · obtain ⟨t, hrun, ht⟩ := endTxSendsStop s cs rest hb h
    have hdrives : drivesOf s.sdaPin s.sclPin (newEvents s t) = stopLevels false := by
      rw [newEvents_of_visible ht rfl, drivesOf_writeEvents hpins, hlow]
    refine ⟨t, hrun, ?_, ?_⟩ <;> rw [hdrives, hlow] <;> cases s.sdaDrv <;> rfl

end Sys2Proof.Machine
end

section
/-!
PROOFS. The byte and frame layer (42_frame_layer.md): the block never stops (R236), the bursts (R226 to R228), and what
`REQUEST_FROM` pushes and counts (R236, R240).
-/

namespace Sys2Proof.Machine

variable {now : Nat} {ops k : List Micro} {rest : List Edge} {e : Edge} {s t : State} {i : Instr} {before : List Byte}

/-! ### The block never stops -/

/-- Settles O56: the invariant has room for every byte a command still pushes, and its configuration is legal. -/
theorem theBlockNeverStops : Obligations.TheBlockNeverStops := by
  intro s hs
  obtain ⟨t, hstep, -⟩ := step_inv hs
  exact ⟨t, hstep⟩

/-! ### A burst that is sent -/

/-- A burst accepted, its registers set and no beat taken (R226, R228). `WRITE_STR` does not use the count `n`. -/
def underwayBurst (i : Instr) (n : Byte) (s : State) : State :=
  setSeq .busy (setRemaining n (openBurst (accept i s)))

theorem burstEvents_underwayBurst (n : Byte) (scl0 : Bool) (ds : List (Byte × Bool)) :
    burstEvents (underwayBurst i n s) scl0 ds = burstEvents s scl0 ds := by
  induction ds generalizing scl0 with
  | nil => rfl
  | cons d ds ih =>
    rw [burstEvents, burstEvents, ih, byteWriteEvents_congr (s := s) (u := underwayBurst i n s) rfl rfl rfl rfl]

/-- A burst begins with the lines and the working registers as the command finds them. -/
theorem underwayBurst_at (i : Instr) (n : Byte) (s : State) : onLines s.sdaDrv s.sclDrv []
    (burstRegs n 0#16 (work s.shreg s.bitcnt s.t0 s.t1 s.retval (underwayBurst i n s))) = underwayBurst i n s :=
  work_at (underwayBurst i n s)

theorem exec_writeStr_underway (s : State) :
    exec .writeStr s = runFrom 0 [.textBeat] s.inputs (underwayBurst .writeStr s.remaining s) :=
  exec_writeStr s

theorem underwayBurst_err (hb : s.bound = true) (n : Byte) : (underwayBurst i n s).err = .ok :=
  if_pos hb

/-- A burst that comes to its response without an error: besides the lines and the trace, the response alone is visible, with
the acks counted (R226, R228). -/
theorem respondBurst_sent {a b r : Bool} {evs : List Event} {rem : BitVec 8} {ack : BitVec 16} {v : Byte} {j : BitVec 4}
    {x y : Nat} {result : Result} (hcmd : s.cmd = some i) (herr : s.err = .ok)
    (hrun : result = run rest (respondBurst (onLines a b evs (burstRegs rem ack (work v j x y r s))))) :
    ∃ t, result = .next t ∧ t.visible = State.visible { s with
      sdaDrv := a, sclDrv := b, trace := s.trace ++ evs, inputs := rest,
      rspData := i.opcode ++ 0#4 ++ ack.zeroExtend 24, seq := .resp, io := .idle, cmd := none, todo := [] } := by
  have herr' : (onLines a b evs (burstRegs rem ack (work v j x y r s))).err = .ok := herr
  refine ⟨_, hrun.trans (run_respondBurst _ _), ?_⟩
  rw [setInputs_visible, respondBurst_other (by rw [herr']; decide), herr',
    respond_visible (s := onLines a b evs (burstRegs rem ack (work v j x y r s))) .ok _ hcmd]
  rfl

/-- Settles O26: `n` rounds of the loop take the count to 0, and the loop head then responds. -/
theorem writeBytesCountsTheAcks : Obligations.WriteBytesCountsTheAcks := by
  intro s n ds rest hb h
  obtain ⟨now, v, j, r, hburst⟩ := runFrom_counted (now := 0) (s := underwayBurst (.writeBytes n) n s) (a := s.sdaDrv)
    (b := s.sclDrv) (evs := []) (rem := n) (ack := 0#16) (v := s.shreg) (i := s.bitcnt) (x := s.t0) (y := s.t1)
    (r := s.retval) rfl rfl (underwayBurst_err hb n) (Nat.le_refl _) h
  have hdone : n - BitVec.ofNat 8 n.toNat = 0#8 := by rw [BitVec.ofNat_toNat, BitVec.setWidth_eq, BitVec.sub_self]
  have hnone : n.toNat = 0 ↔ n = 0#8 := by rw [BitVec.toNat_eq, BitVec.toNat_ofNat, Nat.zero_mod]
  simp only [hdone, hnone, BitVec.zero_add, List.nil_append, burstEvents_underwayBurst, underwayBurst_at] at hburst
  obtain ⟨t, hrun, ht⟩ := respondBurst_sent (i := .writeBytes n) rfl (underwayBurst_err hb n)
    (hburst.trans (runFrom_countedEnd rfl))
  exact ⟨t, (exec_writeBytes n s).trans hrun, ht⟩

/-- Settles O27: each byte but the terminator is a round of the loop, and the terminator responds. -/
theorem writeStrSendsUpToTheTerminator : Obligations.WriteStrSendsUpToTheTerminator := by
  intro s n ds es1 rest hb h hds hend
  obtain ⟨now, v, j, r, hburst⟩ := runFrom_text (now := 0) (s := underwayBurst .writeStr s.remaining s) (a := s.sdaDrv)
    (b := s.sclDrv) (evs := []) (rem := s.remaining) (ack := 0#16) (v := s.shreg) (i := s.bitcnt) (x := s.t0) (y := s.t1)
    (r := s.retval) rfl rfl (underwayBurst_err hb _) hds h
  simp only [BitVec.zero_add, List.nil_append, burstEvents_underwayBurst, underwayBurst_at] at hburst
  obtain ⟨t, hrun, ht⟩ := respondBurst_sent (i := .writeStr) rfl (underwayBurst_err hb s.remaining)
    (hburst.trans (runFrom_terminator rfl hend))
  exact ⟨t, (exec_writeStr_underway s).trans hrun, ht⟩

/-! ### `REQUEST_FROM` for more than the free space -/

theorem exec_requestFrom_overflow (addr : SlaveAddr) {qty : Byte} (hb : s.bound = true)
    (hfree : s.cfg.rxcap - s.rxbuf.length < qty.toNat) :
    exec (.requestFrom addr qty) s = .next (fail .overflow 0#24 (accept (.requestFrom addr qty) s)) := by
  rw [exec, execRequestFrom, requireBound_of_bound (s := accept (.requestFrom addr qty) s) hb]
  exact if_pos hfree

/-- Settles O28: the check comes before `REQUEST_FROM` writes anything, and `fail` only responds. -/
theorem requestFromOverflowOnlyResponds : Obligations.RequestFromOverflowOnlyResponds := by
  intro s addr qty hb hfree
  exact ⟨_, exec_requestFrom_overflow addr hb hfree, respond_visible (i := .requestFrom addr qty) .overflow 0#24 rfl⟩

/-! ### The capacity -/

/-- An operation has one next state, so what some next state satisfies holds of it. -/
theorem holds_of_next {P : State → Prop} {r : Result} (h : ∃ t, r = .next t ∧ P t) (hr : r = .next t) : P t := by
  obtain ⟨t', hr', ht'⟩ := h
  rw [hr] at hr'
  cases hr'
  exact ht'

theorem runProgram_room (hroom : s.rxbuf.length + pushesIn ops ≤ s.cfg.rxcap) (h : runProgram ops s = .next t) :
    Room t := by
  obtain ⟨u, hadv, hrun⟩ := andThen_eq_next.mp h
  have hu : Room u := holds_of_next (advance_room (now := 0) (s := setSeq .busy s) hroom) hadv
  obtain ⟨v, rest, hv, -, rfl, -⟩ := run_keeps Room
    (fun e _ x y _ hx hy => holds_of_next (commandEdge_room (e := e) hx) hy) hu hrun
  exact hv

/-- From a buffer within its capacity, no command leads past it (10_state.md R34). -/
theorem exec_fits (hfits : s.rxbuf.length ≤ s.cfg.rxcap) (h : exec i s = .next t) : t.rxbuf.length ≤ s.cfg.rxcap := by
  obtain ⟨u, hu, ⟨st, p, hexec⟩ | ⟨-, hpush, hexec⟩⟩ := exec_starts i s
  · rw [hexec] at h
    cases h
    exact hu.fits.trans hfits
  · have hroom : Room t := by
      refine runProgram_room (s := u) ?_ (hexec.symm.trans h)
      rw [hu.cfg]
      exact (Nat.add_le_add_right hu.fits _).trans (hpush hfits)
    rw [Room, (exec_extends h).cfg] at hroom
    exact (Nat.le_add_right _ _).trans hroom

/-! ### What a read pushes and counts -/

/-- The buffer is `before` and some bytes after it, as many as `n` counts mod 2^8. -/
def Appended (before : List Byte) (n : BitVec 8) (s : State) : Prop :=
  ∃ bytes, s.rxbuf = before ++ bytes ∧ n = BitVec.ofNat 8 bytes.length

/-- One byte more, pushed and counted (42_frame_layer.md R232). -/
theorem Appended.push (h : Appended before s.bytecnt s) :
    Appended before (s.bytecnt + 1#8) (setRxbuf (s.rxbuf ++ [s.shreg]) s) := by
  obtain ⟨bytes, hbuf, hcount⟩ := h
  refine ⟨bytes ++ [s.shreg], by rw [setRxbuf_rxbuf, hbuf, List.append_assoc], ?_⟩
  rw [hcount, List.length_append, List.length_singleton, BitVec.ofNat_add]

/-- A line of `REQUEST_FROM`: one that goes on, or its response (R232). -/
def Micro.ofRead (op : Micro) : Prop := op.goesOn = true ∨ op = .respond .count

theorem requestFrom_ofRead (c : Config) (addr : SlaveAddr) (qty : Byte) :
    ∀ op ∈ programOf c (.requestFrom addr qty), op.ofRead := by
  obtain ⟨front, last, hprog, hfront, -⟩ := requestFrom_isProgram c addr qty
  obtain ⟨-, hlast⟩ := List.append_inj' hprog rfl
  rw [hprog, ← hlast]
  intro op hop
  rcases List.mem_append.mp hop with hop | hop
  · exact Or.inl (hfront op hop)
  · exact Or.inr (List.mem_singleton.mp hop)

/-- A `REQUEST_FROM` in progress whose `bytecnt` counts the bytes it has pushed after `before`. -/
structure Reading (before : List Byte) (s : State) : Prop where
  seq : s.seq = .busy
  cmd : ∃ addr qty, s.cmd = some (.requestFrom addr qty)
  count : Appended before s.bytecnt s

/-- A read in progress with lines of its own to do, or a response that counts in its low byte what the read has pushed. -/
def Accounts (before : List Byte) (s : State) : Prop :=
  Reading before s ∧ (∀ op ∈ s.todo, op.ofRead) ∨ s.seq = .resp ∧ Appended before (s.rspData.extractLsb' 0 8) s

/-- The low byte of a response with a count is the count (30_encoding.md R114). -/
theorem countPayload_count (op : BitVec 4) (st : Status) (a : Bool) (n : BitVec 8) :
    (responseWord op st (countPayload a n)).extractLsb' 0 8 = n := by
  calc (responseWord op st (countPayload a n)).extractLsb' 0 8
      = ((responseWord op st (countPayload a n)).extractLsb' 0 24).extractLsb' 0 8 := by
        rw [BitVec.extractLsb'_extractLsb'_of_le (by decide)]
    _ = (countPayload a n).extractLsb' 0 8 := by rw [responseWord_payload]
    _ = n := BitVec.extractLsb'_append_eq_right

/-- A response with the count ends the read, whatever its status (R240). -/
theorem respond_accounts {n : BitVec 8} (h : Appended before n s) (st : Status) (a : Bool) :
    Accounts before (respond st (countPayload a n) s) := by
  obtain ⟨bytes, hbuf, hcount⟩ := h
  exact Or.inr ⟨rfl, bytes, hbuf, (countPayload_count ..).trans hcount⟩

theorem advance_accounts (h : Reading before s) (hops : ∀ op ∈ ops, op.ofRead) (hadv : advance now ops s = .next t) :
    Accounts before t := by
  induction ops generalizing s with
  | nil =>
    cases hadv
    exact Or.inl ⟨⟨h.seq, h.cmd, h.count⟩, hops⟩
  | cons op k ih =>
    have hk : ∀ op ∈ k, op.ofRead := fun op hop => hops op (List.mem_cons_of_mem _ hop)
    cases op with
    | writeLines | driveBit | pollScl | sampleBit | sampleAck =>
      cases hadv
      exact Or.inl ⟨⟨h.seq, h.cmd, h.count⟩, hops⟩
    | setLine l v =>
      cases l <;> cases hadv <;> exact Or.inl ⟨⟨h.seq, h.cmd, h.count⟩, hops⟩
    | markStretch => exact ih (s := markT0 now s) ⟨h.seq, h.cmd, h.count⟩ hk hadv
    | settle =>
      rw [advance] at hadv
      split at hadv
      · exact ih (s := markT1 now s) ⟨h.seq, h.cmd, h.count⟩ hk hadv
      · cases hadv
        exact Or.inl ⟨⟨h.seq, h.cmd, h.count⟩, hops⟩
    | loadByte v => exact ih (s := loadShift v s) ⟨h.seq, h.cmd, h.count⟩ hk hadv
    | nextBit => exact ih (s := countBit s) ⟨h.seq, h.cmd, h.count⟩ hk hadv
    | storeBit => exact ih (s := shiftIn s) ⟨h.seq, h.cmd, h.count⟩ hk hadv
    | started dir => exact ih (s := markStarted dir s) ⟨h.seq, h.cmd, h.count⟩ hk hadv
    | stopped => exact ih (s := markStopped s) ⟨h.seq, h.cmd, h.count⟩ hk hadv
    | keepAddrAck => exact ih (s := latchAddrAck s) ⟨h.seq, h.cmd, h.count⟩ hk hadv
    | countAck => exact ih (s := addAck s) ⟨h.seq, h.cmd, h.count⟩ hk hadv
    | pushByte =>
      rw [advance, fifoPush] at hadv
      by_cases hfree : s.rxbuf.length < s.cfg.rxcap
      · simp only [hfree, if_true] at hadv
        exact ih (s := countByte (setRxbuf (s.rxbuf ++ [s.shreg]) s)) ⟨h.seq, h.cmd, h.count.push⟩ hk hadv
      · simp [hfree] at hadv
    | countedBeat => exact absurd (hops _ List.mem_cons_self) (by simp [Micro.ofRead, Micro.goesOn])
    | textBeat => exact absurd (hops _ List.mem_cons_self) (by simp [Micro.ofRead, Micro.goesOn])
    | respond p =>
      have hp : p = .count := by simpa [Micro.ofRead, Micro.goesOn] using hops _ List.mem_cons_self
      subst hp
      cases hadv
      exact respond_accounts h.count .ok s.addrAck

/-- A failed primitive ends the read with the count (60_exceptions.md R300). -/
theorem failIo_accounts (h : Reading before s) (hfail : failIo now s = .next t) : Accounts before t := by
  obtain ⟨addr, qty, hcmd⟩ := h.cmd
  rw [failIo, hcmd] at hfail
  cases hfail
  exact respond_accounts h.count .ioerr s.addrAck

/-- A read goes on after a primitive, or ends with the count at a timeout (42_frame_layer.md R234). -/
theorem afterPrimitive_accounts {op : Micro} {raw : Nat} (h : Reading before s) (hops : ∀ op' ∈ op :: k, op'.ofRead)
    (hafter : afterPrimitive now op raw k s = .next t) : Accounts before t := by
  have hk : ∀ op' ∈ k, op'.ofRead := fun op' hop => hops op' (List.mem_cons_of_mem _ hop)
  cases op with
  | pollScl =>
    simp only [afterPrimitive, afterPoll] at hafter
    split at hafter
    · exact advance_accounts h hk hafter
    · split at hafter
      · cases hafter
        exact respond_accounts h.count .timeout s.addrAck
      · exact advance_accounts h hops hafter
  | sampleBit =>
    exact advance_accounts (s := setRetval (raw.testBit s.sdaPin.toNat) s) ⟨h.seq, h.cmd, h.count⟩ hk hafter
  | sampleAck =>
    exact advance_accounts (s := setRetval (!raw.testBit s.sdaPin.toNat) s) ⟨h.seq, h.cmd, h.count⟩ hk hafter
  | _ => exact advance_accounts h hk hafter

theorem completePrimitive_accounts {req : IoReq} (h : Reading before s) (hops : ∀ op ∈ s.todo, op.ofRead)
    (hcomplete : completePrimitive e req s = .next t) : Accounts before t := by
  cases htodo : s.todo with
  | nil =>
    simp only [completePrimitive, htodo] at hcomplete
    cases hcomplete
    exact Or.inl ⟨⟨h.seq, h.cmd, h.count⟩, hops⟩
  | cons op k =>
    simp only [completePrimitive, htodo] at hcomplete
    have hemit : Reading before (emit (completionEvent op req e.ioRspRaw e.ioRspErr s) (setIo .idle s)) :=
      ⟨h.seq, h.cmd, h.count⟩
    split at hcomplete
    · exact failIo_accounts hemit hcomplete
    · exact afterPrimitive_accounts hemit (htodo ▸ hops) hcomplete

theorem settleEdge_accounts (h : Reading before s) (hops : ∀ op ∈ s.todo, op.ofRead)
    (hsettle : settleEdge e s = .next t) : Accounts before t := by
  unfold settleEdge at hsettle
  split at hsettle
  next k htodo =>
    rw [htodo] at hops
    split at hsettle
    · exact advance_accounts h (fun op hop => hops op (List.mem_cons_of_mem _ hop)) hsettle
    · cases hsettle
      exact Or.inl ⟨h, htodo ▸ hops⟩
  · cases hsettle
    exact Or.inl ⟨h, hops⟩

theorem busyEdge_accounts (h : Reading before s) (hops : ∀ op ∈ s.todo, op.ofRead) (hedge : busyEdge e s = .next t) :
    Accounts before t := by
  unfold busyEdge at hedge
  split at hedge
  · exact settleEdge_accounts h hops hedge
  · cases hedge
    exact Or.inl ⟨⟨h.seq, h.cmd, h.count⟩, hops⟩
  · cases hedge
    split
    · exact Or.inl ⟨⟨h.seq, h.cmd, h.count⟩, hops⟩
    · exact Or.inl ⟨h, hops⟩
  · split at hedge
    · exact completePrimitive_accounts h hops hedge
    · cases hedge
      exact Or.inl ⟨h, hops⟩

/-- Short of a reset, every edge of a read keeps the account. -/
theorem commandEdge_accounts (h : Accounts before s) (hr : e.rst = false) (hedge : commandEdge e s = .next t) :
    Accounts before t := by
  rcases h with ⟨h, hops⟩ | ⟨hq, hcount⟩
  · rw [commandEdge_busy h.seq hr] at hedge
    exact busyEdge_accounts h hops hedge
  · simp only [commandEdge, hr, hq, Bool.false_eq_true, if_false] at hedge
    cases hedge
    exact Or.inr ⟨hq, hcount⟩

theorem Accounts.setInputs (h : Accounts before s) (es : List Edge) : Accounts before (setInputs es s) :=
  h.imp (fun ⟨hread, hops⟩ => ⟨⟨hread.seq, hread.cmd, hread.count⟩, hops⟩) id

theorem runProgram_accounts (hcmd : ∃ addr qty, s.cmd = some (.requestFrom addr qty))
    (hcount : Appended before s.bytecnt s) (hops : ∀ op ∈ ops, op.ofRead) (hn : noReset s.inputs)
    (h : runProgram ops s = .next t) : Accounts before t := by
  obtain ⟨u, hadv, hrun⟩ := andThen_eq_next.mp h
  obtain ⟨v, rest, hv, -, rfl, -⟩ := run_keeps (Accounts before)
    (fun e he x y _ hx hy => commandEdge_accounts hx (hn e he) hy)
    (advance_accounts (s := setSeq .busy s) ⟨rfl, hcmd, hcount⟩ hops hadv) hrun
  exact hv.setInputs rest

/-- A command that pushes nothing and responds with payload 0 counts what it pushed. -/
theorem fail_accounts (st : Status) (s : State) : Accounts s.rxbuf (fail st 0#24 s) :=
  respond_accounts (n := 0#8) ⟨[], (List.append_nil _).symm, rfl⟩ st false

theorem exec_requestFrom_accounts {addr : SlaveAddr} {qty : Byte} (hn : noReset s.inputs)
    (h : exec (.requestFrom addr qty) s = .next t) : Accounts s.rxbuf t := by
  rw [exec, execRequestFrom, requireBound] at h
  split at h
  · split at h
    · cases h
      exact fail_accounts .overflow (accept (.requestFrom addr qty) s)
    · exact runProgram_accounts (s := openRead (accept (.requestFrom addr qty) s)) ⟨addr, qty, rfl⟩
        ⟨[], (List.append_nil _).symm, rfl⟩ (requestFrom_ofRead s.cfg addr qty) hn h
  · cases h
    exact fail_accounts .unbound (accept (.requestFrom addr qty) s)

theorem Accounts.appended (h : Accounts before t) : ∃ bytes, t.rxbuf = before ++ bytes ∧
    (t.seq = .resp → t.rspData.extractLsb' 0 8 = BitVec.ofNat 8 bytes.length) := by
  rcases h with ⟨h, -⟩ | ⟨-, bytes, hbuf, hcount⟩
  · obtain ⟨bytes, hbuf, -⟩ := h.count
    exact ⟨bytes, hbuf, fun hq => by rw [h.seq] at hq; cases hq⟩
  · exact ⟨bytes, hbuf, fun _ => hcount⟩

/-- Settles O31: every edge of the read keeps the account, and what the capacity admits fits in the low byte. -/
theorem requestFromCountsWhatItPushes : Obligations.RequestFromCountsWhatItPushes := by
  intro s t addr qty hcap hfits hn h
  obtain ⟨bytes, hbuf, hcount⟩ := (exec_requestFrom_accounts hn h).appended
  have hlen : t.rxbuf.length ≤ s.cfg.rxcap := exec_fits hfits h
  refine ⟨bytes, hbuf, hlen, fun hq => ?_⟩
  rw [hbuf, List.length_append] at hlen
  rw [hcount hq, BitVec.toNat_ofNat]
  exact Nat.mod_eq_of_lt (by omega)

end Sys2Proof.Machine
end

section
/-!
PROOFS. The receive buffer (43_receive_buffer.md): a push (R270), `AVAILABLE` (R272), `READ` with and without a byte to read
(R271, R274, R275), and `READ` after `READ` (R276).
-/

namespace Sys2Proof.Machine

variable {b : Byte} {bs : List Byte} {es : List Edge} {e e1 e2 : Edge} {s u : State}

/-! ### A push -/

/-- Settles O37: `fifoPush` is that test, its append written by `setRxbuf`. -/
theorem pushAppendsOrFaults : Obligations.PushAppendsOrFaults :=
  fun _ _ => rfl

/-! ### One command -/

theorem exec_available (s : State) :
    exec .available s = .next (respond .ok (bytePayload s.rxcount) (accept .available s)) := rfl

theorem exec_read_of_empty (hbuf : s.rxbuf = []) : exec .read s = .next (fail .empty 0#24 (accept .read s)) := by
  simp only [exec, execRead, fifoPop, accept_rxbuf, hbuf]

theorem exec_read_of_byte (hbuf : s.rxbuf = b :: bs) :
    exec .read s = .next (respond .ok (bytePayload b) (setRxbuf bs (accept .read s))) := by
  simp only [exec, execRead, fifoPop, accept_rxbuf, hbuf]

/-- Settles O32: the word is that of `AVAILABLE`, and the command responds with the count and does no more. -/
theorem availableRespondsTheCount : Obligations.AvailableRespondsTheCount := by
  refine ⟨decodeOfEncodeIsTheCommand .available, fun s => ⟨_, exec_available s, ?_⟩⟩
  rw [respond_visible (i := .available) _ _ rfl, bytePayload_eq]
  rfl

/-- Settles O33: the oldest byte leaves the buffer for the response. -/
theorem readRemovesTheOldestByte : Obligations.ReadRemovesTheOldestByte := by
  intro s b bs hbuf
  refine ⟨_, exec_read_of_byte hbuf, ?_⟩
  rw [respond_visible (i := .read) _ _ rfl, bytePayload_eq]
  rfl

/-- Settles O34: with no byte to remove `READ` fails, and `fail` only responds. -/
theorem readOfAnEmptyBufferOnlyResponds : Obligations.ReadOfAnEmptyBufferOnlyResponds := by
  intro s hbuf
  exact ⟨_, exec_read_of_empty hbuf, respond_visible (i := .read) .empty 0#24 rfl⟩

/-! ### `READ` after `READ` -/

theorem core_run_succ (n : Nat) (h : step s = .next u) : Sys2Proof.core.run (n + 1) s = Sys2Proof.core.run n u := by
  have hstep : Sys2Proof.core.step s = .next u := h
  simp only [Host.Core.run, hstep]

theorem step_of_response (hlegal : s.cfg.legal = true) (hq : s.seq = .resp) (hin : s.inputs = e :: es) (hr : e.rst = false)
    (hrdy : e.rspReady = true) : step s = .next (takeResponse (setInputs es s)) := by
  rw [step_of_edge hlegal hin, takeEdge_resp hq hr, respEdge, if_pos hrdy]

/-- The block after a `READ` of the byte `b`, with the bytes `bs` left, once its response is taken (R274; 20_memory.md
R71). -/
def readTaken (b : Byte) (bs : List Byte) (es : List Edge) (s : State) : State :=
  takeResponse (setInputs es (respond .ok (bytePayload b) (setRxbuf bs (accept .read s))))

/-- The response `OK` with the byte `b` (30_encoding.md R113, R114). -/
theorem readTaken_responses (b : Byte) (bs : List Byte) (es : List Edge) (s : State) :
    (readTaken b bs es s).responses = s.responses ++ [0x9#4 ++ 0#4 ++ (0#16 ++ b)] := by
  rw [← bytePayload_eq]
  rfl

/-- The word of a `READ`, and then the edge at which its response is taken. -/
theorem run_read_taken (n : Nat) (hlegal : s.cfg.legal = true) (hq : s.seq = .ready) (hbuf : s.rxbuf = b :: bs)
    (hr1 : e1.rst = false) (hv : e1.cmdValid = true) (hw : e1.cmdData = encode .read) (hr2 : e2.rst = false)
    (hrdy : e2.rspReady = true) (hin : s.inputs = e1 :: e2 :: es) :
    Sys2Proof.core.run (n + 2) s = Sys2Proof.core.run n (readTaken b bs es s) := by
  have hread : step s = .next (respond .ok (bytePayload b) (setRxbuf bs (accept .read (setInputs (e2 :: es) s)))) := by
    rw [stepRunsTheDecodedCommand s e1 (e2 :: es) .read hlegal hq hin hr1 hv (hw ▸ decodeOfEncodeIsTheCommand .read)]
    exact exec_read_of_byte (s := setInputs (e2 :: es) s) hbuf
  rw [core_run_succ (n + 1) hread]
  exact core_run_succ n (step_of_response hlegal rfl rfl hr2 hrdy)

/-- Settles O36, by induction on the bytes read: the first `READ` takes the oldest byte, and the others read the rest. -/
theorem readsReturnTheBytesInOrder : Obligations.ReadsReturnTheBytesInOrder := by
  intro s bs rest e1 e2 hlegal hq hbuf hr1 hv hw hr2 hrdy hin
  induction bs generalizing s with
  | nil => exact ⟨s, rfl, hbuf, hq, hin, (List.append_nil _).symm, rfl⟩
  | cons b bs ih =>
    obtain ⟨t, hrun, hrest, hready, hend, hresponses, htrace⟩ :=
      ih (readTaken b (bs ++ rest) (List.replicate bs.length [e1, e2]).flatten s) hlegal rfl rfl rfl
    have hfirst := run_read_taken (2 * bs.length) hlegal hq hbuf hr1 hv hw hr2 hrdy hin
    refine ⟨t, hfirst.trans hrun, hrest, hready, hend, ?_, htrace⟩
    rw [hresponses, readTaken_responses, List.append_assoc]
    rfl

end Sys2Proof.Machine
end

section
/-!
PROOFS. The status view (10_state.md R38) and the command `STATUS` (44_control.md R290).
-/

namespace Sys2Proof.Machine

/-! ### The fields of the status view -/

theorem getLsbD_append_of_le {v w i : Nat} {hi : BitVec v} {lo : BitVec w} (h : w ≤ i) :
    (hi ++ lo).getLsbD i = hi.getLsbD (i - w) := by
  rw [BitVec.getLsbD_append, if_neg (Nat.not_lt.mpr h)]

theorem getLsbD_append_ofBool_zero {v : Nat} (hi : BitVec v) (b : Bool) : (hi ++ BitVec.ofBool b).getLsbD 0 = b := by
  rw [BitVec.getLsbD_append, if_pos Nat.one_pos, BitVec.getLsbD_ofBool]
  rfl

/-- The fields of more than one bit: each is the lowest one left when the fields below it are taken off. -/
theorem statusPayload_vectors (s : State) :
    (statusPayload s).extractLsb' 0 8 = s.rxcount ∧ (statusPayload s).extractLsb' 8 3 = s.sdaPin ∧
      (statusPayload s).extractLsb' 11 3 = s.sclPin ∧ (statusPayload s).extractLsb' 19 5 = 0#5 := by
  rw [statusPayload]
  refine ⟨BitVec.extractLsb'_append_eq_right, ?_, ?_, ?_⟩ <;>
    repeat rw [BitVec.extractLsb'_append_eq_of_le (by decide)]
  · exact BitVec.extractLsb'_append_eq_right
  · exact BitVec.extractLsb'_append_eq_right
  · exact BitVec.extractLsb'_eq_self

/-- The fields of one bit, by the same argument. -/
theorem statusPayload_bits (s : State) :
    (statusPayload s).getLsbD 14 = s.bound ∧ (statusPayload s).getLsbD 15 = s.busActive ∧
      (statusPayload s).getLsbD 16 = s.sdaDrv ∧ (statusPayload s).getLsbD 17 = s.sclDrv ∧
      (statusPayload s).getLsbD 18 = s.lastDir := by
  rw [statusPayload]
  refine ⟨?_, ?_, ?_, ?_, ?_⟩ <;>
    repeat rw [getLsbD_append_of_le (by decide)]
  all_goals exact getLsbD_append_ofBool_zero _ _

/-! ### The command -/

theorem exec_status (s : State) :
    exec .status s = .next (respond .ok (statusPayload s) (accept .status s)) := rfl

/-- Settles O35: the word is that of `STATUS`, and the command responds with the status view and does no more. -/
theorem statusShowsTheState : Obligations.StatusShowsTheState := by
  refine ⟨decodeOfEncodeIsTheCommand .status, fun s => ⟨_, statusPayload s, exec_status s, ?_, ?_⟩⟩
  · rw [respond_visible (i := .status) _ _ rfl]
    rfl
  · obtain ⟨hcount, hsda, hscl, hzero⟩ := statusPayload_vectors s
    obtain ⟨hbound, hactive, hsdaDrv, hsclDrv, hdir⟩ := statusPayload_bits s
    exact ⟨hcount, hsda, hscl, hbound, hactive, hsdaDrv, hsclDrv, hdir, hzero⟩

end Sys2Proof.Machine
end

section
/-!
PROOFS. Errors and waits (60_exceptions.md): the failed primitive of a command that is no burst (R304), which status codes
each command can raise (R301), and where the block waits (R320).
-/

namespace Sys2Proof.Machine

variable {now : Nat} {ops k : List Micro} {e : Edge} {s t : State} {i : Instr} {op : Micro} {req : IoReq} {err st : Status}

/-! ### A failed primitive of a command that is no burst -/

/-- The edge of a failed completion leaves the event, and goes on with `failIo`. -/
theorem commandEdge_error (hq : s.seq = .busy) (hio : s.io = .outstanding req) (htodo : s.todo = op :: k)
    (hr : e.rst = false) (hv : e.ioRspValid = true) (herr : e.ioRspErr = true) :
    commandEdge e s = failIo e.nowMs (afterError op req e.ioRspRaw s) := by
  rw [commandEdge_busy hq hr, busyEdge_outstanding hio, if_pos hv]
  simp only [completePrimitive, htodo, herr, if_true, afterError]

/-- A command that is no burst ends where its primitive fails (60_exceptions.md R304). -/
theorem failIo_of_no_burst (hcmd : s.cmd = some i) (htext : i ≠ .writeStr) (hcounted : ∀ n, i ≠ .writeBytes n) :
    failIo now s = .next (respond .ioerr (ioerrPayload s i) s) := by
  rw [failIo, hcmd]
  cases i with
  | writeBytes n => exact absurd rfl (hcounted n)
  | writeStr => exact absurd rfl htext
  | _ => rfl

/-- Settles O38: the completion leaves its event, and `failIo` responds at once, from the state that it finds. -/
theorem primitiveErrorEndsTheCommand : Obligations.PrimitiveErrorEndsTheCommand := by
  intro s e req op k i hq hio htodo hcmd htext hcounted hr hv herr
  refine ⟨_, completionEvent_error op req e.ioRspRaw s, ?_⟩
  rw [commandEdge_error hq hio htodo hr hv herr,
    failIo_of_no_burst (s := afterError op req e.ioRspRaw s) hcmd htext hcounted, respond,
    cmdOp_of_cmd (s := afterError op req e.ioRspRaw s) hcmd]
  cases i with
  | writeBytes n => exact absurd rfl (hcounted n)
  | writeStr => exact absurd rfl htext
  | _ => rfl

/-! ### Which status codes a command can raise -/

/-- The status codes that the response of a command can hold (60_exceptions.md R301). -/
def statusesOf : Instr → List Status
  | .available | .status => [.ok]
  | .read => [.ok, .empty]
  | .beginSession _ _ _ => [.ok, .ioerr, .badcfg]
  | .beginTx _ _ | .endTx | .write _ | .writeBytes _ | .writeStr => [.ok, .ioerr, .unbound]
  | .requestFrom _ _ => [.ok, .timeout, .ioerr, .overflow, .unbound]

theorem ok_mem_statusesOf (i : Instr) : .ok ∈ statusesOf i := by
  cases i <;> exact List.mem_cons_self

/-- The status codes a line can end its command with, beside the `OK` of `respond` and the `IOERR` of a failed primitive: a
poll of SCL can time out (42_frame_layer.md R234), and the loop head of a burst answers the status `err` recorded for it
(10_state.md R41). -/
def Micro.raises (err : Status) : Micro → List Status
  | .pollScl => [.timeout]
  | .countedBeat | .textBeat => [err]
  | _ => []

/-- No line of `ops` ends the command `i` with a status code that is not the command's. -/
def RaisesOnly (i : Instr) (err : Status) (ops : List Micro) : Prop := ∀ op ∈ ops, op.raises err ⊆ statusesOf i

theorem raisesOnly_cons : RaisesOnly i err (op :: k) ↔ op.raises err ⊆ statusesOf i ∧ RaisesOnly i err k :=
  List.forall_mem_cons

theorem raisesOnly_append {ops' : List Micro} :
    RaisesOnly i err (ops ++ ops') ↔ RaisesOnly i err ops ∧ RaisesOnly i err ops' :=
  List.forall_mem_append

theorem raisesOnly_byteWriteOps (i : Instr) (err : Status) (v : Byte) : RaisesOnly i err (byteWriteOps v) := by
  simp [RaisesOnly, byteWriteOps, repeatOps, shiftOutOps, ackSampleOps, Micro.raises]

/-- A line of `REQUEST_FROM` is no loop head of a burst. -/
theorem raises_of_ofRead (h : op.ofRead) : op.raises err ⊆ [.timeout] := by
  cases op with
  | pollScl => exact List.Subset.refl _
  | countedBeat | textBeat => simp [Micro.ofRead, Micro.goesOn] at h
  | _ => exact List.nil_subset _

/-- A program raises no more than its command: `REQUEST_FROM` alone polls SCL, and a burst answers what it recorded. -/
theorem raisesOnly_programOf (c : Config) (hcounted : (∃ n, i = .writeBytes n) → err ∈ statusesOf i)
    (htext : i = .writeStr → err ∈ statusesOf i) : RaisesOnly i err (programOf c i) := by
  cases i with
  | writeBytes n => simpa [RaisesOnly, programOf, Micro.raises] using hcounted ⟨n, rfl⟩
  | writeStr => simpa [RaisesOnly, programOf, Micro.raises] using htext rfl
  | requestFrom addr qty =>
    intro op hop
    exact List.Subset.trans (raises_of_ofRead (requestFrom_ofRead c addr qty op hop)) (by simp [statusesOf])
  | beginTx addr dir =>
    simp only [programOf, raisesOnly_append, raisesOnly_byteWriteOps]
    simp [RaisesOnly, startOps, Micro.raises]
  | write v =>
    simp only [programOf, raisesOnly_append, raisesOnly_byteWriteOps]
    simp [RaisesOnly, Micro.raises]
  | _ => simp [RaisesOnly, programOf, stopOps, Micro.raises]

/-- The command `i` in progress, one with primitives that can fail. -/
structure Pending (i : Instr) (s : State) : Prop where
  seq : s.seq ≠ .resp
  cmd : s.cmd = some i
  ioerr : .ioerr ∈ statusesOf i

/-- The command `i` is in progress and will raise only its own status codes, or its response holds one of them. -/
def Answers (i : Instr) (s : State) : Prop :=
  Pending i s ∧ RaisesOnly i s.err s.todo ∨
    s.seq = .resp ∧ ∃ st ∈ statusesOf i, ∃ p, s.rspData = responseWord i.opcode st p

theorem respond_answers (hcmd : s.cmd = some i) (hst : st ∈ statusesOf i) (p : Payload) : Answers i (respond st p s) := by
  refine Or.inr ⟨rfl, st, hst, p, ?_⟩
  rw [respond, cmdOp_of_cmd hcmd]
  rfl

/-- A burst responds with the status it recorded (42_frame_layer.md R226, R228). -/
theorem respondBurst_answers (hcmd : s.cmd = some i) (hst : s.err ∈ statusesOf i) : Answers i (respondBurst s) := by
  by_cases hunbound : s.err = .unbound
  · rw [respondBurst_unbound hunbound]
    exact respond_answers hcmd (hunbound ▸ hst) _
  · rw [respondBurst_other hunbound]
    exact respond_answers hcmd hst _

theorem advance_answers (hadv : advance now ops s = .next t) (h : Pending i s) (hops : RaisesOnly i s.err ops) :
    Answers i t := by
  induction ops generalizing s with
  | nil =>
    cases hadv
    exact Or.inl ⟨⟨h.seq, h.cmd, h.ioerr⟩, hops⟩
  | cons op k ih =>
    obtain ⟨hop, hk⟩ := raisesOnly_cons.mp hops
    cases op with
    | writeLines | driveBit | pollScl | sampleBit | sampleAck =>
      cases hadv
      exact Or.inl ⟨⟨h.seq, h.cmd, h.ioerr⟩, hops⟩
    | setLine l v =>
      cases l <;> cases hadv <;> exact Or.inl ⟨⟨h.seq, h.cmd, h.ioerr⟩, hops⟩
    | markStretch | loadByte | nextBit | storeBit | started | stopped | keepAddrAck | countAck =>
      exact ih hadv ⟨h.seq, h.cmd, h.ioerr⟩ hk
    | settle =>
      rw [advance] at hadv
      split at hadv
      · exact ih hadv ⟨h.seq, h.cmd, h.ioerr⟩ hk
      · cases hadv
        exact Or.inl ⟨⟨h.seq, h.cmd, h.ioerr⟩, hops⟩
    | pushByte =>
      rw [advance, fifoPush] at hadv
      by_cases hfree : s.rxbuf.length < s.cfg.rxcap
      · simp only [hfree, if_true] at hadv
        exact ih hadv ⟨h.seq, h.cmd, h.ioerr⟩ hk
      · simp [hfree] at hadv
    | countedBeat =>
      rw [advance] at hadv
      split at hadv <;> cases hadv
      · exact respondBurst_answers h.cmd (hop List.mem_cons_self)
      · exact Or.inl ⟨⟨nofun, h.cmd, h.ioerr⟩, hops⟩
    | textBeat =>
      cases hadv
      exact Or.inl ⟨⟨nofun, h.cmd, h.ioerr⟩, hops⟩
    | respond p =>
      cases hadv
      exact respond_answers h.cmd (ok_mem_statusesOf i) _

/-- A failed primitive ends the command with `IOERR`, or leaves a burst that will (60_exceptions.md R304, R305). -/
theorem failIo_answers (hfail : failIo now s = .next t) (h : Pending i s) : Answers i t := by
  have hrecorded : [.ioerr] ⊆ statusesOf i := by simpa using h.ioerr
  by_cases hcounted : ∃ n, i = .writeBytes n
  · obtain ⟨n, rfl⟩ := hcounted
    rw [failIo_writeBytes h.cmd] at hfail
    exact advance_answers hfail ⟨h.seq, h.cmd, h.ioerr⟩ (raisesOnly_cons.mpr ⟨hrecorded, nofun⟩)
  · by_cases htext : i = .writeStr
    · subst htext
      rw [failIo_writeStr h.cmd] at hfail
      exact advance_answers hfail ⟨h.seq, h.cmd, h.ioerr⟩ (raisesOnly_cons.mpr ⟨hrecorded, nofun⟩)
    · rw [failIo_of_no_burst h.cmd htext (not_exists.mp hcounted)] at hfail
      cases hfail
      exact respond_answers h.cmd h.ioerr _

/-- After a primitive the program goes on, unless a poll of SCL has come too late (41_bit_engine.md R184). -/
theorem afterPrimitive_answers {raw : Nat} (hafter : afterPrimitive now op raw k s = .next t) (h : Pending i s)
    (hops : RaisesOnly i s.err (op :: k)) : Answers i t := by
  obtain ⟨hop, hk⟩ := raisesOnly_cons.mp hops
  cases op with
  | pollScl =>
    simp only [afterPrimitive, afterPoll] at hafter
    split at hafter
    · exact advance_answers hafter h hk
    · split at hafter
      · cases hafter
        exact respond_answers h.cmd (hop List.mem_cons_self) _
      · exact advance_answers hafter h hops
  | sampleBit | sampleAck => exact advance_answers hafter ⟨h.seq, h.cmd, h.ioerr⟩ hk
  | _ => exact advance_answers hafter h hk

theorem completePrimitive_answers (hcomplete : completePrimitive e req s = .next t) (h : Pending i s)
    (hops : RaisesOnly i s.err s.todo) : Answers i t := by
  cases htodo : s.todo with
  | nil =>
    simp only [completePrimitive, htodo] at hcomplete
    cases hcomplete
    exact Or.inl ⟨⟨h.seq, h.cmd, h.ioerr⟩, hops⟩
  | cons op k =>
    simp only [completePrimitive, htodo] at hcomplete
    split at hcomplete
    · exact failIo_answers hcomplete ⟨h.seq, h.cmd, h.ioerr⟩
    · exact afterPrimitive_answers hcomplete ⟨h.seq, h.cmd, h.ioerr⟩ (htodo ▸ hops)

theorem settleEdge_answers (hsettle : settleEdge e s = .next t) (h : Pending i s) (hops : RaisesOnly i s.err s.todo) :
    Answers i t := by
  unfold settleEdge at hsettle
  split at hsettle
  next k htodo =>
    split at hsettle
    · exact advance_answers hsettle h (raisesOnly_cons.mp (htodo ▸ hops)).2
    · cases hsettle
      exact Or.inl ⟨h, hops⟩
  · cases hsettle
    exact Or.inl ⟨h, hops⟩

theorem busyEdge_answers (hedge : busyEdge e s = .next t) (h : Pending i s) (hops : RaisesOnly i s.err s.todo) :
    Answers i t := by
  have hstays (io : IoPort) : Answers i (setIo io s) := Or.inl ⟨⟨h.seq, h.cmd, h.ioerr⟩, hops⟩
  unfold busyEdge at hedge
  split at hedge
  · exact settleEdge_answers hedge h hops
  · cases hedge
    exact hstays _
  · cases hedge
    split
    · exact hstays _
    · exact Or.inl ⟨h, hops⟩
  · split at hedge
    · exact completePrimitive_answers hedge h hops
    · cases hedge
      exact Or.inl ⟨h, hops⟩

/-- The byte of a beat is sent by lines that raise nothing, in front of the loop head (42_frame_layer.md R226, R228). -/
theorem raisesOnly_beat (d : Byte) (h : RaisesOnly i err ops) : RaisesOnly i err (byteWriteOps d ++ .countAck :: ops) :=
  raisesOnly_append.mpr ⟨raisesOnly_byteWriteOps i err d, raisesOnly_cons.mpr ⟨List.nil_subset _, h⟩⟩

theorem takeBeat_answers {d : Byte} (hbeat : takeBeat now d s = .next t) (h : Pending i s)
    (hops : RaisesOnly i s.err s.todo) : Answers i t := by
  unfold takeBeat at hbeat
  split at hbeat
  next k htodo =>
    rw [htodo] at hops
    split at hbeat
    · exact advance_answers hbeat ⟨nofun, h.cmd, h.ioerr⟩ (raisesOnly_beat d hops)
    · exact advance_answers hbeat ⟨nofun, h.cmd, h.ioerr⟩ hops
  next k htodo =>
    rw [htodo] at hops
    split at hbeat
    · cases hbeat
      exact respondBurst_answers h.cmd ((raisesOnly_cons.mp hops).1 List.mem_cons_self)
    · split at hbeat
      · exact advance_answers hbeat ⟨nofun, h.cmd, h.ioerr⟩ (raisesOnly_beat d hops)
      · exact advance_answers hbeat ⟨nofun, h.cmd, h.ioerr⟩ hops
  · cases hbeat
    exact Or.inl ⟨h, hops⟩

/-- Short of a reset, every edge of a command keeps to the status codes of the command. -/
theorem commandEdge_answers (hr : e.rst = false) (hedge : commandEdge e s = .next t) (h : Answers i s) : Answers i t := by
  rcases h with ⟨h, hops⟩ | ⟨hq, hst⟩
  · simp only [commandEdge, hr, Bool.false_eq_true, if_false] at hedge
    split at hedge
    · exact busyEdge_answers hedge h hops
    · unfold beatEdge at hedge
      split at hedge
      · exact takeBeat_answers hedge h hops
      · cases hedge
        exact Or.inl ⟨h, hops⟩
    · cases hedge
      exact Or.inl ⟨h, hops⟩
    · cases hedge
      exact Or.inl ⟨h, hops⟩
  · simp only [commandEdge, hr, hq, Bool.false_eq_true, if_false] at hedge
    cases hedge
    exact Or.inr ⟨hq, hst⟩

theorem runProgram_answers (h : runProgram ops s = .next t) (hcmd : s.cmd = some i) (hioerr : .ioerr ∈ statusesOf i)
    (hops : RaisesOnly i s.err ops) (hn : noReset s.inputs) : Answers i t := by
  obtain ⟨u, hadv, hrun⟩ := andThen_eq_next.mp h
  obtain ⟨v, rest, hv, -, rfl, -⟩ := run_keeps (Answers i)
    (fun e he x y _ hx hy => commandEdge_answers (hn e he) hy hx)
    (advance_answers hadv ⟨nofun, hcmd, hioerr⟩ hops) hrun
  exact hv.imp (fun ⟨hp, hraises⟩ => ⟨⟨hp.seq, hp.cmd, hp.ioerr⟩, hraises⟩) id

/-! #### A command -/

/-- Only the commands that need a session ask for one, and each of them raises `UNBOUND` (60_exceptions.md R301). -/
theorem requireBound_answers {k : State → Result} (hcmd : s.cmd = some i) (hst : .unbound ∈ statusesOf i)
    (hk : k s = .next t → Answers i t) (h : requireBound s k = .next t) : Answers i t := by
  unfold requireBound at h
  split at h
  · exact hk h
  · cases h
    exact respond_answers hcmd hst _

/-- A command without beats that needs a session runs its program or raises `UNBOUND`. -/
theorem requireBound_runProgram_answers (hn : noReset s.inputs) (hioerr : .ioerr ∈ statusesOf i)
    (hst : .unbound ∈ statusesOf i) (hops : RaisesOnly i s.err ops)
    (h : requireBound (accept i s) (runProgram ops) = .next t) : Answers i t :=
  requireBound_answers (s := accept i s) rfl hst
    (fun hk => runProgram_answers (s := accept i s) hk rfl hioerr hops hn) h

theorem execBegin_answers {dev : Byte} {sda scl : Pin} (hn : noReset s.inputs) (h : execBegin dev sda scl s = .next t) :
    Answers (.beginSession dev sda scl) t := by
  simp only [execBegin] at h
  split at h
  · cases h
    exact respond_answers rfl (by simp [statusesOf]) _
  · exact runProgram_answers h rfl (by simp [statusesOf]) (raisesOnly_programOf s.cfg nofun nofun) hn

theorem execRequestFrom_answers {addr : SlaveAddr} {qty : Byte} (hn : noReset s.inputs)
    (h : execRequestFrom addr qty s = .next t) : Answers (.requestFrom addr qty) t := by
  refine requireBound_answers rfl (by simp [statusesOf]) (fun hk => ?_) h
  split at hk
  · cases hk
    exact respond_answers rfl (by simp [statusesOf]) _
  · exact runProgram_answers hk rfl (by simp [statusesOf]) (raisesOnly_programOf s.cfg nofun nofun) hn

theorem execRead_answers (h : execRead s = .next t) : Answers .read t := by
  cases hbuf : s.rxbuf with
  | nil =>
    cases h.symm.trans (exec_read_of_empty hbuf)
    exact respond_answers rfl (by simp [statusesOf]) _
  | cons b rest =>
    cases h.symm.trans (exec_read_of_byte hbuf)
    exact respond_answers rfl (ok_mem_statusesOf _) _

theorem openBurst_err_mem (s : State) : (openBurst s).err ∈ [.ok, .ioerr, .unbound] := by
  rw [openBurst_err]
  split <;> simp

/-- Short of a reset, the response of a command holds one of its status codes. -/
theorem exec_answers (hn : noReset s.inputs) (h : exec i s = .next t) : Answers i t := by
  cases i with
  | beginSession dev sda scl => exact execBegin_answers hn h
  | beginTx | endTx | write =>
    exact requireBound_runProgram_answers hn (by simp [statusesOf]) (by simp [statusesOf])
      (raisesOnly_programOf s.cfg nofun nofun) h
  | writeBytes n =>
    exact runProgram_answers h rfl (by simp [statusesOf])
      (raisesOnly_programOf s.cfg (fun _ => openBurst_err_mem (accept (.writeBytes n) s)) nofun) hn
  | writeStr =>
    exact runProgram_answers (ops := [.textBeat]) (s := openBurst (accept .writeStr s)) h rfl (by simp [statusesOf])
      (raisesOnly_programOf s.cfg nofun (fun _ => openBurst_err_mem (accept .writeStr s))) hn
  | requestFrom addr qty => exact execRequestFrom_answers hn h
  | read => exact execRead_answers h
  | available | status =>
    cases h
    exact respond_answers rfl (ok_mem_statusesOf _) _

/-- The opcode field of a response word (30_encoding.md R113). -/
theorem responseWord_opcode (op : BitVec 4) (st : Status) (p : Payload) :
    (responseWord op st p).extractLsb' 28 4 = op := by
  show (op ++ st.code ++ p : BitVec (4 + 4 + 24)).extractLsb' 28 4 = op
  ext j hj
  rw [BitVec.getElem_extractLsb', BitVec.getLsbD_append, if_neg (by omega), BitVec.getLsbD_append, if_neg (by omega)]
  rw [show 28 + j - 24 - 4 = j by omega, BitVec.getLsbD_eq_getElem]

/-- Settles O41: the response holds a status code that some line of the command's program, or its entry, can raise. -/
theorem eachCommandRaisesOnlyItsErrors : Obligations.EachCommandRaisesOnlyItsErrors := by
  intro i s t hn h hq
  obtain ⟨hpending, -⟩ | ⟨-, st, hst, p, hrsp⟩ := exec_answers hn h
  · exact absurd hq hpending.seq
  · rw [hrsp, responseWord_opcode, responseWord_status]
    have hcode : st.code ∈ (statusesOf i).map Status.code := List.mem_map_of_mem hst
    refine ⟨rfl, ?_⟩
    cases i with
    | available | status => exact List.mem_singleton.mp hcode
    | _ => exact hcode

/-! ### Where the block waits -/

/-- In the invariant the block is at rest or waits in one of the ways of 60_exceptions.md R320, by phase and port. -/
theorem State.Inv.waits (h : s.Inv) :
    s.seq = .ready ∨ s.seq = .resp ∨ (s.seq = .beatWait ∧ (s.todo = [.countedBeat] ∨ s.todo = [.textBeat])) ∨
      (s.seq = .busy ∧ ((s.io = .idle ∧ s.todo.head? = some .settle) ∨
        ∃ req, (∃ n, s.io = .gap n req) ∨ s.io = .request req ∨ s.io = .outstanding req)) := by
  cases hq : s.seq with
  | ready => exact Or.inl rfl
  | resp => exact Or.inr (Or.inl rfl)
  | beatWait =>
    obtain ⟨-, hbeat⟩ := h.beat hq
    exact Or.inr (Or.inr (Or.inl ⟨rfl, hbeat.imp_left And.left⟩))
  | busy =>
    refine Or.inr (Or.inr (Or.inr ⟨rfl, ?_⟩))
    have hwaits := h.busy hq
    unfold waitsFor at hwaits
    cases hio : s.io with
    | idle =>
      rw [hio] at hwaits
      exact Or.inl ⟨rfl, hwaits.1⟩
    | gap n req => exact Or.inr ⟨req, Or.inl ⟨n, rfl⟩⟩
    | request req => exact Or.inr ⟨req, Or.inr (Or.inl rfl)⟩
    | outstanding req => exact Or.inr ⟨req, Or.inr (Or.inr rfl)⟩

/-- Settles O44: a step keeps the invariant, which says how the block waits, and without an edge the next step stays. -/
theorem theBlockWaitsOnlyAsListed : Obligations.TheBlockWaitsOnlyAsListed := by
  intro s t hs hstep hin
  have ht : t.Inv := everyStepKeepsTheInvariant s t hs hstep
  exact ⟨step_of_no_edge ht.legal hin, ht.waits⟩

end Sys2Proof.Machine
end
